-- ==== Sys2Proof/Word.lean ====
section
/-! DEFINITION. The word types of the machine (00_scope.md R6: values are unsigned bit vectors of a stated width). -/

namespace Sys2Proof

/-- A byte of memory or of the instruction stream. -/
abbrev Byte := BitVec 8

/-- A segment selector (10_state.md R26). -/
abbrev Selector := BitVec 16

/-- A linear or physical address, and an effective address zero-extended to 64 bits (20_memory.md R50). -/
abbrev Addr := BitVec 64

/-- A privilege level, 0 to 3, 0 the most privileged: CPL, RPL and DPL (10_state.md R30). -/
abbrev Level := BitVec 2

/-- The page-fault code, which the spec does not interpret (20_memory.md R58; 93 U16). Its width, 32 bits, is the model's:
the spec gives none. DESIGN CHOICE (log 37), unsafe. -/
abbrev FaultCode := BitVec 32

end Sys2Proof
end

