-- ==== Sys2Proof/Syntax.lean ====
section
/-! DEFINITION. The syntax of the machine: the thirteen instruction forms (30_encoding.md R81), their operands as the
decoder reports them (R100), and the modes and sizes a decoder needs to know. -/

namespace Sys2Proof

/-- An operand-size or address-size attribute in bits (30_encoding.md R85, R87). -/
inductive Size where
  | s16 | s32 | s64
  deriving DecidableEq, Repr

/-- The default size of a code segment outside 64-bit mode (30_encoding.md R85, R87). -/
inductive CodeSize where
  | c16 | c32
  deriving DecidableEq, Repr

/-- The five operating modes (10_state.md R29). `prot` is protected mode. -/
inductive Mode where
  | real | v86 | prot | compat | long64
  deriving DecidableEq, Repr

/-- The six segment registers (10_state.md R25). -/
inductive SegName where
  | es | cs | ss | ds | fs | gs
  deriving DecidableEq, Repr

/-- The five segment registers an instruction of the family loads (30_encoding.md R82): CS is not one. -/
inductive LoadSeg where
  | ds | ss | es | fs | gs
  deriving DecidableEq, Repr

/-- The legacy prefixes with a meaning on these instructions (30_encoding.md R92, R93, R95). -/
inductive LegacyPrefix where
  | lock
  | segOverride (s : SegName)
  | opSize
  | addrSize
  deriving DecidableEq, Repr

/-- The REX prefix's four bits (30_encoding.md R86). -/
structure Rex where
  w : Bool
  r : Bool
  x : Bool
  b : Bool
  deriving DecidableEq, Repr

/-- The three values of ModRM.mod that name a memory operand: 00, 01, 10 (30_encoding.md R83). -/
inductive Mod where
  | noDisp | disp8 | dispFull
  deriving DecidableEq, Repr

/-- The SIB byte (30_encoding.md R89). -/
structure Sib where
  scale : BitVec 2
  index : BitVec 3
  base  : BitVec 3
  deriving DecidableEq, Repr

/-- The displacement that follows ModRM and SIB, by its encoded size (30_encoding.md R80, R91). -/
inductive Disp where
  | absent
  | d8 (v : BitVec 8)
  | d16 (v : BitVec 16)
  | d32 (v : BitVec 32)
  deriving DecidableEq, Repr

/-- How many displacement bytes an addressing form has (30_encoding.md R96). -/
inductive DispSize where
  | zero | one | two | four
  deriving DecidableEq, Repr

/-- The operands of an instruction as the decoder reports them (30_encoding.md R100): the legacy prefixes in their order,
the REX prefix, the ModRM fields, the SIB byte and the displacement. -/
structure Operands where
  pre  : List LegacyPrefix
  rex  : Option Rex
  mod  : Mod
  reg  : BitVec 3
  rm   : BitVec 3
  sib  : Option Sib
  disp : Disp
  deriving DecidableEq, Repr

/-- The thirteen forms (30_encoding.md R81 rows F1 to F13; 40_load_far_pointer.md R111 to R123). The number is the
operand-size attribute. -/
inductive Instr where
  | lds16 (o : Operands)
  | lds32 (o : Operands)
  | lss16 (o : Operands)
  | lss32 (o : Operands)
  | lss64 (o : Operands)
  | les16 (o : Operands)
  | les32 (o : Operands)
  | lfs16 (o : Operands)
  | lfs32 (o : Operands)
  | lfs64 (o : Operands)
  | lgs16 (o : Operands)
  | lgs32 (o : Operands)
  | lgs64 (o : Operands)
  deriving DecidableEq, Repr

/-- What a decoder must know beside the bytes: the mode, the code segment's default sizes and `P_VEX`
(30_encoding.md R101). -/
structure DecodeEnv where
  mode        : Mode
  defaultOp   : CodeSize
  defaultAddr : CodeSize
  vex         : Bool
  deriving DecidableEq, Repr

/-- Why a decoder gives no instruction (30_encoding.md R98, R100): #UD, a refusal by name, or bytes that end before the
instruction does. -/
inductive DecodeStop where
  | undefinedOpcode
  | notInScope
  | prefixForm
  | vexSpace
  | outOfBytes
  deriving DecidableEq, Repr

end Sys2Proof
end

