-- ==== Sys2Proof/Decode.lean ====
section
/-! DEFINITION. The decoder, total on byte lists (30_encoding.md R80 to R101), the encoder written from the same tables,
and the readers of an instruction's parts that both and the machine share. -/

namespace Sys2Proof

/-! ## The parts of an instruction -/

/-- The segment register the form loads (30_encoding.md R82). -/
def Instr.dest : Instr → LoadSeg
  | .lds16 _ | .lds32 _ => .ds
  | .lss16 _ | .lss32 _ | .lss64 _ => .ss
  | .les16 _ | .les32 _ => .es
  | .lfs16 _ | .lfs32 _ | .lfs64 _ => .fs
  | .lgs16 _ | .lgs32 _ | .lgs64 _ => .gs

/-- The operand size of the form (30_encoding.md R81, column `w`). -/
def Instr.width : Instr → Size
  | .lds16 _ | .lss16 _ | .les16 _ | .lfs16 _ | .lgs16 _ => .s16
  | .lds32 _ | .lss32 _ | .les32 _ | .lfs32 _ | .lgs32 _ => .s32
  | .lss64 _ | .lfs64 _ | .lgs64 _ => .s64

/-- The operands of the form. -/
def Instr.operands : Instr → Operands
  | .lds16 o | .lds32 o | .lss16 o | .lss32 o | .lss64 o | .les16 o | .les32 o
  | .lfs16 o | .lfs32 o | .lfs64 o | .lgs16 o | .lgs32 o | .lgs64 o => o

/-- The row of 30_encoding.md R81 with this segment register and this width, where there is one (R101 step 9). -/
def Instr.ofForm : LoadSeg → Size → Operands → Option Instr
  | .ds, .s16, o => some (.lds16 o)
  | .ds, .s32, o => some (.lds32 o)
  | .ds, .s64, _ => none
  | .ss, .s16, o => some (.lss16 o)
  | .ss, .s32, o => some (.lss32 o)
  | .ss, .s64, o => some (.lss64 o)
  | .es, .s16, o => some (.les16 o)
  | .es, .s32, o => some (.les32 o)
  | .es, .s64, _ => none
  | .fs, .s16, o => some (.lfs16 o)
  | .fs, .s32, o => some (.lfs32 o)
  | .fs, .s64, o => some (.lfs64 o)
  | .gs, .s16, o => some (.lgs16 o)
  | .gs, .s32, o => some (.lgs32 o)
  | .gs, .s64, o => some (.lgs64 o)

/-- DS and ES, which 64-bit mode cannot load (30_encoding.md R94). -/
def LoadSeg.isDsEs : LoadSeg → Bool
  | .ds | .es => true
  | .ss | .fs | .gs => false

/-- The segment register a form loads, by its name among the six (30_encoding.md R82). -/
def LoadSeg.name : LoadSeg → SegName
  | .ds => .ds
  | .ss => .ss
  | .es => .es
  | .fs => .fs
  | .gs => .gs

/-- The number of bits of a size. -/
def Size.bits : Size → Nat
  | .s16 => 16
  | .s32 => 32
  | .s64 => 64

/-- The number of bytes of a size: of the offset part of a far pointer (20_memory.md R52). -/
def Size.bytes : Size → Nat
  | .s16 => 2
  | .s32 => 4
  | .s64 => 8

/-- The bytes of the far pointer a form of this width reads (20_memory.md R52, R61): offset and selector. -/
def Size.farBytes (w : Size) : Nat := w.bytes + 2

/-- A LOCK prefix is present (30_encoding.md R93). -/
def Operands.hasLock (o : Operands) : Bool := o.pre.contains .lock

/-- REX.W, false without a REX prefix (30_encoding.md R86). -/
def rexW (rex : Option Rex) : Bool := (rex.map Rex.w).getD false

/-- A ModRM or SIB field extended by a REX bit, the bit on top (30_encoding.md R83, R90). -/
def extendedReg (bit : Bool) (field : BitVec 3) : Fin 16 := (BitVec.ofBool bit ++ field).toFin

/-- REX.R, false without a REX prefix. -/
def Operands.rexR (o : Operands) : Bool := (o.rex.map Rex.r).getD false

/-- REX.X, false without a REX prefix. -/
def Operands.rexX (o : Operands) : Bool := (o.rex.map Rex.x).getD false

/-- REX.B, false without a REX prefix. -/
def Operands.rexB (o : Operands) : Bool := (o.rex.map Rex.b).getD false

/-- The destination register, ModRM:reg extended by REX.R (30_encoding.md R83). -/
def Operands.dst (o : Operands) : Fin 16 := extendedReg o.rexR o.reg

/-- The segment override, where there is one (30_encoding.md R92). -/
def segOverrideOf : List LegacyPrefix → Option SegName
  | [] => none
  | .segOverride s :: _ => some s
  | _ :: ps => segOverrideOf ps

/-! ## Size attributes -/

/-- A code segment's default size, toggled by a prefix (30_encoding.md R85, R87). -/
def toggledSize (default : CodeSize) (toggle : Bool) : Size :=
  match default, toggle with
  | .c16, false => .s16
  | .c16, true => .s32
  | .c32, false => .s32
  | .c32, true => .s16

/-- The operand-size attribute (30_encoding.md R85). In 64-bit mode REX.W wins over prefix 66. -/
def operandSize (env : DecodeEnv) (pre : List LegacyPrefix) (rex : Option Rex) : Size :=
  match env.mode with
  | .long64 => if rexW rex then .s64 else if pre.contains .opSize then .s16 else .s32
  | _ => toggledSize env.defaultOp (pre.contains .opSize)

/-- The address-size attribute (30_encoding.md R87). -/
def addressSize (env : DecodeEnv) (pre : List LegacyPrefix) : Size :=
  match env.mode with
  | .long64 => if pre.contains .addrSize then .s32 else .s64
  | _ => toggledSize env.defaultAddr (pre.contains .addrSize)

/-! ## The shape of the addressing forms -/

/-- A SIB byte follows exactly when `rm` is 100 with 32- or 64-bit addressing (30_encoding.md R88, R89, R90). -/
def needsSib (a : Size) (rm : BitVec 3) : Bool :=
  match a with
  | .s16 => false
  | .s32 | .s64 => rm == 4#3

/-- The size of the displacement (30_encoding.md R88, R89, R90): by `mod`, and with `mod` 00 a full displacement for the
forms with no base register. -/
def dispSize (a : Size) (m : Mod) (rm : BitVec 3) (sib : Option Sib) : DispSize :=
  match a, m with
  | _, .disp8 => .one
  | .s16, .dispFull => .two
  | .s16, .noDisp => if rm == 6#3 then .two else .zero
  | .s32, .dispFull | .s64, .dispFull => .four
  | .s32, .noDisp | .s64, .noDisp =>
    match sib with
    | some b => if b.base == 5#3 then .four else .zero
    | none => if rm == 5#3 then .four else .zero

/-- The encoded size of a displacement. -/
def Disp.size : Disp → DispSize
  | .absent => .zero
  | .d8 _ => .one
  | .d16 _ => .two
  | .d32 _ => .four

/-- The number of bytes of a displacement size (30_encoding.md R96). -/
def DispSize.bytes : DispSize → Nat
  | .zero => 0
  | .one => 1
  | .two => 2
  | .four => 4

/-! ## Prefix bytes -/

/-- What a byte is where a legacy prefix may stand (30_encoding.md R101 step 1). -/
inductive PrefixClass where
  | other
  | rep
  | legacy (p : LegacyPrefix)
  deriving DecidableEq, Repr

/-- The legacy prefix bytes (30_encoding.md R92, R93, R95); `F2` and `F3` are `rep`. -/
def classify (b : Byte) : PrefixClass :=
  if b = 0xF0#8 then .legacy .lock
  else if b = 0x26#8 then .legacy (.segOverride .es)
  else if b = 0x2E#8 then .legacy (.segOverride .cs)
  else if b = 0x36#8 then .legacy (.segOverride .ss)
  else if b = 0x3E#8 then .legacy (.segOverride .ds)
  else if b = 0x64#8 then .legacy (.segOverride .fs)
  else if b = 0x65#8 then .legacy (.segOverride .gs)
  else if b = 0x66#8 then .legacy .opSize
  else if b = 0x67#8 then .legacy .addrSize
  else if b = 0xF2#8 ∨ b = 0xF3#8 then .rep
  else .other

/-- The byte of a legacy prefix (30_encoding.md R92, R93, R95). -/
def LegacyPrefix.byte : LegacyPrefix → Byte
  | .lock => 0xF0#8
  | .segOverride .es => 0x26#8
  | .segOverride .cs => 0x2E#8
  | .segOverride .ss => 0x36#8
  | .segOverride .ds => 0x3E#8
  | .segOverride .fs => 0x64#8
  | .segOverride .gs => 0x65#8
  | .opSize => 0x66#8
  | .addrSize => 0x67#8

/-- The four groups of which at most one prefix each is accepted (30_encoding.md R95). -/
def LegacyPrefix.group : LegacyPrefix → Nat
  | .lock => 0
  | .segOverride _ => 1
  | .opSize => 2
  | .addrSize => 3

/-- No group twice, and none of the groups already seen (30_encoding.md R95). -/
def distinctGroups (seen : List Nat) : List LegacyPrefix → Bool
  | [] => true
  | p :: ps => !seen.contains p.group && distinctGroups (p.group :: seen) ps

/-- A byte of the REX range 40 to 4F (30_encoding.md R86). -/
def isRexByte (b : Byte) : Bool := b.extractLsb' 4 4 == 4#4

/-- The four bits of a REX byte (30_encoding.md R86). -/
def Rex.ofByte (b : Byte) : Rex := ⟨b.getLsbD 3, b.getLsbD 2, b.getLsbD 1, b.getLsbD 0⟩

/-- The REX byte `0100WRXB` (30_encoding.md R86). -/
def Rex.byte (r : Rex) : Byte :=
  4#4 ++ BitVec.ofBool r.w ++ BitVec.ofBool r.r ++ BitVec.ofBool r.x ++ BitVec.ofBool r.b

/-! ## Decoding (R101) -/

/-- Step 1: the legacy prefixes, refusing `F2`, `F3` and a second prefix of a group (30_encoding.md R95, R101). -/
def scanPrefixes (seen : List Nat) : List Byte → Except DecodeStop (List LegacyPrefix × List Byte)
  | [] => .error .outOfBytes
  | b :: bs =>
    match classify b with
    | .other => .ok ([], b :: bs)
    | .rep => .error .prefixForm
    | .legacy p =>
      if seen.contains p.group then .error .prefixForm
      else
        match scanPrefixes (p.group :: seen) bs with
        | .ok (ps, rest) => .ok (p :: ps, rest)
        | .error e => .error e

/-- Step 2: the REX prefix, in 64-bit mode only, refused unless it is the last byte before the opcode
(30_encoding.md R86, R95, R101). -/
def readRex (mode : Mode) : List Byte → Except DecodeStop (Option Rex × List Byte)
  | [] => .error .outOfBytes
  | b :: bs =>
    if mode = .long64 ∧ isRexByte b then
      match bs with
      | [] => .error .outOfBytes
      | c :: _ =>
        if classify c = .other ∧ isRexByte c = false then .ok (some (Rex.ofByte b), bs)
        else .error .prefixForm
    else .ok (none, b :: bs)

/-- Step 3: the opcode (30_encoding.md R82, R101); every other opcode is refused (R100). -/
def readOpcode : List Byte → Except DecodeStop (LoadSeg × List Byte)
  | [] => .error .outOfBytes
  | b :: bs =>
    if b = 0xC5#8 then .ok (.ds, bs)
    else if b = 0xC4#8 then .ok (.es, bs)
    else if b = 0x0F#8 then
      match bs with
      | [] => .error .outOfBytes
      | c :: cs =>
        if c = 0xB2#8 then .ok (.ss, cs)
        else if c = 0xB4#8 then .ok (.fs, cs)
        else if c = 0xB5#8 then .ok (.gs, cs)
        else .error .notInScope
    else .error .notInScope

/-- What `C4` and `C5` give where they may begin a VEX prefix (30_encoding.md R94). -/
def vexStop (env : DecodeEnv) : DecodeStop := if env.vex then .vexSpace else .undefinedOpcode

/-- Step 4: `C4` and `C5` in 64-bit mode, and before a byte with bits 7:6 = 11 (30_encoding.md R94, R101). -/
def vexCheck (env : DecodeEnv) (seg : LoadSeg) (bs : List Byte) : Except DecodeStop Unit :=
  if seg.isDsEs then
    if env.mode = .long64 then .error (vexStop env)
    else
      match bs with
      | [] => .error .outOfBytes
      | m :: _ => if m.extractLsb' 6 2 = 3#2 then .error (vexStop env) else .ok ()
  else .ok ()

/-- The memory forms of ModRM.mod; `none` is 11, a register operand (30_encoding.md R83, R84). -/
def Mod.ofBits (v : BitVec 2) : Option Mod :=
  if v = 0#2 then some .noDisp
  else if v = 1#2 then some .disp8
  else if v = 2#2 then some .dispFull
  else none

/-- The bits of ModRM.mod (30_encoding.md R83). -/
def Mod.bits : Mod → BitVec 2
  | .noDisp => 0#2
  | .disp8 => 1#2
  | .dispFull => 2#2

/-- Step 5: ModRM as (mod, reg, rm); a register source is #UD (30_encoding.md R83, R84, R101). -/
def readModRM : List Byte → Except DecodeStop ((Mod × BitVec 3 × BitVec 3) × List Byte)
  | [] => .error .outOfBytes
  | b :: bs =>
    match Mod.ofBits (b.extractLsb' 6 2) with
    | none => .error .undefinedOpcode
    | some m => .ok ((m, b.extractLsb' 3 3, b.extractLsb' 0 3), bs)

/-- Step 8, the SIB byte (30_encoding.md R89). -/
def readSib (a : Size) (rm : BitVec 3) (bs : List Byte) : Except DecodeStop (Option Sib × List Byte) :=
  if needsSib a rm then
    match bs with
    | [] => .error .outOfBytes
    | b :: cs => .ok (some ⟨b.extractLsb' 6 2, b.extractLsb' 3 3, b.extractLsb' 0 3⟩, cs)
  else .ok (none, bs)

/-- Step 8, the displacement, little-endian (30_encoding.md R88, R89, R91). -/
def readDisp : DispSize → List Byte → Except DecodeStop (Disp × List Byte)
  | .zero, bs => .ok (.absent, bs)
  | .one, b0 :: bs => .ok (.d8 b0, bs)
  | .two, b0 :: b1 :: bs => .ok (.d16 (b1 ++ b0), bs)
  | .four, b0 :: b1 :: b2 :: b3 :: bs => .ok (.d32 (b3 ++ b2 ++ b1 ++ b0), bs)
  | .one, [] | .two, _ | .four, _ => .error .outOfBytes

/-- The decode procedure (30_encoding.md R101): an instruction and the bytes after it, or why there is none. -/
def decode (env : DecodeEnv) (bytes : List Byte) : Except DecodeStop (Instr × List Byte) := do
  let (pre, bs) ← scanPrefixes [] bytes
  let (rex, bs) ← readRex env.mode bs
  let (seg, bs) ← readOpcode bs
  vexCheck env seg bs
  let ((m, reg, rm), bs) ← readModRM bs
  if pre.contains .lock then .error .undefinedOpcode
  else
    let a := addressSize env pre
    let (sib, bs) ← readSib a rm bs
    let (disp, bs) ← readDisp (dispSize a m rm sib) bs
    match Instr.ofForm seg (operandSize env pre rex) ⟨pre, rex, m, reg, rm, sib, disp⟩ with
    | some i => .ok (i, bs)
    | none => .error .notInScope

/-! ## Encoding -/

/-- The opcode bytes (30_encoding.md R81, R82). -/
def LoadSeg.opcode : LoadSeg → List Byte
  | .ds => [0xC5#8]
  | .es => [0xC4#8]
  | .ss => [0x0F#8, 0xB2#8]
  | .fs => [0x0F#8, 0xB4#8]
  | .gs => [0x0F#8, 0xB5#8]

/-- The SIB byte (30_encoding.md R89). -/
def Sib.byte (b : Sib) : Byte := b.scale ++ b.index ++ b.base

/-- The displacement's bytes, little-endian (30_encoding.md R91). -/
def Disp.encode : Disp → List Byte
  | .absent => []
  | .d8 v => [v]
  | .d16 v => [v.extractLsb' 0 8, v.extractLsb' 8 8]
  | .d32 v => [v.extractLsb' 0 8, v.extractLsb' 8 8, v.extractLsb' 16 8, v.extractLsb' 24 8]

/-- The ModRM byte (30_encoding.md R83). -/
def Operands.modrm (o : Operands) : Byte := o.mod.bits ++ o.reg ++ o.rm

/-- The bytes of an instruction, in the order of 30_encoding.md R80. -/
def encode (i : Instr) : List Byte :=
  let o := i.operands
  o.pre.map LegacyPrefix.byte ++ (o.rex.toList.map Rex.byte ++ (i.dest.opcode ++
    (o.modrm :: (o.sib.toList.map Sib.byte ++ o.disp.encode))))

/-- The length of the form with this segment register and these operands, by the sum of 30_encoding.md R96. -/
def formLength (S : LoadSeg) (o : Operands) : Nat :=
  o.pre.length + (if o.rex.isSome then 1 else 0) + S.opcode.length + 1
    + (if o.sib.isSome then 1 else 0) + o.disp.size.bytes

/-- The instruction's length (30_encoding.md R96). -/
def Instr.length (i : Instr) : Nat := formLength i.dest i.operands

/-- The longest form the decoder admits: 4 prefixes, REX, 2 opcode bytes, ModRM, SIB, 4 displacement bytes
(30_encoding.md R96). -/
def maxLength : Nat := 13

/-! ## The opcode table's words -/

/-- The bytes a word of spec/opcode_table.json stands for: the table puts the FIRST opcode byte in the high bits
("match_is_over"), so the word's bytes are read from the top; every byte after them, up to the longest instruction, is 0
(log 3). -/
def tableBytes (nbits w : Nat) : List Byte :=
  let n := (nbits + 7) / 8
  (List.range n).map (fun k => BitVec.ofNat 8 (w / 256 ^ (n - 1 - k))) ++ List.replicate (maxLength - n) 0#8

/-- The environment the table's words are decoded in: that of the state after reset, real-address mode with 16-bit
defaults and `P_VEX` true (log 3). -/
def tableEnv : DecodeEnv := ⟨.real, .c16, .c16, true⟩

/-- The instruction the decoder reads from a word of spec/opcode_table.json. -/
def decodeTableWord (nbits w : Nat) : Option Instr :=
  match decode tableEnv (tableBytes nbits w) with
  | .ok (i, _) => some i
  | .error _ => none

end Sys2Proof
end

