-- ==== Sys2Proof/Machine/Descriptor.lean ====
section
/-! DEFINITION. Segment selectors and segment descriptors: the descriptor record a segment register's hidden part holds
(10_state.md R27), what the selector checks look at (41_segment_load.md R140, R141) and the 8-byte layout (R142). -/

namespace Sys2Proof.Machine

/-- The seven kinds of descriptor the checks tell apart (41_segment_load.md R141). `codeXRC` is "code, readable,
conforming", `codeXNC` "code, not readable, nonconforming". -/
inductive DescKind where
  | dataRO | dataRW | codeXNC | codeXRNC | codeXC | codeXRC | system
  deriving DecidableEq, Repr

/-- A segment descriptor as the hidden part of a segment register holds it (10_state.md R27): the segment base (64 bits,
of which 32-bit modes use the low 32), the limit already scaled to bytes, and the attribute bits. `typ` is the type field,
`s` is 1 for a code or data segment. -/
structure Descriptor where
  base  : BitVec 64
  limit : BitVec 32
  typ   : BitVec 4
  s     : Bool
  dpl   : Level
  p     : Bool
  avl   : Bool
  l     : Bool
  db    : Bool
  g     : Bool
  deriving DecidableEq, Repr, Inhabited

/-- The kind a descriptor's S bit and type field stand for (41_segment_load.md R142, the mapping to R141): type bit 3 is
code, bit 2 conforming (code) or expand-down (data), bit 1 readable (code) or writable (data). -/
def Descriptor.kind (d : Descriptor) : DescKind :=
  if d.s = false then .system
  else if d.typ.getLsbD 3 = false then
    if d.typ.getLsbD 1 then .dataRW else .dataRO
  else if d.typ.getLsbD 2 then
    if d.typ.getLsbD 1 then .codeXRC else .codeXC
  else
    if d.typ.getLsbD 1 then .codeXRNC else .codeXNC

/-- `IsData` (41_segment_load.md R141). -/
def Descriptor.isData (d : Descriptor) : Bool := d.kind == .dataRO || d.kind == .dataRW

/-- `IsWritableData` (41_segment_load.md R141). -/
def Descriptor.isWritableData (d : Descriptor) : Bool := d.kind == .dataRW

/-- `IsReadableCode` (41_segment_load.md R141). -/
def Descriptor.isReadableCode (d : Descriptor) : Bool := d.kind == .codeXRNC || d.kind == .codeXRC

/-- `IsNonconformingCode` (41_segment_load.md R141). -/
def Descriptor.isNonconformingCode (d : Descriptor) : Bool := d.kind == .codeXNC || d.kind == .codeXRNC

/-- A code segment that may only be executed, not read (20_memory.md R55, the cause of 91 N37). -/
def Descriptor.isExecuteOnly (d : Descriptor) : Bool := d.kind == .codeXNC || d.kind == .codeXC

/-- An expand-down data segment (41_segment_load.md R142, bit 42 of a data descriptor). -/
def Descriptor.isExpandDown (d : Descriptor) : Bool := d.isData && d.typ.getLsbD 2

/-- The limit in bytes: the 20-bit field, or that field times 4096 plus 4095 when G is 1 (20_memory.md R55). -/
def scaledLimit (raw : BitVec 20) (g : Bool) : BitVec 32 :=
  if g then raw ++ 0xFFF#12 else raw.setWidth 32

/-- The descriptor an 8-byte entry `D` of a descriptor table stands for (41_segment_load.md R142). The base is 32 bits,
zero-extended (R154). -/
def Descriptor.ofBits (D : BitVec 64) : Descriptor where
  base  := (D.extractLsb' 56 8 ++ D.extractLsb' 16 24).setWidth 64
  limit := scaledLimit (D.extractLsb' 48 4 ++ D.extractLsb' 0 16) (D.getLsbD 55)
  typ   := D.extractLsb' 40 4
  s     := D.getLsbD 44
  dpl   := D.extractLsb' 45 2
  p     := D.getLsbD 47
  avl   := D.getLsbD 52
  l     := D.getLsbD 53
  db    := D.getLsbD 54
  g     := D.getLsbD 55

/-- The same descriptor with its base cut to 32 bits and zero-extended: a descriptor's base is 32 bits (41_segment_load.md
R142, R154). -/
def Descriptor.withBase32 (d : Descriptor) : Descriptor :=
  { d with base := (d.base.setWidth 32).setWidth 64 }

/-- `IsNull(sel)`: one of 0x0000 to 0x0003 (41_segment_load.md R140). -/
def isNull (sel : Selector) : Bool := sel.extractLsb' 2 14 == 0

/-- `RPL(sel)`, bits 1:0 (41_segment_load.md R140). -/
def rpl (sel : Selector) : Level := sel.extractLsb' 0 2

/-- `TI(sel)`, bit 2: the local table (10_state.md R26). -/
def tableIndicator (sel : Selector) : Bool := sel.getLsbD 2

/-- `Index(sel)`, bits 15:3 (10_state.md R26). -/
def selectorIndex (sel : Selector) : Nat := (sel.extractLsb' 3 13).toNat

/-- `ErrSel(sel)`: the selector with bits 1:0 zero, the "(selector)" error code (60_exceptions.md R172). -/
def errSel (sel : Selector) : BitVec 16 := sel &&& 0xFFFC#16

end Sys2Proof.Machine
end

