-- ==== Sys2Proof/Config.lean ====
section
/-! DEFINITION. What an implementation fixes (00_scope.md R5): the parameters a launch state carries as plain data, and
the free values, which are constants with no body. -/

namespace Sys2Proof.Config

/-- `P_READ_ORDER`: which part of the far pointer is read first (20_memory.md R61). -/
inductive ReadOrder where
  | offsetFirst | selectorFirst
  deriving DecidableEq, Repr

/-- `P_FAULT_ORDER`: which exception is reported where several apply (60_exceptions.md R175; 92 D11): the first in the
fixed order, or any one of them. -/
inductive FaultOrder where
  | fixed | anyApplicable
  deriving DecidableEq, Repr

/-- The parameters of 00_scope.md R5 that are numbers, Booleans or names. They stand in `State.params`, so a statement
about every state holds for every value of them. -/
structure Params where
  /-- `P_VA_BITS` (20_memory.md R57). -/
  vaBits : Nat
  /-- `P_VEX` (30_encoding.md R94). -/
  vex : Bool
  /-- `P_NONCANON_DESC_ERR` is the selector, else 0 (41_segment_load.md R149). -/
  nonCanonErrSel : Bool
  /-- `P_READ_ORDER` (20_memory.md R61). -/
  readOrder : ReadOrder
  /-- `P_FAULT_ORDER` (60_exceptions.md R175). -/
  faultOrder : FaultOrder
  /-- `FarPtrAligned` for w = 16 where the launch state lists no answer: the linear address is a multiple of this
  (20_memory.md R59). -/
  alignUnit16 : Nat
  /-- `FarPtrAligned` for w = 32. -/
  alignUnit32 : Nat
  /-- `FarPtrAligned` for w = 64. -/
  alignUnit64 : Nat
  deriving DecidableEq, Repr

/-- The defaults the spec names: 48 address bits, `P_VEX` true, the selector as error code, the fixed order of exceptions
and the suggested alignment units 2, 4, 8. Offset first is the model's. DESIGN CHOICE (logs 13, 15 to 19), unsafe where a
proof leans on one. -/
def Params.default : Params where
  vaBits := 48
  vex := true
  nonCanonErrSel := true
  readOrder := .offsetFirst
  faultOrder := .fixed
  alignUnit16 := 2
  alignUnit32 := 4
  alignUnit64 := 8

/-- FREE VALUE: bits 63:32 of a general register after a 32-bit write outside 64-bit mode, the `k`-th draw
(10_state.md R21; log 6). -/
opaque freeHigh : Nat → BitVec 32

/-- FREE VALUE: the descriptor a NULL load leaves in the hidden part, the `k`-th draw (41_segment_load.md R148, R150,
R152; log 7). -/
opaque freeDescriptor : Nat → Machine.Descriptor

/-- FREE VALUE: which of several applicable exceptions is reported, where `P_FAULT_ORDER` lets any one be (60_exceptions.md
R175; log 16). -/
opaque freeChoice : Nat → Nat

end Sys2Proof.Config
end

