-- ==== Sys2Proof/Machine/State.lean ====
section
/-! DEFINITION. The machine's state as plain data, the reasons a step can stop, and the state after reset
(10_state.md; 70_reset_and_hazards.md R200). -/

namespace Sys2Proof.Machine

/-- One general register of 64 bits (10_state.md R20), held as its two halves: bits 31:0, which every mode can read, and
bits 63:32, which only 64-bit mode can (R21). -/
structure GeneralRegister where
  lo : BitVec 32
  hi : BitVec 32
  deriving DecidableEq, Repr

/-- One segment register: the visible selector (10_state.md R25) and the hidden part, the descriptor-valid bit and the
descriptor (R27). -/
structure SegmentRegister where
  sel   : Selector
  valid : Bool
  desc  : Descriptor
  deriving DecidableEq, Repr

/-- The six segment registers (10_state.md R25). -/
structure SegmentFile where
  es : SegmentRegister
  cs : SegmentRegister
  ss : SegmentRegister
  ds : SegmentRegister
  fs : SegmentRegister
  gs : SegmentRegister
  deriving DecidableEq, Repr

/-- GDTR (10_state.md R32, R33). -/
structure GlobalTableRegister where
  base  : BitVec 64
  limit : BitVec 16
  deriving DecidableEq, Repr

/-- LDTR with its hidden base and limit, and whether it holds a table at all (10_state.md R32, R33; 41_segment_load.md
R142). -/
structure LocalTableRegister where
  sel   : Selector
  valid : Bool
  base  : BitVec 64
  limit : BitVec 32
  deriving DecidableEq, Repr

/-- An answer of the descriptor lookup `DescFetch` (41_segment_load.md R143). -/
inductive DescAnswer where
  | outOfLimits
  | nonCanonical
  | pageFault (code : FaultCode)
  | desc (d : Descriptor)
  deriving DecidableEq, Repr

/-- One answer of the predicate `SegAccessOK` (20_memory.md R55) that the launch state fixes: for an operand of `n` bytes at
`ea` through segment register `seg` while that register holds `reg` (log 14). -/
structure SegAccessAnswer where
  seg : SegName
  reg : SegmentRegister
  ea  : Nat
  n   : Nat
  ok  : Bool
  deriving DecidableEq, Repr

/-- One answer of the predicate `FarPtrAligned` (20_memory.md R59) that the launch state fixes: for a far pointer of offset
width `width` at linear address `lin` (log 13). -/
structure AlignAnswer where
  width   : Size
  lin     : Addr
  aligned : Bool
  deriving DecidableEq, Repr

/-- What an address is translated for (20_memory.md R58; the instruction fetch is the model's third kind, log 12). -/
inductive AccessKind where
  | dataReadAtCpl | descriptorRead | codeFetch
  deriving DecidableEq, Repr

/-- An answer of the paging oracle `Translate` (20_memory.md R58). -/
inductive Translation where
  | phys (p : Addr)
  | pageFault (code : FaultCode)
  deriving DecidableEq, Repr

/-- One region of linear addresses, for one kind of access: mapped to physical addresses that run on from `p`, or
faulting. A region of size 1 answers for one byte, so any function of the address can be written (log 12). -/
structure PageRegion where
  kind   : AccessKind
  base   : Nat
  size   : Nat
  answer : Translation
  deriving DecidableEq, Repr

/-- The paging oracle as data (20_memory.md R58): the first region that holds the address answers; elsewhere the
translation is the identity (`none`, as with paging off) or a page fault with that code. -/
structure Paging where
  regions   : List PageRegion
  elsewhere : Option FaultCode
  deriving DecidableEq, Repr

/-- The machine's state. INVENTORY.md lists each field with the rule that names it and its reset value. -/
structure State where
  regs            : Vector GeneralRegister 16
  pc              : BitVec 64
  segs            : SegmentFile
  mode            : Mode
  cpl             : Level
  alignCheck      : Bool
  defaultOpSize   : CodeSize
  defaultAddrSize : CodeSize
  gdtr            : GlobalTableRegister
  ldtr            : LocalTableRegister
  descAnswers     : List (Selector × DescAnswer)
  segAnswers      : List SegAccessAnswer
  alignAnswers    : List AlignAnswer
  paging          : Paging
  mem             : List Host.Cell
  params          : Config.Params
  draws           : Nat
  deriving DecidableEq, Repr

/-- The exceptions (60_exceptions.md R170). Each is the hardware's own behaviour up to its delivery, which the spec does
not describe: the machine stops (R176, log 5). Safe: a handler's run is never claimed. An absent error code (`none`) is
real-address mode's `#GP` and `#SS`. -/
inductive Fault where
  /-- `#UD`, no error code. Raised by the decoder for LOCK, a register source, LDS and LES in 64-bit mode
  (60_exceptions.md R173 rows 1 to 3). Safe. -/
  | undefinedOpcode
  /-- `#GP`. Raised by the operand's segment and canonical checks and by the selector checks (R173 rows 4, 6, 7, 10, 11,
  13). Safe. -/
  | generalProtection (code : Option (BitVec 16))
  /-- `#SS`. Raised by the same operand checks through SS, and by LSS of a segment not present (R173 rows 5, 7, 12).
  Safe. -/
  | stackSegment (code : Option (BitVec 16))
  /-- `#NP(selector)`. Raised by LDS, LES, LFS, LGS of a segment not present (R173 row 14). Safe. -/
  | segmentNotPresent (code : BitVec 16)
  /-- `#PF(fault-code)`. Raised by the operand's and the descriptor's translation (R173 row 8). Safe. -/
  | pageFault (code : FaultCode)
  /-- `#AC(0)`. Raised by an unaligned operand with alignment checking enabled (R173 row 9). Safe. -/
  | alignmentCheck
  deriving DecidableEq, Repr

/-- The refusals (00_scope.md R11): never a behaviour of the hardware, so each is safe: it errs toward unprovable. -/
inductive Refusal where
  /-- An instruction with no meaning yet. Raised by no arm of this model. Safe. -/
  | notModelled (mnemonic : String)
  /-- An opcode that is not one of the thirteen forms (30_encoding.md R100). Raised by the decoder. Safe. -/
  | notInScope
  /-- `F2`, `F3`, a repeated prefix, two segment overrides, a misplaced REX (30_encoding.md R95). Raised by the decoder.
  Safe. -/
  | prefixForm
  /-- `C4` or `C5` where they may begin a VEX prefix (30_encoding.md R94). Raised by the decoder. Safe. -/
  | vexSpace
  /-- The instruction's bytes cross the top of the address space, the code-segment limit, a non-canonical boundary or a
  page that faults (10_state.md R24; 93 U15). Raised by the step. Safe. -/
  | fetchOutOfRange
  /-- The operand's last byte lies past the top of its effective-address space (20_memory.md R61). Raised by the operand
  read. Safe. -/
  | operandWrapsAddressSpace
  /-- A 64-bit form executed outside 64-bit mode, where it cannot be encoded (30_encoding.md R97); no step reaches it
  (log 30). Raised by the meanings of the r64 forms. Safe. -/
  | notEncodable
  deriving DecidableEq, Repr

namespace State

/-- The descriptor of a real-address-mode data segment after reset: limit 0xFFFF, present read/write data, accessed
(10_state.md R38, third column). PRESUMED (log 1), unsafe. -/
def resetDescriptor (base : BitVec 64) : Descriptor where
  base := base
  limit := 0xFFFF
  typ := 3
  s := true
  dpl := 0
  p := true
  avl := false
  l := false
  db := false
  g := false

/-- A data-segment register after reset (10_state.md R38). PRESUMED (log 1), unsafe. -/
def resetSegment : SegmentRegister := ⟨0, true, resetDescriptor 0⟩

/-- The machine after reset. The spec gives no reset value (10_state.md R38, 70_reset_and_hazards.md R200): these are the
family's, PRESUMED (log 1), with the model's own choices of logs 4, 8, 11 to 14 and the parameter defaults. Unsafe where a
proof leans on one of them. -/
def reset : State where
  regs := Vector.replicate 16 ⟨0, 0⟩
  pc := 0xFFF0
  segs :=
    { es := resetSegment
      cs := ⟨0xF000, true, resetDescriptor 0xFFFF0000⟩
      ss := resetSegment
      ds := resetSegment
      fs := resetSegment
      gs := resetSegment }
  mode := .real
  cpl := 0
  alignCheck := false
  defaultOpSize := .c16
  defaultAddrSize := .c16
  gdtr := ⟨0, 0xFFFF⟩
  ldtr := ⟨0, true, 0, 0xFFFF⟩
  descAnswers := []
  segAnswers := []
  alignAnswers := []
  paging := ⟨[], none⟩
  mem := []
  params := Config.Params.default
  draws := 0

end State

end Sys2Proof.Machine
end

