-- ==== Sys2Proof/Machine/Ops.lean ====
section
/-! DEFINITION. The named operations over memory and registers that every meaning shares: raising an exception, memory
bytes, the general registers and their views, the segment registers, `pc`, translation. -/

namespace Sys2Proof.Machine

/-! ## Stopping -/

/-- Why a meaning ends before its last step: an exception or a refusal (00_scope.md R11). -/
inductive Stop where
  | exception (f : Fault)
  | refusal (r : Refusal)
  deriving DecidableEq, Repr

/-- Taking an exception: the instruction ends with the outcome `Fault(#XX, e)` and no change of state
(00_scope.md R9; 60_exceptions.md R176). The spec describes no delivery and no return from one (R176, R177; log 5). -/
def raise {α : Type} (f : Fault) : Except Stop α := .error (.exception f)

/-- Refusing by name (00_scope.md R11). -/
def refuse {α : Type} (r : Refusal) : Except Stop α := .error (.refusal r)

/-- The outcome of a step from the result of a meaning (00_scope.md R11). -/
def outcome : Except Stop State → Host.Outcome State Fault Refusal
  | .ok s => .next s
  | .error (.exception f) => .fault f
  | .error (.refusal r) => .refused r

/-- The vector number of an exception (60_exceptions.md R171). No rule reads it. -/
def Fault.vector : Fault → Nat
  | .undefinedOpcode => 6
  | .segmentNotPresent _ => 11
  | .stackSegment _ => 12
  | .generalProtection _ => 13
  | .pageFault _ => 14
  | .alignmentCheck => 17

/-- The error code of an exception, where it has one (60_exceptions.md R172), each brought to the 32 bits of a page-fault
code, a width that is the model's. DESIGN CHOICE (log 37). No rule reads it. -/
def Fault.errorCode : Fault → Option (BitVec 32)
  | .undefinedOpcode => none
  | .segmentNotPresent c => some (c.setWidth 32)
  | .stackSegment c => c.map (BitVec.setWidth 32)
  | .generalProtection c => c.map (BitVec.setWidth 32)
  | .pageFault c => some c
  | .alignmentCheck => some 0

/-! ## Memory -/

/-- What a byte of memory that is not listed reads as. DESIGN CHOICE (log 4), unsafe. -/
def unlistedByte : Byte := 0#8

/-- The byte at a physical address (20_memory.md R50). -/
def Memory.read : List Host.Cell → Nat → Byte
  | [], _ => unlistedByte
  | (k, v) :: cells, a => if k = a then v else Memory.read cells a

/-- The memory with one byte written, in canonical form again: addresses rising, no byte listed that an unlisted address
reads as. No instruction calls it (20_memory.md R64); a program is placed with it. -/
def Memory.write : List Host.Cell → Nat → Byte → List Host.Cell
  | [], a, b => if b = unlistedByte then [] else [(a, b)]
  | (k, v) :: cells, a, b =>
    if a < k then
      if b = unlistedByte then (k, v) :: cells else (a, b) :: (k, v) :: cells
    else if a = k then
      if b = unlistedByte then cells else (a, b) :: cells
    else (k, v) :: Memory.write cells a b

/-- The canonical form from an address on: keys at least `lo`, strictly rising, below 2^64, no byte listed that an
unlisted address reads as. -/
def Memory.wfFrom : Nat → List Host.Cell → Bool
  | _, [] => true
  | lo, (k, v) :: cells => decide (lo ≤ k) && decide (k < 2 ^ 64) && v != unlistedByte && Memory.wfFrom (k + 1) cells

/-- The canonical form of memory: equal memories are equal lists. -/
def Memory.wf (m : List Host.Cell) : Bool := Memory.wfFrom 0 m

/-- The unsigned number of a little-endian byte list (20_memory.md R51). -/
def leValue : List Byte → Nat
  | [] => 0
  | b :: bs => b.toNat + 256 * leValue bs

/-! ## General registers -/

/-- General register `i` (10_state.md R20). -/
def State.reg (s : State) (i : Fin 16) : GeneralRegister := s.regs[i.val]

/-- `x16[i]`, bits 15:0 (10_state.md R21). -/
def State.x16 (s : State) (i : Fin 16) : BitVec 16 := (s.reg i).lo.setWidth 16

/-- `x32[i]`, bits 31:0 (10_state.md R21). -/
def State.x32 (s : State) (i : Fin 16) : BitVec 32 := (s.reg i).lo

/-- `x64[i]`, all 64 bits (10_state.md R21). -/
def State.x64 (s : State) (i : Fin 16) : BitVec 64 := (s.reg i).hi ++ (s.reg i).lo

/-- The register file with one register replaced. -/
def State.setReg (s : State) (i : Fin 16) (r : GeneralRegister) : State :=
  { s with regs := s.regs.set i.val r }

/-- `x[i] <-_w v` (10_state.md R21; `v` carries the value in its low `w` bits). A 16-bit write keeps bits 63:16; a 32-bit
write clears bits 63:32 in 64-bit mode and leaves a free value there in any other (log 6); a 64-bit write replaces all. -/
def State.writeReg (s : State) (w : Size) (i : Fin 16) (v : BitVec 64) : State :=
  match w with
  | .s16 => s.setReg i { s.reg i with lo := (s.reg i).lo.extractLsb' 16 16 ++ v.setWidth 16 }
  | .s32 =>
    if s.mode = .long64 then s.setReg i ⟨v.setWidth 32, 0⟩
    else { s.setReg i ⟨v.setWidth 32, Config.freeHigh s.draws⟩ with draws := s.draws + 1 }
  | .s64 => s.setReg i ⟨v.setWidth 32, v.extractLsb' 32 32⟩

/-! ## Segment registers -/

/-- The segment register of a name (10_state.md R25). -/
def SegmentFile.get (f : SegmentFile) : SegName → SegmentRegister
  | .es => f.es
  | .cs => f.cs
  | .ss => f.ss
  | .ds => f.ds
  | .fs => f.fs
  | .gs => f.gs

/-- The file with one segment register replaced. -/
def SegmentFile.set (f : SegmentFile) (S : SegName) (r : SegmentRegister) : SegmentFile :=
  match S with
  | .es => { f with es := r }
  | .cs => { f with cs := r }
  | .ss => { f with ss := r }
  | .ds => { f with ds := r }
  | .fs => { f with fs := r }
  | .gs => { f with gs := r }

/-- `seg[S]` (00_scope.md R7). -/
def State.seg (s : State) (S : SegName) : SegmentRegister := s.segs.get S

/-- `seg[S]` replaced, all three parts (10_state.md R37). -/
def State.setSeg (s : State) (S : SegName) (r : SegmentRegister) : State :=
  { s with segs := s.segs.set S r }

/-! ## The instruction pointer -/

/-- How many bits of `pc` are in use: 64 in 64-bit mode, else 16 or 32 by the code segment's default size
(10_state.md R23, R24). -/
def State.codeBits (s : State) : Nat :=
  if s.mode = .long64 then 64
  else match s.defaultOpSize with
    | .c16 => 16
    | .c32 => 32

/-- The effective address of the instruction within CS (10_state.md R23). -/
def State.codeOffset (s : State) : Nat := s.pc.toNat % 2 ^ s.codeBits

/-- `pc` after an instruction of `n` bytes: the sum wraps at the width in use (10_state.md R24). -/
def State.nextPc (s : State) (n : Nat) : BitVec 64 := BitVec.ofNat 64 ((s.codeOffset + n) % 2 ^ s.codeBits)

/-- `pc <- pc + ilen` (10_state.md R24). -/
def State.advance (s : State) (n : Nat) : State := { s with pc := s.nextPc n }

/-! ## Addresses -/

/-- The environment the machine's decoder works in (30_encoding.md R101). -/
def State.env (s : State) : DecodeEnv := ⟨s.mode, s.defaultOpSize, s.defaultAddrSize, s.params.vex⟩

/-- `Canonical(A)`: bits 63 down to `P_VA_BITS - 1` are all equal (20_memory.md R57). -/
def canonical (vaBits : Nat) (a : Addr) : Bool :=
  let top := a.toNat / 2 ^ (vaBits - 1)
  top == 0 || top == 2 ^ (64 - (vaBits - 1)) - 1

/-- The linear address `i` bytes on: linear addresses are 64 bits in 64-bit mode and 32 bits in the others, and sums wrap
at that width (20_memory.md R54; 00_scope.md R6; log 24). -/
def State.linearAdd (s : State) (lin : Addr) (i : Nat) : Addr :=
  if s.mode = .long64 then lin + BitVec.ofNat 64 i
  else ((lin + BitVec.ofNat 64 i).setWidth 32).setWidth 64

/-- The region that answers for an address and a kind of access, the first that holds it (log 12). -/
def regionFor (kind : AccessKind) (a : Nat) : List PageRegion → Option PageRegion
  | [] => none
  | r :: rs =>
    if r.kind = kind ∧ r.base ≤ a ∧ a < r.base + r.size then some r else regionFor kind a rs

/-- `Translate(lin, kind)` (20_memory.md R58): the identity in real-address mode, else what the paging data answers. -/
def State.translate (s : State) (kind : AccessKind) (lin : Addr) : Translation :=
  if s.mode = .real then .phys lin
  else
    match regionFor kind lin.toNat s.paging.regions with
    | some r =>
      match r.answer with
      | .phys p => .phys (p + BitVec.ofNat 64 (lin.toNat - r.base))
      | .pageFault c => .pageFault c
    | none =>
      match s.paging.elsewhere with
      | none => .phys lin
      | some c => .pageFault c

/-- The bytes `lin + i` to `lin + i + n - 1`, each translated, or the first page fault among them (20_memory.md R58,
R60). -/
def State.readRange (s : State) (kind : AccessKind) (lin : Addr) : Nat → Nat → Except FaultCode (List Byte)
  | _, 0 => .ok []
  | i, n + 1 =>
    match s.translate kind (s.linearAdd lin i) with
    | .pageFault c => .error c
    | .phys p =>
      match s.readRange kind lin (i + 1) n with
      | .ok bs => .ok (Memory.read s.mem p.toNat :: bs)
      | .error c => .error c

end Sys2Proof.Machine
end

