-- ==== Sys2Proof/Machine/Flags.lean ====
section
/-! DEFINITION. The one piece of flag-derived state these instructions read (10_state.md R28, R31). They write no flag
("Flags Affected: None", R28), so there is no flag computation. -/

namespace Sys2Proof.Machine

/-- Whether the alignment check applies (20_memory.md R59): never in real-address mode; in virtual-8086 mode when
alignment checking is enabled; in the others when it is enabled and CPL is 3. -/
def State.alignmentChecked (s : State) : Bool :=
  match s.mode with
  | .real => false
  | .v86 => s.alignCheck
  | .prot | .compat | .long64 => s.alignCheck && s.cpl == 3

/-- The answer the launch state fixes for a width and a linear address, where it fixes one (20_memory.md R59; log 13). -/
def alignAnswer (w : Size) (lin : Addr) : List AlignAnswer → Option Bool
  | [] => none
  | r :: rs => if r.width = w ∧ r.lin = lin then some r.aligned else alignAnswer w lin rs

/-- What a far pointer's linear address is a multiple of where it is aligned, by the suggested instantiation of
20_memory.md R59 (log 13). -/
def State.alignUnit (s : State) : Size → Nat
  | .s16 => s.params.alignUnit16
  | .s32 => s.params.alignUnit32
  | .s64 => s.params.alignUnit64

/-- `FarPtrAligned(lin, w)` (20_memory.md R59), an open predicate: the launch state's own answer where it has one, else the
suggested instantiation (log 13). -/
def State.farPtrAligned (s : State) (w : Size) (lin : Addr) : Bool :=
  match alignAnswer w lin s.alignAnswers with
  | some b => b
  | none => lin.toNat % s.alignUnit w == 0

end Sys2Proof.Machine
end

