-- ==== Sys2Proof/Machine/Operands.lean ====
section
/-! DEFINITION. The memory operand: its segment (20_memory.md R53), its effective address in every addressing form
(30_encoding.md R88, R89, R90), the checks on it and the far pointer read from it (20_memory.md R54 to R61). -/

namespace Sys2Proof.Machine

/-! ## Effective address -/

/-- A displacement at the address size: `disp8` sign-extended, `disp16` and `disp32` whole, `disp32` sign-extended to 64
bits in 64-bit addressing (30_encoding.md R91). -/
def dispValue (n : Nat) : Disp → BitVec n
  | .absent => 0
  | .d8 v => v.signExtend n
  | .d16 v => v.signExtend n
  | .d32 v => v.signExtend n

/-- The register sum of the 16-bit addressing table by `rm` (30_encoding.md R88): BX is 3, BP 5, SI 6, DI 7. -/
def State.base16 (s : State) (rm : BitVec 3) : BitVec 16 :=
  match rm.toNat with
  | 0 => s.x16 3 + s.x16 6
  | 1 => s.x16 3 + s.x16 7
  | 2 => s.x16 5 + s.x16 6
  | 3 => s.x16 5 + s.x16 7
  | 4 => s.x16 6
  | 5 => s.x16 7
  | 6 => s.x16 5
  | _ => s.x16 3

/-- The effective address with 16-bit addressing (30_encoding.md R88). -/
def State.ea16 (s : State) (o : Operands) : BitVec 16 :=
  (if o.mod = .noDisp ∧ o.rm = 6#3 then 0 else s.base16 o.rm) + dispValue 16 o.disp

/-- `BaseVal + IndexVal * 2^scale` (30_encoding.md R89, R90) over a view `x` of the registers: no base register for
`base` 101 with `mod` 00, no index for index number 4. -/
def sibValue {n : Nat} (x : Fin 16 → BitVec n) (o : Operands) (b : Sib) : BitVec n :=
  (if b.base = 5#3 ∧ o.mod = .noDisp then 0 else x (extendedReg o.rexB b.base))
    + (if extendedReg o.rexX b.index = 4 then 0 else x (extendedReg o.rexX b.index) <<< b.scale.toNat)

/-- The effective address with 32- or 64-bit addressing over a view `x` of the registers (30_encoding.md R89, R90).
`noBase` is what the form `mod` 00, `rm` 101 adds to its displacement: the next instruction's address in 64-bit mode,
nothing outside it. -/
def eaWide {n : Nat} (x : Fin 16 → BitVec n) (noBase : BitVec n) (o : Operands) : BitVec n :=
  (match o.sib with
    | some b => sibValue x o b
    | none => if o.rm = 5#3 ∧ o.mod = .noDisp then noBase else x (extendedReg o.rexB o.rm))
  + dispValue n o.disp

/-- What the form `mod` 00, `rm` 101 adds: `next_pc` in 64-bit mode (30_encoding.md R90), else 0 (R89). -/
def State.ripBase (s : State) (len : Nat) : BitVec 64 := if s.mode = .long64 then s.nextPc len else 0

/-- The effective address of the operand of an instruction of `len` bytes, zero-extended to 64 bits
(30_encoding.md R88, R89, R90). -/
def State.effectiveAddress (s : State) (a : Size) (o : Operands) (len : Nat) : Addr :=
  match a with
  | .s16 => (s.ea16 o).setWidth 64
  | .s32 => (eaWide s.x32 ((s.ripBase len).setWidth 32) o).setWidth 64
  | .s64 => eaWide s.x64 (s.ripBase len) o

/-! ## The operand's segment -/

/-- A base register that selects SS: number 4 (SP), or number 5 (BP) unless the form has no base register
(30_encoding.md R89, R90). -/
def stackBase (r : Fin 16) (m : Mod) : Bool := r == 4 || (r == 5 && m != .noDisp)

/-- The default segment (20_memory.md R53; 30_encoding.md R88, R89, R90). -/
def defaultSegment (a : Size) (o : Operands) : SegName :=
  match a with
  | .s16 => if o.rm = 2#3 ∨ o.rm = 3#3 ∨ (o.rm = 6#3 ∧ o.mod ≠ .noDisp) then .ss else .ds
  | .s32 | .s64 =>
    match o.sib with
    | some b => if stackBase (extendedReg o.rexB b.base) o.mod then .ss else .ds
    | none => if stackBase (extendedReg o.rexB o.rm) o.mod then .ss else .ds

/-- The segment of the operand: the override, which in 64-bit mode counts for FS and GS only, else the default
(20_memory.md R53; 30_encoding.md R92). -/
def operandSegment (mode : Mode) (a : Size) (o : Operands) : SegName :=
  match segOverrideOf o.pre with
  | none => defaultSegment a o
  | some S => if mode = .long64 ∧ S ≠ .fs ∧ S ≠ .gs then defaultSegment a o else S

/-! ## From effective address to linear address -/

/-- `LinearAddress(S, ea)` (20_memory.md R54). -/
def State.linearAddress (s : State) (S : SegName) (ea : Addr) : Addr :=
  if s.mode = .long64 then
    match S with
    | .fs | .gs => (s.seg S).desc.base + ea
    | .es | .cs | .ss | .ds => ea
  else (((s.seg S).desc.base + ea).setWidth 32).setWidth 64

/-- The modes whose selectors and descriptors have privilege: protected and compatibility mode (10_state.md R29, one arm
of the source's pseudocode). -/
def modeIsProtected : Mode → Bool
  | .prot | .compat => true
  | .real | .v86 | .long64 => false

/-- The answer the launch state fixes for an operand through a segment register, where it fixes one (20_memory.md R55;
log 14). -/
def segAnswer (S : SegName) (reg : SegmentRegister) (ea n : Nat) : List SegAccessAnswer → Option Bool
  | [] => none
  | r :: rs => if r.seg = S ∧ r.reg = reg ∧ r.ea = ea ∧ r.n = n then some r.ok else segAnswer S reg ea n rs

/-- The instantiation 20_memory.md R55 gives of `SegAccessOK` (log 14): the whole operand inside the limit, the limit read
the other way round in an expand-down data segment; and no read through a code segment that is not readable. -/
def State.segLimitOK (s : State) (S : SegName) (a : Size) (ea n : Nat) : Bool :=
  let d := (s.seg S).desc
  let last := ea + n - 1
  !d.isExecuteOnly && decide (last < 2 ^ a.bits)
    && (if d.isExpandDown then
          decide (d.limit.toNat < ea) && decide (last ≤ if d.db then 0xFFFFFFFF else 0xFFFF)
        else decide (last ≤ d.limit.toNat))

/-- `SegAccessOK(S, ea, n)` (20_memory.md R55), an open predicate: the launch state's own answer where it has one, else R55's
instantiation (log 14). -/
def State.segAccessOK (s : State) (S : SegName) (a : Size) (ea n : Nat) : Bool :=
  match segAnswer S (s.seg S) ea n s.segAnswers with
  | some b => b
  | none => s.segLimitOK S a ea n

/-- The error code of an operand's #GP or #SS: none in real-address mode, 0 in the others (20_memory.md R55, R57). -/
def State.operandCode (s : State) : Option (BitVec 16) := if s.mode = .real then none else some 0

/-- A bad operand address: #SS through SS, #GP through any other segment (20_memory.md R55, R57). -/
def State.addressFault (s : State) (S : SegName) : Fault :=
  if S = .ss then .stackSegment s.operandCode else .generalProtection s.operandCode

/-- `S` in {DS, ES, FS, GS} (20_memory.md R56). -/
def isDataSegment : SegName → Bool
  | .ds | .es | .fs | .gs => true
  | .cs | .ss => false

/-- `NullSegCheck(S)`, in protected and compatibility mode (20_memory.md R56). -/
def State.nullSegCheck (s : State) (S : SegName) : Except Stop Unit :=
  if modeIsProtected s.mode && isDataSegment S && !(s.seg S).valid then raise (.generalProtection (some 0)) else .ok ()

/-- `SegCheck(S, ea, n)`, in every mode but 64-bit mode (20_memory.md R55). -/
def State.segCheck (s : State) (S : SegName) (a : Size) (ea : Addr) (n : Nat) : Except Stop Unit :=
  if s.mode = .long64 then .ok ()
  else if s.segAccessOK S a ea.toNat n then .ok ()
  else raise (s.addressFault S)

/-- Both ends of the operand are canonical and it does not run past the top (20_memory.md R57). -/
def State.canonicalRange (s : State) (lin : Addr) (n : Nat) : Bool :=
  canonical s.params.vaBits lin && canonical s.params.vaBits (lin + BitVec.ofNat 64 (n - 1))
    && decide (lin.toNat + n - 1 < 2 ^ 64)

/-- `CanonCheck(S, lin, n)`, in 64-bit mode (20_memory.md R57). -/
def State.canonCheck (s : State) (S : SegName) (lin : Addr) (n : Nat) : Except Stop Unit :=
  if s.mode = .long64 then
    if s.canonicalRange lin n then .ok () else raise (s.addressFault S)
  else .ok ()

/-- `AlignCheck(lin, w)` (20_memory.md R59). -/
def State.alignmentCheck (s : State) (w : Size) (lin : Addr) : Except Stop Unit :=
  if s.alignmentChecked && !s.farPtrAligned w lin then raise .alignmentCheck else .ok ()

/-- The checks on an operand of `n` bytes before its bytes are touched, in the order of 60_exceptions.md R175 (lines 2
and 3), and its linear address (20_memory.md R60, R61). -/
def State.operandLinear (s : State) (S : SegName) (a : Size) (ea : Addr) (n : Nat) : Except Stop Addr := do
  s.nullSegCheck S
  s.segCheck S a ea n
  s.canonCheck S (s.linearAddress S ea) n
  .ok (s.linearAddress S ea)

/-! ## The reads -/

/-- A page fault ends the instruction with `#PF(code)` (20_memory.md R58). -/
def orPageFault {α : Type} : Except FaultCode α → Except Stop α
  | .ok x => .ok x
  | .error c => raise (.pageFault c)

/-- `MemRead(S, ea, n)`: one little-endian value of `n` bytes (20_memory.md R60). -/
def State.memRead (s : State) (S : SegName) (a : Size) (ea : Addr) (n : Nat) : Except Stop Nat := do
  let lin ← s.operandLinear S a ea n
  let bytes ← orPageFault (s.readRange .dataReadAtCpl lin 0 n)
  .ok (leValue bytes)

/-- The bytes of the two parts of the far pointer at `lin`, read in the order `P_READ_ORDER` names: the offset's
`w/8` bytes at `lin`, the selector's 2 bytes after them (20_memory.md R52, R61; log 17). -/
def State.readParts (s : State) (lin : Addr) (w : Size) : Except FaultCode (List Byte × List Byte) :=
  match s.params.readOrder with
  | .offsetFirst => do
    let off ← s.readRange .dataReadAtCpl lin 0 w.bytes
    let sel ← s.readRange .dataReadAtCpl lin w.bytes 2
    .ok (off, sel)
  | .selectorFirst => do
    let sel ← s.readRange .dataReadAtCpl lin w.bytes 2
    let off ← s.readRange .dataReadAtCpl lin 0 w.bytes
    .ok (off, sel)

/-- `ReadFarPointer(S, ea, w)`: the pair (offset, selector); the offset's `w` bits stand in the low bits of the 64
(20_memory.md R61). -/
def State.readFarPointer (s : State) (S : SegName) (a : Size) (ea : Addr) (w : Size) :
    Except Stop (BitVec 64 × Selector) :=
  if 2 ^ a.bits ≤ ea.toNat + w.farBytes - 1 then refuse .operandWrapsAddressSpace
  else do
    let lin ← s.operandLinear S a ea w.farBytes
    let (off, sel) ← orPageFault (s.readParts lin w)
    s.alignmentCheck w lin
    .ok (BitVec.ofNat 64 (leValue off), BitVec.ofNat 16 (leValue sel))

end Sys2Proof.Machine
end

