-- ==== Sys2Proof/Machine/SegmentLoad.lean ====
section
/-! DEFINITION. Loading a segment register, mode by mode: the descriptor lookup (41_segment_load.md R142, R143) and the
procedures of R144 to R153. -/

namespace Sys2Proof.Machine

/-! ## The descriptor lookup -/

/-- The answer the launch state fixes for a selector, where it fixes one (log 11). -/
def lookupAnswer (sel : Selector) : List (Selector × DescAnswer) → Option DescAnswer
  | [] => none
  | (k, a) :: rest => if k = sel then some a else lookupAnswer sel rest

/-- The linear address of a descriptor-table entry, table base plus 8 times the index (41_segment_load.md R142). -/
def State.entryAddress (s : State) (base : BitVec 64) (sel : Selector) : Addr :=
  s.linearAdd base (8 * selectorIndex sel)

/-- The lookup in a table of this base and limit (41_segment_load.md R142, R143; 20_memory.md R62). A non-canonical entry
address is reported before the limit, as the source's 64-bit arm tests it first (60_exceptions.md R175; log 34). -/
def State.tableFetch (s : State) (base : BitVec 64) (limit : Nat) (sel : Selector) : DescAnswer :=
  if s.mode = .long64 ∧ s.canonicalRange (s.entryAddress base sel) 8 = false then .nonCanonical
  else if limit < 8 * selectorIndex sel + 7 then .outOfLimits
  else
    match s.readRange .descriptorRead (s.entryAddress base sel) 0 8 with
    | .error c => .pageFault c
    | .ok bytes => .desc (Descriptor.ofBits (BitVec.ofNat 64 (leValue bytes)))

/-- The lookup in the global table, or in the local one by the selector's table indicator (41_segment_load.md R142). -/
def State.tablesFetch (s : State) (sel : Selector) : DescAnswer :=
  if tableIndicator sel then
    if s.ldtr.valid then s.tableFetch s.ldtr.base s.ldtr.limit.toNat sel else .outOfLimits
  else s.tableFetch s.gdtr.base s.gdtr.limit.toNat sel

/-- `DescFetch(sel)` (41_segment_load.md R143): the launch state's own answer where it has one, else the tables'.
`NonCanonical` is never answered outside 64-bit mode. -/
def State.descFetch (s : State) (sel : Selector) : DescAnswer :=
  match lookupAnswer sel s.descAnswers with
  | some (.desc d) => .desc d.withBase32
  | some .nonCanonical => if s.mode = .long64 then .nonCanonical else s.tablesFetch sel
  | some a => a
  | none => s.tablesFetch sel

/-! ## The loads -/

/-- `seg[S].sel <- sel ; seg[S].desc <- d ; seg[S].valid <- 1` (41_segment_load.md R146, R147, R149, R151, R154). -/
def State.loadDescriptor (s : State) (S : SegName) (sel : Selector) (d : Descriptor) : State :=
  s.setSeg S ⟨sel, true, d⟩

/-- The NULL load: the selector as read, the valid bit cleared, a free descriptor in the hidden part
(41_segment_load.md R148, R150, R152; log 7). -/
def State.loadNull (s : State) (S : SegName) (sel : Selector) : State :=
  { s.setSeg S ⟨sel, false, Config.freeDescriptor s.draws⟩ with draws := s.draws + 1 }

/-- `LoadSeg_RealV86(S, sel)`: no check; the base is the selector times 16, the other hidden fields stay
(41_segment_load.md R145). -/
def State.loadRealV86 (s : State) (S : SegName) (sel : Selector) : State :=
  s.setSeg S ⟨sel, true, { (s.seg S).desc with base := sel.setWidth 64 * 16 }⟩

/-- The error code of a #GP for a descriptor at a non-canonical address, `P_NONCANON_DESC_ERR`
(41_segment_load.md R149; log 18). -/
def State.nonCanonCode (s : State) (sel : Selector) : BitVec 16 := if s.params.nonCanonErrSel then errSel sel else 0

/-- The checks of a non-NULL selector for SS and the load (41_segment_load.md R146 and R149, which differ by the
non-canonical answer only, never given outside 64-bit mode). The limit and RPL tests come before a page fault, the type
and DPL tests after it, presence last. -/
def State.loadSsDescriptor (s : State) (sel : Selector) : Except Stop State :=
  match s.descFetch sel with
  | .nonCanonical => raise (.generalProtection (some (s.nonCanonCode sel)))
  | .outOfLimits => raise (.generalProtection (some (errSel sel)))
  | .pageFault c =>
    if rpl sel ≠ s.cpl then raise (.generalProtection (some (errSel sel))) else raise (.pageFault c)
  | .desc d =>
    if rpl sel ≠ s.cpl then raise (.generalProtection (some (errSel sel)))
    else if d.isWritableData = false ∨ d.dpl ≠ s.cpl then raise (.generalProtection (some (errSel sel)))
    else if d.p = false then raise (.stackSegment (some (errSel sel)))
    else .ok (s.loadDescriptor .ss sel d)

/-- The privilege test of a data segment register: the descriptor is data or nonconforming code, and RPL or CPL exceeds
its DPL (41_segment_load.md R147, R151; 90 C3). -/
def privilegeViolation (cpl : Level) (sel : Selector) (d : Descriptor) : Bool :=
  (d.isData || d.isNonconformingCode) && (decide (d.dpl < rpl sel) || decide (d.dpl < cpl))

/-- The checks of a non-NULL selector for DS, ES, FS or GS and the load (41_segment_load.md R147 and R151, which differ by
the non-canonical answer only). -/
def State.loadDataDescriptor (s : State) (S : SegName) (sel : Selector) : Except Stop State :=
  match s.descFetch sel with
  | .nonCanonical => raise (.generalProtection (some (errSel sel)))
  | .outOfLimits => raise (.generalProtection (some (errSel sel)))
  | .pageFault c => raise (.pageFault c)
  | .desc d =>
    if (d.isData || d.isReadableCode) = false then raise (.generalProtection (some (errSel sel)))
    else if privilegeViolation s.cpl sel d then raise (.generalProtection (some (errSel sel)))
    else if d.p = false then raise (.segmentNotPresent (errSel sel))
    else .ok (s.loadDescriptor S sel d)

/-- `LoadSS_Prot(sel)` (41_segment_load.md R146). -/
def State.loadSsProt (s : State) (sel : Selector) : Except Stop State :=
  if isNull sel then raise (.generalProtection (some 0)) else s.loadSsDescriptor sel

/-- `LoadSS_Null_64(sel)` (41_segment_load.md R150). -/
def State.loadSsNull64 (s : State) (sel : Selector) : Except Stop State :=
  if rpl sel = 3 ∨ rpl sel ≠ s.cpl then raise (.generalProtection (some 0)) else .ok (s.loadNull .ss sel)

/-- The data segment register load of protected, compatibility and 64-bit mode: a NULL selector is loaded without a check
(41_segment_load.md R148, R152), any other after its checks (R147, R151). -/
def State.loadData (s : State) (S : SegName) (sel : Selector) : Except Stop State :=
  if isNull sel then .ok (s.loadNull S sel) else s.loadDataDescriptor S sel

/-- `LoadSegment(S, sel)` (41_segment_load.md R144). -/
def State.loadSegment (s : State) (S : LoadSeg) (sel : Selector) : Except Stop State :=
  match s.mode with
  | .real | .v86 => .ok (s.loadRealV86 S.name sel)
  | .prot | .compat =>
    match S with
    | .ss => s.loadSsProt sel
    | .ds | .es | .fs | .gs => s.loadData S.name sel
  | .long64 =>
    match S with
    | .ss => if isNull sel then s.loadSsNull64 sel else s.loadSsDescriptor sel
    | .fs | .gs => s.loadData S.name sel
    | .ds | .es => raise .undefinedOpcode

end Sys2Proof.Machine
end

