-- ==== Sys2Proof/Machine/FaultOrder.lean ====
section
/-! DEFINITION. Which exception is reported where several apply (`P_FAULT_ORDER`; 60_exceptions.md R175; 92 D11; log 16). -/

namespace Sys2Proof.Machine

/-- The exception a check raises, if it raises one. -/
def faultOf {α : Type} : Except Stop α → List Fault
  | .error (.exception f) => [f]
  | .error (.refusal _) | .ok _ => []

/-- The page faults of the bytes at `lin` to `lin + n - 1` (20_memory.md R58, R61). -/
def State.bytePageFaults (s : State) (lin : Addr) (n : Nat) : List Fault :=
  (List.range n).flatMap fun k =>
    match s.translate .dataReadAtCpl (s.linearAdd lin k) with
    | .pageFault c => [.pageFault c]
    | .phys _ => []

/-- The page fault of the read of a descriptor, where one is read (41_segment_load.md R143, R146 to R152). -/
def State.descriptorPageFault (s : State) (sel : Selector) : List Fault :=
  if s.mode = .real ∨ s.mode = .v86 ∨ isNull sel then []
  else
    match s.descFetch sel with
    | .pageFault c => [.pageFault c]
    | .outOfLimits | .nonCanonical | .desc _ => []

/-- The exceptions the selector checks have a condition for: the one their own order reports, which the source fixes, and a
page fault on the descriptor, whose place in that order is the spec's decision (60_exceptions.md R175). -/
def State.selectorFaults (s : State) (S : LoadSeg) (sel : Selector) : List Fault :=
  faultOf (s.loadSegment S sel) ++ s.descriptorPageFault sel

/-- Every exception whose condition holds, for an operand of offset width `w` at `ea` through segment register `A` and a
load of `S` (60_exceptions.md R175 lines 2 to 6): the operand's checks, each on its own; the selector's, where its two bytes
are mapped. #UD is not among them: an instruction that is not valid is never executed. -/
def State.applicableFaults (s : State) (S : LoadSeg) (A : SegName) (a : Size) (ea : Addr) (w : Size) : List Fault :=
  let lin := s.linearAddress A ea
  faultOf (s.nullSegCheck A) ++ (faultOf (s.segCheck A a ea w.farBytes) ++ (faultOf (s.canonCheck A lin w.farBytes) ++
    (s.bytePageFaults lin w.farBytes ++ (faultOf (s.alignmentCheck w lin) ++
      match s.readRange .dataReadAtCpl lin w.bytes 2 with
      | .ok bytes => s.selectorFaults S (BitVec.ofNat 16 (leValue bytes))
      | .error _ => []))))

/-- The exception reported: the first in the fixed order of 60_exceptions.md R175, `f`, or a free choice among the applicable
ones (log 16). -/
def State.reportedFault (s : State) (faults : List Fault) (f : Fault) : Fault :=
  match s.params.faultOrder with
  | .fixed => f
  | .anyApplicable => faults.getD (Config.freeChoice s.draws % faults.length) f

/-- A result whose exception, if it is one, is the one to report. -/
def State.report (s : State) (faults : List Fault) : Except Stop State → Except Stop State
  | .error (.exception f) => raise (s.reportedFault faults f)
  | .error (.refusal r) => refuse r
  | .ok t => .ok t

end Sys2Proof.Machine
end

