-- ==== Sys2Proof/Machine/LoadFarPointer.lean ====
section
/-! DEFINITION. The thirteen forms (40_load_far_pointer.md R111 to R123), each one line over the shared operation
`LFP(S, w)` of R110. -/

namespace Sys2Proof.Machine

/-- `LFP(S, w)` (40_load_far_pointer.md R110): #UD where the form does not exist (step 1), the operand's address (step 2),
the far pointer (step 3), the segment register (step 4), the general register (step 5), `pc` (step 6). Where steps 3 and 4
raise an exception, the one reported is chosen as `P_FAULT_ORDER` says. A 64-bit form outside 64-bit mode, which no decoder
gives, is refused (log 30). -/
def loadFarPointer (S : LoadSeg) (w : Size) (o : Operands) (s : State) : Except Stop State :=
  if o.hasLock || (S.isDsEs && s.mode == .long64) then raise .undefinedOpcode
  else if w = .s64 ∧ s.mode ≠ .long64 then refuse .notEncodable
  else
    let a := addressSize s.env o.pre
    let len := formLength S o
    let A := operandSegment s.mode a o
    let ea := s.effectiveAddress a o len
    s.report (s.applicableFaults S A a ea w) do
      let (off, sel) ← s.readFarPointer A a ea w
      let t ← s.loadSegment S sel
      .ok ((t.writeReg w o.dst off).advance len)

/-- `LDS r16,m16:16` (R111). -/
def execLds16 (o : Operands) (s : State) : Host.Outcome State Fault Refusal := outcome (loadFarPointer .ds .s16 o s)

/-- `LDS r32,m16:32` (R112). -/
def execLds32 (o : Operands) (s : State) : Host.Outcome State Fault Refusal := outcome (loadFarPointer .ds .s32 o s)

/-- `LSS r16,m16:16` (R113). -/
def execLss16 (o : Operands) (s : State) : Host.Outcome State Fault Refusal := outcome (loadFarPointer .ss .s16 o s)

/-- `LSS r32,m16:32` (R114). -/
def execLss32 (o : Operands) (s : State) : Host.Outcome State Fault Refusal := outcome (loadFarPointer .ss .s32 o s)

/-- `LSS r64,m16:64` (R115). -/
def execLss64 (o : Operands) (s : State) : Host.Outcome State Fault Refusal := outcome (loadFarPointer .ss .s64 o s)

/-- `LES r16,m16:16` (R116). -/
def execLes16 (o : Operands) (s : State) : Host.Outcome State Fault Refusal := outcome (loadFarPointer .es .s16 o s)

/-- `LES r32,m16:32` (R117). -/
def execLes32 (o : Operands) (s : State) : Host.Outcome State Fault Refusal := outcome (loadFarPointer .es .s32 o s)

/-- `LFS r16,m16:16` (R118). -/
def execLfs16 (o : Operands) (s : State) : Host.Outcome State Fault Refusal := outcome (loadFarPointer .fs .s16 o s)

/-- `LFS r32,m16:32` (R119). -/
def execLfs32 (o : Operands) (s : State) : Host.Outcome State Fault Refusal := outcome (loadFarPointer .fs .s32 o s)

/-- `LFS r64,m16:64` (R120). -/
def execLfs64 (o : Operands) (s : State) : Host.Outcome State Fault Refusal := outcome (loadFarPointer .fs .s64 o s)

/-- `LGS r16,m16:16` (R121). -/
def execLgs16 (o : Operands) (s : State) : Host.Outcome State Fault Refusal := outcome (loadFarPointer .gs .s16 o s)

/-- `LGS r32,m16:32` (R122). -/
def execLgs32 (o : Operands) (s : State) : Host.Outcome State Fault Refusal := outcome (loadFarPointer .gs .s32 o s)

/-- `LGS r64,m16:64` (R123). -/
def execLgs64 (o : Operands) (s : State) : Host.Outcome State Fault Refusal := outcome (loadFarPointer .gs .s64 o s)

end Sys2Proof.Machine
end

