-- ==== Sys2Proof/Machine/Dispatch.lean ====
section
/-! DEFINITION. One arm per constructor of `Instr`. -/

namespace Sys2Proof.Machine

/-- The outcome of executing one instruction (00_scope.md R11). -/
def exec (i : Instr) (s : State) : Host.Outcome State Fault Refusal :=
  match i with
  | .lds16 o => Sys2Proof.Machine.execLds16 o s
  | .lds32 o => Sys2Proof.Machine.execLds32 o s
  | .lss16 o => Sys2Proof.Machine.execLss16 o s
  | .lss32 o => Sys2Proof.Machine.execLss32 o s
  | .lss64 o => Sys2Proof.Machine.execLss64 o s
  | .les16 o => Sys2Proof.Machine.execLes16 o s
  | .les32 o => Sys2Proof.Machine.execLes32 o s
  | .lfs16 o => Sys2Proof.Machine.execLfs16 o s
  | .lfs32 o => Sys2Proof.Machine.execLfs32 o s
  | .lfs64 o => Sys2Proof.Machine.execLfs64 o s
  | .lgs16 o => Sys2Proof.Machine.execLgs16 o s
  | .lgs32 o => Sys2Proof.Machine.execLgs32 o s
  | .lgs64 o => Sys2Proof.Machine.execLgs64 o s

end Sys2Proof.Machine
end

