-- ==== Sys2Proof/Machine/Fetch.lean ====
section
/-! DEFINITION. Fetching an instruction's bytes through CS at `pc` (10_state.md R23, R24; 20_memory.md R69), placing bytes
there, and the outcome of bytes that are no instruction. -/

namespace Sys2Proof.Machine

/-- The linear address of the instruction's first byte (10_state.md R23; 20_memory.md R54). -/
def State.fetchLinear (s : State) : Addr := s.linearAddress .cs (BitVec.ofNat 64 s.codeOffset)

/-- Whether the instruction's byte `i` lies below the top of the address space, inside the code-segment limit and at a
canonical address (10_state.md R24; logs 21, 25). -/
def State.fetchInRange (s : State) (i : Nat) : Bool :=
  decide (s.codeOffset + i < 2 ^ s.codeBits)
    && (if s.mode = .long64 then canonical s.params.vaBits (s.linearAdd s.fetchLinear i)
        else decide (s.codeOffset + i ≤ (s.seg .cs).desc.limit.toNat) && decide (s.fetchLinear.toNat + i < 2 ^ 32))

/-- The physical address of the instruction's byte `i`; none where it cannot be fetched (10_state.md R24). -/
def State.fetchPhys (s : State) (i : Nat) : Option Nat :=
  if s.fetchInRange i then
    match s.translate .codeFetch (s.linearAdd s.fetchLinear i) with
    | .phys p => some p.toNat
    | .pageFault _ => none
  else none

/-- The bytes of the instruction from byte `i` on, at most `n`, up to the first that cannot be fetched. -/
def State.fetchFrom (s : State) : Nat → Nat → List Byte
  | _, 0 => []
  | i, n + 1 =>
    match s.fetchPhys i with
    | some p => Memory.read s.mem p :: s.fetchFrom (i + 1) n
    | none => []

/-- The bytes at `pc`, as many as the longest instruction has (30_encoding.md R96). -/
def State.fetch (s : State) : List Byte := s.fetchFrom 0 maxLength

/-- What a step does where the decoder gives no instruction (30_encoding.md R100): #UD is an exception, the rest are
refusals; bytes that end too soon were cut off by a fetch out of range (10_state.md R24). -/
def decodeStopOutcome : DecodeStop → Host.Outcome State Fault Refusal
  | .undefinedOpcode => outcome (raise .undefinedOpcode)
  | .notInScope => outcome (refuse .notInScope)
  | .prefixForm => outcome (refuse .prefixForm)
  | .vexSpace => outcome (refuse .vexSpace)
  | .outOfBytes => outcome (refuse .fetchOutOfRange)

/-- The state with bytes placed from the instruction's byte `i` on, where they can be fetched from. -/
def State.placeFrom (s : State) : Nat → List Byte → State
  | _, [] => s
  | i, b :: bs =>
    match s.fetchPhys i with
    | some p => { s with mem := Memory.write s.mem p b }.placeFrom (i + 1) bs
    | none => s.placeFrom (i + 1) bs

end Sys2Proof.Machine
end

