-- ==== Sys2Proof/Machine/Step.lean ====
section
/-! DEFINITION. One step: fetch at `pc`, decode, execute (70_reset_and_hazards.md R204). -/

namespace Sys2Proof.Machine

/-- One step of the machine (00_scope.md R11; 70_reset_and_hazards.md R204). -/
def step (s : State) : Host.Outcome State Fault Refusal :=
  match decode s.env s.fetch with
  | .ok (i, _) => exec i s
  | .error e => decodeStopOutcome e

/-- The state with the opcode table's word placed at `pc`, the bytes after it 0 up to the longest instruction (logs 2,
3). -/
def State.withFetchWord (s : State) (nbits w : Nat) : State := s.placeFrom 0 (tableBytes nbits w)

end Sys2Proof.Machine
end

