-- ==== Sys2Proof/WellFormed.lean ====
section
/-! DEFINITION. Which instructions a decoder can give in an environment, each a check of its own (30_encoding.md). -/

namespace Sys2Proof

/-- At most one prefix of each group (30_encoding.md R95). -/
def prefixesOk (o : Operands) : Bool := distinctGroups [] o.pre

/-- No LOCK prefix: with one the decoder gives #UD, not an instruction (30_encoding.md R93). -/
def noLock (o : Operands) : Bool := !o.hasLock

/-- A REX prefix exists only in 64-bit mode (30_encoding.md R86). -/
def rexOk (env : DecodeEnv) (o : Operands) : Bool := o.rex.isNone || env.mode == .long64

/-- The form's width is the operand-size attribute (30_encoding.md R85). -/
def widthOk (env : DecodeEnv) (i : Instr) : Bool :=
  i.width == operandSize env i.operands.pre i.operands.rex

/-- LDS and LES do not exist in 64-bit mode (30_encoding.md R94, R97). -/
def destOk (env : DecodeEnv) (i : Instr) : Bool := !(i.dest.isDsEs && env.mode == .long64)

/-- A SIB byte is there exactly when the addressing form has one (30_encoding.md R89). -/
def sibOk (env : DecodeEnv) (o : Operands) : Bool :=
  o.sib.isSome == needsSib (addressSize env o.pre) o.rm

/-- The displacement has the addressing form's size (30_encoding.md R88, R89, R90). -/
def dispOk (env : DecodeEnv) (o : Operands) : Bool :=
  o.disp.size == dispSize (addressSize env o.pre) o.mod o.rm o.sib

/-- The instruction is one a decoder can give in this environment. -/
def wellFormed (env : DecodeEnv) (i : Instr) : Bool :=
  prefixesOk i.operands && noLock i.operands && rexOk env i.operands && widthOk env i && destOk env i
    && sibOk env i.operands && dispOk env i.operands

end Sys2Proof
end

