-- ==== Sys2Proof/Safety.lean ====
section
/-! DEFINITION. The terms the statements use: a readable operand and the far pointer in it, what an instruction changes and
leaves unchanged, the invariant of the machine's state, and a run to its end. -/

namespace Sys2Proof.Machine

/-! ## The operand of an instruction -/

/-- The address size of an instruction in a state (30_encoding.md R87). -/
def State.operandSize (s : State) (i : Instr) : Size := addressSize s.env i.operands.pre

/-- The segment register the operand is read through (20_memory.md R53). -/
def State.operandSegment (s : State) (i : Instr) : SegName :=
  Machine.operandSegment s.mode (s.operandSize i) i.operands

/-- The effective address of the operand (30_encoding.md R88 to R90). -/
def State.operandEa (s : State) (i : Instr) : Addr := s.effectiveAddress (s.operandSize i) i.operands i.length

/-- The linear address of the operand (20_memory.md R54). -/
def State.operandLin (s : State) (i : Instr) : Addr := s.linearAddress (s.operandSegment i) (s.operandEa i)

/-- The translation of the operand's byte `k` (20_memory.md R58). -/
def State.operandTranslation (s : State) (i : Instr) (k : Nat) : Translation :=
  s.translate .dataReadAtCpl (s.linearAdd (s.operandLin i) k)

/-- The operand's byte `k`, where that byte is mapped (20_memory.md R50, R58, R60). -/
def State.operandByte (s : State) (i : Instr) (k : Nat) : Option Byte :=
  match s.operandTranslation i k with
  | .phys p => some (Memory.read s.mem p.toNat)
  | .pageFault _ => none

/-- The conditions under which a form exists: no LOCK prefix (30_encoding.md R93), not DS or ES in 64-bit mode (R94), not
64 bits wide outside it (R97). -/
abbrev FormExists (s : State) (i : Instr) : Prop :=
  i.operands.hasLock = false ∧ (i.dest.isDsEs = true → s.mode ≠ .long64) ∧ (i.width = .s64 → s.mode = .long64)

/-- The operand does not run past the top of its effective-address space (20_memory.md R61). -/
abbrev OperandFits (s : State) (i : Instr) : Prop :=
  (s.operandEa i).toNat + i.width.farBytes - 1 < 2 ^ (s.operandSize i).bits

/-- The operand is not read through a data segment register that holds a NULL selector in protected or compatibility
mode (20_memory.md R56). -/
abbrev OperandSegmentUsable (s : State) (i : Instr) : Prop :=
  s.mode = .prot ∨ s.mode = .compat → s.operandSegment i ∈ [SegName.ds, .es, .fs, .gs] →
    (s.seg (s.operandSegment i)).valid = true

/-- The operand lies within the segment limit (20_memory.md R55) or, in 64-bit mode, at canonical addresses (R57). -/
abbrev OperandInRange (s : State) (i : Instr) : Prop :=
  (s.mode ≠ .long64 →
    s.segAccessOK (s.operandSegment i) (s.operandSize i) (s.operandEa i).toNat i.width.farBytes = true) ∧
  (s.mode = .long64 → s.canonicalRange (s.operandLin i) i.width.farBytes = true)

/-- Every byte of the operand is mapped (20_memory.md R58). -/
abbrev OperandMapped (s : State) (i : Instr) : Prop :=
  ∀ k < i.width.farBytes, (s.operandByte i k).isSome = true

/-- The operand is aligned where that is checked (20_memory.md R59). -/
abbrev OperandAligned (s : State) (i : Instr) : Prop :=
  s.alignmentChecked = true → s.farPtrAligned i.width (s.operandLin i) = true

/-- The operand of `i` can be read in `s` and holds the far pointer (`off`, `sel`): the offset's `w/8` bytes lowest, then
the selector's two, each little-endian (20_memory.md R51, R52, R61). -/
structure FarPointerAt (s : State) (i : Instr) (off : BitVec 64) (sel : Selector) : Prop where
  fits     : OperandFits s i
  usable   : OperandSegmentUsable s i
  inRange  : OperandInRange s i
  aligned  : OperandAligned s i
  offset   : ∀ k < i.width.bytes, s.operandByte i k = some (off.extractLsb' (8 * k) 8)
  narrow   : off.toNat < 2 ^ i.width.bits
  selector : ∀ k < 2, s.operandByte i (i.width.bytes + k) = some (sel.extractLsb' (8 * k) 8)

/-- The selector of the far pointer at the operand of `i`: its two bytes are mapped and hold `sel` (20_memory.md R52). -/
abbrev SelectorAt (s : State) (i : Instr) (sel : Selector) : Prop :=
  ∀ k < 2, s.operandByte i (i.width.bytes + k) = some (sel.extractLsb' (8 * k) 8)

/-- The exceptions whose condition holds for `i` in `s` (60_exceptions.md R175 lines 2 to 6). -/
def State.applicable (s : State) (i : Instr) : List Fault :=
  s.applicableFaults i.dest (s.operandSegment i) (s.operandSize i) (s.operandEa i) i.width

/-- `i` raises an exception in `s`, and `f` is the first in the fixed order of those whose condition holds: with the fixed
order `f` is reported, else any one of them (60_exceptions.md R175; log 16). -/
structure FaultsAs (s : State) (i : Instr) (f : Fault) : Prop where
  applies : f ∈ s.applicable i
  fixed   : s.params.faultOrder = .fixed → exec i s = .fault f
  any     : s.params.faultOrder = .anyApplicable → ∃ g ∈ s.applicable i, exec i s = .fault g

/-- The displacement bytes of an addressing form with a base register and the value they add, by `mod`: none, one byte
sign-extended, or two (16-bit addressing) or four bytes, little-endian (30_encoding.md R88 to R91). -/
def DispBytes (a : Size) {n : Nat} (m : Mod) (bytes : List Byte) (d : BitVec n) : Prop :=
  match m with
  | .noDisp => bytes = [] ∧ d = 0
  | .disp8 => ∃ b : Byte, bytes = [b] ∧ d = b.signExtend n
  | .dispFull =>
    if a = .s16 then ∃ b0 b1 : Byte, bytes = [b0, b1] ∧ d = (b1 ++ b0).signExtend n
    else ∃ b0 b1 b2 b3 : Byte, bytes = [b0, b1, b2, b3] ∧ d = (b3 ++ b2 ++ b1 ++ b0).signExtend n

/-! ## What an instruction changes -/

/-- Everything but segment register `S`, general register `r`, `pc` and the model's own draw counter is the same
(10_state.md R37). -/
structure Unchanged (s t : State) (S : SegName) (r : Fin 16) : Prop where
  segs       : ∀ S', S' ≠ S → t.seg S' = s.seg S'
  regs       : ∀ r', r' ≠ r → t.reg r' = s.reg r'
  mode       : t.mode = s.mode
  cpl        : t.cpl = s.cpl
  alignCheck : t.alignCheck = s.alignCheck
  opSize     : t.defaultOpSize = s.defaultOpSize
  addrSize   : t.defaultAddrSize = s.defaultAddrSize
  gdtr       : t.gdtr = s.gdtr
  ldtr       : t.ldtr = s.ldtr
  answers    : t.descAnswers = s.descAnswers
  segOk      : t.segAnswers = s.segAnswers
  aligned    : t.alignAnswers = s.alignAnswers
  paging     : t.paging = s.paging
  params     : t.params = s.params
  memory     : ∀ a : Nat, Memory.read t.mem a = Memory.read s.mem a

/-- Register `r` holds `off` written at width `w` (10_state.md R21): 16 bits keep the rest, 32 bits clear bits 63:32 in
64-bit mode and leave them open elsewhere, 64 bits replace all. -/
def RegisterLoaded (s t : State) (w : Size) (r : Fin 16) (off : BitVec 64) : Prop :=
  match w with
  | .s16 => t.x16 r = off.setWidth 16 ∧ (t.x64 r).extractLsb' 16 48 = (s.x64 r).extractLsb' 16 48
  | .s32 => t.x32 r = off.setWidth 32 ∧ (s.mode = .long64 → t.x64 r = (off.setWidth 32).setWidth 64)
  | .s64 => t.x64 r = off

/-- `pc` has moved past `n` bytes, at the width in use (10_state.md R24). -/
def PcAdvanced (s t : State) (n : Nat) : Prop :=
  (s.mode = .long64 → t.pc.toNat = (s.pc.toNat + n) % 2 ^ 64) ∧
  (s.mode ≠ .long64 → s.defaultOpSize = .c32 → t.pc.toNat = (s.pc.toNat + n) % 2 ^ 32) ∧
  (s.mode ≠ .long64 → s.defaultOpSize = .c16 → t.pc.toNat = (s.pc.toNat + n) % 2 ^ 16)

/-- `t` is `s` after `i` has loaded the offset `off`, whatever it did to the one segment register it names: the
destination register, `pc` and the frame (40_load_far_pointer.md R110; 10_state.md R37). -/
structure OffsetLoaded (s t : State) (i : Instr) (off : BitVec 64) : Prop where
  register : RegisterLoaded s t i.width i.operands.dst off
  pc       : PcAdvanced s t i.length
  frame    : Unchanged s t i.dest.name i.operands.dst

/-- `i` completes in `s`, loads `off` and leaves a segment register that `good` accepts. -/
def CompletesWith (s : State) (i : Instr) (off : BitVec 64) (good : SegmentRegister → Prop) : Prop :=
  ∃ t, exec i s = .next t ∧ OffsetLoaded s t i off ∧ good (t.seg i.dest.name)

/-! ## The invariant -/

/-- What a data segment register holds in the modes with descriptors: a NULL selector and no descriptor, or a present
data or readable code segment that the privilege test lets this CPL have (41_segment_load.md R147, R148, R151, R152). -/
def DataSegmentInv (cpl : Level) (r : SegmentRegister) : Prop :=
  (r.valid = false → isNull r.sel = true) ∧
  (r.valid = true →
    isNull r.sel = false ∧ (r.desc.isData || r.desc.isReadableCode) = true ∧ r.desc.p = true ∧
      (r.desc.isData || r.desc.isNonconformingCode → rpl r.sel ≤ r.desc.dpl ∧ cpl ≤ r.desc.dpl) ∧
      r.desc.base.toNat < 2 ^ 32)

/-- What SS holds in the modes with descriptors: a present writable data segment whose RPL and DPL are CPL; in 64-bit
mode below CPL 3 also a NULL selector whose RPL is CPL (41_segment_load.md R146, R149, R150). -/
def StackSegmentInv (s : State) : Prop :=
  ((s.seg .ss).valid = false →
    s.mode = .long64 ∧ s.cpl ≠ 3 ∧ isNull (s.seg .ss).sel = true ∧ rpl (s.seg .ss).sel = s.cpl) ∧
  ((s.seg .ss).valid = true →
    isNull (s.seg .ss).sel = false ∧ (s.seg .ss).desc.isWritableData = true ∧ (s.seg .ss).desc.p = true ∧
      rpl (s.seg .ss).sel = s.cpl ∧ (s.seg .ss).desc.dpl = s.cpl)

/-- What a segment register holds in real-address and virtual-8086 mode: a base of 16 times the selector
(41_segment_load.md R145). -/
def RealSegmentInv (r : SegmentRegister) : Prop :=
  r.valid = true ∧ r.desc.base = r.sel.setWidth 64 * 16

/-- The invariant of the machine's state: memory in canonical form, `pc` within the width in use, and the segment
registers as their mode's loads leave them (10_state.md R24; 41_segment_load.md R145 to R152). -/
structure Inv (s : State) : Prop where
  memory : Memory.wf s.mem = true
  pc     : s.pc.toNat < 2 ^ s.codeBits
  real   : s.mode = .real ∨ s.mode = .v86 → ∀ S : LoadSeg, RealSegmentInv (s.seg S.name)
  data   : s.mode = .prot ∨ s.mode = .compat → ∀ S : LoadSeg, S ≠ .ss → DataSegmentInv s.cpl (s.seg S.name)
  data64 : s.mode = .long64 → ∀ S : LoadSeg, S = .fs ∨ S = .gs → DataSegmentInv s.cpl (s.seg S.name)
  stack  : s.mode = .prot ∨ s.mode = .compat ∨ s.mode = .long64 → StackSegmentInv s

/-! ## A run to its end -/

/-- How a run ends (70_reset_and_hazards.md R204); `running` is a run that has used up its steps. -/
inductive RunEnd where
  | final (s : State)
  | fault (f : Fault) (s : State)
  | refused (r : Refusal) (s : State)
  | running (s : State)
  deriving DecidableEq, Repr

/-- A run of at most `n` steps that stops when the instruction pointer is `P_END`; a fault and a refusal keep the state
before the instruction (70_reset_and_hazards.md R204; log 32). -/
def runTo (pEnd : Nat) : Nat → State → RunEnd
  | 0, s => if s.codeOffset = pEnd then .final s else .running s
  | n + 1, s =>
    if s.codeOffset = pEnd then .final s
    else match step s with
      | .next t => runTo pEnd n t
      | .fault f => .fault f s
      | .refused r => .refused r s

end Sys2Proof.Machine
end

