-- ==== Sys2Proof/Certificates/Slice0/Obligations.lean ====
section
/-! DEFINITION. The statements for the provers. Each docstring names the rules of spec/ it formalises. -/

open Sys2Proof Sys2Proof.Machine

/-! ## Encoding -/

/-- Seven words written out from the spec's encodings decode to the instructions they stand for
(30_encoding.md R81 to R90; 95_test_vectors.md V1.1, V1.5, V1.6, V1.7, V1.8, V1.17, V1.20). -/
def Obligations.SpecWordsDecodeToTheirInstructions : Prop :=
  decode ⟨.real, .c16, .c16, true⟩ [0xC5, 0x37]
      = .ok (.lds16 ⟨[], none, .noDisp, 6, 7, none, .absent⟩, []) ∧
  decode ⟨.prot, .c32, .c32, true⟩ [0x66, 0x0F, 0xB4, 0x15, 0x00, 0x10, 0x00, 0x00]
      = .ok (.lfs16 ⟨[.opSize], none, .noDisp, 2, 5, none, .d32 0x1000⟩, []) ∧
  decode ⟨.prot, .c32, .c32, true⟩ [0x0F, 0xB5, 0x44, 0x24, 0x04]
      = .ok (.lgs32 ⟨[], none, .disp8, 0, 4, some ⟨0, 4, 4⟩, .d8 4⟩, []) ∧
  decode ⟨.prot, .c32, .c32, true⟩ [0x0F, 0xB2, 0x04, 0x8D, 0x00, 0x20, 0x00, 0x00]
      = .ok (.lss32 ⟨[], none, .noDisp, 0, 4, some ⟨2, 1, 5⟩, .d32 0x2000⟩, []) ∧
  decode ⟨.prot, .c32, .c32, true⟩ [0x2E, 0xC4, 0x06]
      = .ok (.les32 ⟨[.segOverride .cs], none, .noDisp, 0, 6, none, .absent⟩, []) ∧
  decode ⟨.long64, .c16, .c16, true⟩ [0x4D, 0x0F, 0xB5, 0x53, 0x10]
      = .ok (.lgs64 ⟨[], some ⟨true, true, false, true⟩, .disp8, 2, 3, none, .d8 0x10⟩, []) ∧
  decode ⟨.long64, .c16, .c16, true⟩ [0x64, 0x48, 0x0F, 0xB2, 0x21]
      = .ok (.lss64 ⟨[.segOverride .fs], some ⟨true, false, false, false⟩, .noDisp, 4, 1, none, .absent⟩, [])

/-- Decoding an encoded well-formed instruction of any form gives it back, with the bytes after it
(30_encoding.md R80 to R101). -/
def Obligations.DecodeOfEncodeIsTheInstruction : Prop :=
  ∀ (env : DecodeEnv) (i : Instr) (rest : List Byte), wellFormed env i = true →
    decode env (encode i ++ rest) = .ok (i, rest)

/-- Every instruction the decoder gives is well formed and its encoding is the bytes it was read from: each byte string
has one meaning (30_encoding.md R80 to R101). -/
def Obligations.DecodedBytesAreTheEncoding : Prop :=
  ∀ (env : DecodeEnv) (bytes rest : List Byte) (i : Instr), decode env bytes = .ok (i, rest) →
    wellFormed env i = true ∧ bytes = encode i ++ rest

/-- The length of a decoded instruction: R96's sum, the bytes it took, from 2 to 13 (30_encoding.md R96). -/
def Obligations.DecodedLengthIsTheSumAndTwoToThirteen : Prop :=
  ∀ (env : DecodeEnv) (bytes rest : List Byte) (i : Instr), decode env bytes = .ok (i, rest) →
    bytes.length = i.length + rest.length ∧ 2 ≤ i.length ∧ i.length ≤ 13 ∧
    i.length = i.operands.pre.length + (if i.operands.rex.isSome then 1 else 0)
      + (if i.dest = .ds ∨ i.dest = .es then 1 else 2) + 1 + (if i.operands.sib.isSome then 1 else 0)
      + (match i.operands.disp with
          | .absent => 0
          | .d8 _ => 1
          | .d16 _ => 2
          | .d32 _ => 4)

/-- The width of a decoded instruction is the operand-size attribute (30_encoding.md R85): in 64-bit mode 64 with
REX.W, else 16 with prefix 66, else 32; in the other modes the default, toggled by prefix 66. How prefix 66 and the
default set it is the spec's decision D8 (log 23). -/
def Obligations.DecodedWidthIsTheOperandSizeAttribute : Prop :=
  ∀ (env : DecodeEnv) (bytes rest : List Byte) (i : Instr), decode env bytes = .ok (i, rest) →
    let has66 := LegacyPrefix.opSize ∈ i.operands.pre
    (env.mode = .long64 →
      ((∃ r, i.operands.rex = some r ∧ r.w = true) → i.width = .s64) ∧
      (¬ (∃ r, i.operands.rex = some r ∧ r.w = true) → has66 → i.width = .s16) ∧
      (¬ (∃ r, i.operands.rex = some r ∧ r.w = true) → ¬ has66 → i.width = .s32)) ∧
    (env.mode ≠ .long64 →
      (env.defaultOp = .c32 → has66 → i.width = .s16) ∧ (env.defaultOp = .c32 → ¬ has66 → i.width = .s32) ∧
      (env.defaultOp = .c16 → has66 → i.width = .s32) ∧ (env.defaultOp = .c16 → ¬ has66 → i.width = .s16))

/-- A form that carries the LOCK prefix is #UD in every mode, whatever its ModRM byte (30_encoding.md R93): of `C4` and
`C5` where those bytes are read as the forms (R94). -/
def Obligations.LockPrefixIsUndefinedOpcode : Prop :=
  ∀ (env : DecodeEnv) (pre : List LegacyPrefix) (rex : Option Rex) (S : LoadSeg) (modrm : Byte) (rest : List Byte),
    distinctGroups [] pre = true → LegacyPrefix.lock ∈ pre → (rex ≠ none → env.mode = .long64) →
    (S = .ds ∨ S = .es → env.vex = false ∨ (env.mode ≠ .long64 ∧ modrm.extractLsb' 6 2 ≠ 3)) →
    decode env (pre.map LegacyPrefix.byte ++ rex.toList.map Rex.byte ++ S.opcode ++ modrm :: rest)
      = .error .undefinedOpcode

/-- A register source, ModRM.mod = 11, is #UD in every mode: for `0F B2`, `0F B4`, `0F B5` always, for `C4` and `C5` where
those bytes are not VEX bytes (30_encoding.md R84). -/
def Obligations.RegisterSourceIsUndefinedOpcode : Prop :=
  ∀ (env : DecodeEnv) (pre : List LegacyPrefix) (rex : Option Rex) (S : LoadSeg) (modrm : Byte) (rest : List Byte),
    distinctGroups [] pre = true → (rex ≠ none → env.mode = .long64) →
    S = .ss ∨ S = .fs ∨ S = .gs ∨ env.vex = false → modrm.extractLsb' 6 2 = 3 →
    decode env (pre.map LegacyPrefix.byte ++ rex.toList.map Rex.byte ++ S.opcode ++ modrm :: rest)
      = .error .undefinedOpcode

/-- `C4` and `C5` in 64-bit mode, and before a byte with bits 7:6 = 11 in any other mode, give the VEX refusal when
`P_VEX` is true and #UD when it is false (30_encoding.md R94). -/
def Obligations.LdsLesBytesInVexSpace : Prop :=
  ∀ (env : DecodeEnv) (pre : List LegacyPrefix) (rex : Option Rex) (S : LoadSeg) (next : Byte) (rest : List Byte),
    distinctGroups [] pre = true → (rex ≠ none → env.mode = .long64) → S = .ds ∨ S = .es →
    env.mode = .long64 ∨ next.extractLsb' 6 2 = 3 →
    (env.vex = true →
      decode env (pre.map LegacyPrefix.byte ++ rex.toList.map Rex.byte ++ S.opcode ++ next :: rest)
        = .error .vexSpace) ∧
    (env.vex = false →
      decode env (pre.map LegacyPrefix.byte ++ rex.toList.map Rex.byte ++ S.opcode ++ next :: rest)
        = .error .undefinedOpcode)

/-- The prefix combinations with no meaning are refused: `F2`, `F3`, a second prefix of a group, and in 64-bit mode a
REX byte before another prefix (`F2` and `F3` among them) or another REX byte (30_encoding.md R95, R101). The refusals are
the spec's decision D27 (log 20). -/
def Obligations.PrefixCombinationsRefused : Prop :=
  ∀ (env : DecodeEnv) (pre : List LegacyPrefix) (rest : List Byte), distinctGroups [] pre = true →
    (∀ b : Byte, b = 0xF2 ∨ b = 0xF3 → decode env (pre.map LegacyPrefix.byte ++ b :: rest) = .error .prefixForm) ∧
    (∀ p q : LegacyPrefix, q ∈ pre → p.group = q.group →
      decode env (pre.map LegacyPrefix.byte ++ p.byte :: rest) = .error .prefixForm) ∧
    (env.mode = .long64 → ∀ (r : Rex) (p : LegacyPrefix),
      decode env (pre.map LegacyPrefix.byte ++ r.byte :: p.byte :: rest) = .error .prefixForm) ∧
    (env.mode = .long64 → ∀ (r : Rex) (b : Byte), b = 0xF2 ∨ b = 0xF3 →
      decode env (pre.map LegacyPrefix.byte ++ r.byte :: b :: rest) = .error .prefixForm) ∧
    (env.mode = .long64 → ∀ r r' : Rex,
      decode env (pre.map LegacyPrefix.byte ++ r.byte :: r'.byte :: rest) = .error .prefixForm)

/-- Every opcode outside the family is refused (30_encoding.md R100), in 64-bit mode after a REX prefix too; outside 64-bit
mode a byte of the REX range is such an opcode, which is why the r64 forms are not encodable there (R97). -/
def Obligations.OtherOpcodesRefused : Prop :=
  ∀ (env : DecodeEnv) (pre : List LegacyPrefix) (rest : List Byte), distinctGroups [] pre = true →
    (∀ b : Byte, b ∉ [0xC4, 0xC5, 0x0F, 0xF0, 0xF2, 0xF3, 0x26, 0x2E, 0x36, 0x3E, 0x64, 0x65, 0x66, 0x67] →
      (env.mode = .long64 → b < 0x40 ∨ 0x4F < b) →
      decode env (pre.map LegacyPrefix.byte ++ b :: rest) = .error .notInScope) ∧
    (∀ c : Byte, c ∉ [0xB2, 0xB4, 0xB5] →
      decode env (pre.map LegacyPrefix.byte ++ 0x0F :: c :: rest) = .error .notInScope) ∧
    (env.mode = .long64 → ∀ (r : Rex) (b : Byte),
      b ∉ [0xC4, 0xC5, 0x0F, 0xF0, 0xF2, 0xF3, 0x26, 0x2E, 0x36, 0x3E, 0x64, 0x65, 0x66, 0x67] → b < 0x40 ∨ 0x4F < b →
      decode env (pre.map LegacyPrefix.byte ++ r.byte :: b :: rest) = .error .notInScope) ∧
    (env.mode = .long64 → ∀ (r : Rex) (c : Byte), c ∉ [0xB2, 0xB4, 0xB5] →
      decode env (pre.map LegacyPrefix.byte ++ r.byte :: 0x0F :: c :: rest) = .error .notInScope) ∧
    (env.mode ≠ .long64 → ∀ r : Rex,
      decode env (pre.map LegacyPrefix.byte ++ r.byte :: rest) = .error .notInScope)

/-! ## Addressing forms, from the bytes -/

/-- The 16-bit addressing table (30_encoding.md R88): from the bytes of an `LFS` with 16-bit addressing, by a 16-bit
default or by prefix 67 over a 32-bit one (R87), the destination register, the operand's segment and its effective address.
The table is the spec's general knowledge (log 23). -/
def Obligations.SixteenBitAddressingTable : Prop :=
  ∀ (s : State) (pre : List Byte) (reg rm : BitVec 3), s.mode ≠ .long64 →
    (s.defaultAddrSize = .c16 ∧ pre = []) ∨ (s.defaultAddrSize = .c32 ∧ pre = [0x67]) →
    let BX := s.x16 3
    let BP := s.x16 5
    let SI := s.x16 6
    let DI := s.x16 7
    let sum : BitVec 16 := [BX + SI, BX + DI, BP + SI, BP + DI, SI, DI, BP, BX].getD rm.toNat 0
    (∀ (m : Mod) (bytes : List Byte) (d : BitVec 16), ¬ (m = .noDisp ∧ rm = 6) → DispBytes .s16 m bytes d →
      ∃ i, decode s.env (pre ++ [0x0F, 0xB4, m.bits ++ reg ++ rm] ++ bytes) = .ok (i, []) ∧ i.dest = .fs ∧
        i.operands.dst.val = reg.toNat ∧ s.operandEa i = (sum + d).setWidth 64 ∧
        s.operandSegment i = (if rm = 2 ∨ rm = 3 ∨ rm = 6 then .ss else .ds)) ∧
    (∀ b0 b1 : Byte,
      ∃ i, decode s.env (pre ++ [0x0F, 0xB4, Mod.noDisp.bits ++ reg ++ 6#3, b0, b1]) = .ok (i, []) ∧ i.dest = .fs ∧
        i.operands.dst.val = reg.toNat ∧ s.operandEa i = (b1 ++ b0).setWidth 64 ∧ s.operandSegment i = .ds)

/-- The 32-bit addressing table and the SIB byte (30_encoding.md R89): from the bytes of an `LSS` with 32-bit
addressing outside 64-bit mode, by a 32-bit default or by prefix 67 over a 16-bit one (R87). The table is the spec's general
knowledge (log 23). -/
def Obligations.ThirtyTwoBitAddressingTable : Prop :=
  ∀ (s : State) (pre : List Byte) (reg rm : BitVec 3), s.mode ≠ .long64 →
    (s.defaultAddrSize = .c32 ∧ pre = []) ∨ (s.defaultAddrSize = .c16 ∧ pre = [0x67]) →
    (∀ (m : Mod) (bytes : List Byte) (d : BitVec 32) (r : Fin 16), rm ≠ 4 → ¬ (m = .noDisp ∧ rm = 5) →
      DispBytes .s32 m bytes d → r.val = rm.toNat →
      ∃ i, decode s.env (pre ++ [0x0F, 0xB2, m.bits ++ reg ++ rm] ++ bytes) = .ok (i, []) ∧ i.dest = .ss ∧
        i.operands.dst.val = reg.toNat ∧ s.operandEa i = (s.x32 r + d).setWidth 64 ∧
        s.operandSegment i = (if rm = 5 then .ss else .ds)) ∧
    (∀ b0 b1 b2 b3 : Byte,
      ∃ i, decode s.env (pre ++ [0x0F, 0xB2, Mod.noDisp.bits ++ reg ++ 5#3, b0, b1, b2, b3]) = .ok (i, []) ∧
        i.operands.dst.val = reg.toNat ∧ s.operandEa i = (b3 ++ b2 ++ b1 ++ b0).setWidth 64 ∧
        s.operandSegment i = .ds) ∧
    (∀ (m : Mod) (scale : BitVec 2) (index base : BitVec 3) (bytes : List Byte) (d : BitVec 32) (x b : Fin 16),
      ¬ (m = .noDisp ∧ base = 5) → DispBytes .s32 m bytes d → x.val = index.toNat → b.val = base.toNat →
      ∃ i, decode s.env (pre ++ [0x0F, 0xB2, m.bits ++ reg ++ 4#3, scale ++ index ++ base] ++ bytes) = .ok (i, []) ∧
        i.operands.dst.val = reg.toNat ∧
        s.operandEa i = (s.x32 b + (if index = 4 then 0 else s.x32 x * BitVec.ofNat 32 (2 ^ scale.toNat)) + d).setWidth 64 ∧
        s.operandSegment i = (if base = 4 ∨ base = 5 then .ss else .ds)) ∧
    (∀ (scale : BitVec 2) (index : BitVec 3) (x : Fin 16) (b0 b1 b2 b3 : Byte), x.val = index.toNat →
      ∃ i, decode s.env (pre ++ [0x0F, 0xB2, Mod.noDisp.bits ++ reg ++ 4#3, scale ++ index ++ 5#3, b0, b1, b2, b3]) = .ok (i, []) ∧
        i.operands.dst.val = reg.toNat ∧
        s.operandEa i = ((if index = 4 then 0 else s.x32 x * BitVec.ofNat 32 (2 ^ scale.toNat))
          + (b3 ++ b2 ++ b1 ++ b0)).setWidth 64 ∧
        s.operandSegment i = .ds)

/-- 64-bit addressing (30_encoding.md R90): from the bytes of an `LGS` with a REX prefix, the registers it extends,
the RIP-relative form, R12 as an index and the base that is none, and which bases select SS. The forms are the spec's
general knowledge (log 23). -/
def Obligations.SixtyFourBitAddressing : Prop :=
  ∀ (s : State) (rex : Rex) (reg rm : BitVec 3), s.mode = .long64 →
    let up (bit : Bool) (f : BitVec 3) : Nat := (if bit then 8 else 0) + f.toNat
    (∀ (m : Mod) (bytes : List Byte) (d : BitVec 64) (r : Fin 16), rm ≠ 4 → ¬ (m = .noDisp ∧ rm = 5) →
      DispBytes .s64 m bytes d → r.val = up rex.b rm →
      ∃ i, decode s.env ([rex.byte, 0x0F, 0xB5, m.bits ++ reg ++ rm] ++ bytes) = .ok (i, []) ∧ i.dest = .gs ∧
        i.operands.dst.val = up rex.r reg ∧ s.operandEa i = s.x64 r + d ∧
        s.operandSegment i = (if r = 5 then .ss else .ds)) ∧
    (∀ b0 b1 b2 b3 : Byte,
      ∃ i, decode s.env [rex.byte, 0x0F, 0xB5, Mod.noDisp.bits ++ reg ++ 5#3, b0, b1, b2, b3] = .ok (i, []) ∧
        i.operands.dst.val = up rex.r reg ∧ s.operandEa i = s.pc + 8 + (b3 ++ b2 ++ b1 ++ b0).signExtend 64 ∧
        s.operandSegment i = .ds) ∧
    (∀ (m : Mod) (scale : BitVec 2) (index base : BitVec 3) (bytes : List Byte) (d : BitVec 64) (x b : Fin 16),
      ¬ (m = .noDisp ∧ base = 5) → DispBytes .s64 m bytes d → x.val = up rex.x index → b.val = up rex.b base →
      ∃ i, decode s.env ([rex.byte, 0x0F, 0xB5, m.bits ++ reg ++ 4#3, scale ++ index ++ base] ++ bytes) = .ok (i, []) ∧
        i.operands.dst.val = up rex.r reg ∧
        s.operandEa i = s.x64 b + (if x = 4 then 0 else s.x64 x * BitVec.ofNat 64 (2 ^ scale.toNat)) + d ∧
        s.operandSegment i = (if b = 4 ∨ b = 5 then .ss else .ds)) ∧
    (∀ (scale : BitVec 2) (index : BitVec 3) (x : Fin 16) (b0 b1 b2 b3 : Byte), x.val = up rex.x index →
      ∃ i, decode s.env [rex.byte, 0x0F, 0xB5, Mod.noDisp.bits ++ reg ++ 4#3, scale ++ index ++ 5#3, b0, b1, b2, b3]
          = .ok (i, []) ∧
        i.operands.dst.val = up rex.r reg ∧
        s.operandEa i = (if x = 4 then 0 else s.x64 x * BitVec.ofNat 64 (2 ^ scale.toNat))
          + (b3 ++ b2 ++ b1 ++ b0).signExtend 64 ∧
        s.operandSegment i = .ds)

/-- 64-bit mode with prefix 67 (30_encoding.md R90): the 32-bit views, the sum modulo 2^32, zero-extended; the
RIP-relative form with the low 32 bits of the next instruction's address. The forms are the spec's general knowledge
(log 23). -/
def Obligations.ThirtyTwoBitAddressingInSixtyFourBitMode : Prop :=
  ∀ (s : State) (rex : Rex) (reg rm : BitVec 3), s.mode = .long64 →
    (∀ (m : Mod) (bytes : List Byte) (d : BitVec 32) (r : Fin 16), rm ≠ 4 → ¬ (m = .noDisp ∧ rm = 5) →
      DispBytes .s32 m bytes d → r.val = (if rex.b then 8 else 0) + rm.toNat →
      ∃ i, decode s.env ([0x67, rex.byte, 0x0F, 0xB5, m.bits ++ reg ++ rm] ++ bytes) = .ok (i, []) ∧
        s.operandEa i = (s.x32 r + d).setWidth 64) ∧
    (∀ (m : Mod) (scale : BitVec 2) (index base : BitVec 3) (bytes : List Byte) (d : BitVec 32) (x b : Fin 16),
      ¬ (m = .noDisp ∧ base = 5) → DispBytes .s32 m bytes d → x.val = (if rex.x then 8 else 0) + index.toNat →
      b.val = (if rex.b then 8 else 0) + base.toNat →
      ∃ i, decode s.env ([0x67, rex.byte, 0x0F, 0xB5, m.bits ++ reg ++ 4#3, scale ++ index ++ base] ++ bytes) = .ok (i, []) ∧
        s.operandEa i = (s.x32 b + (if x = 4 then 0 else s.x32 x * BitVec.ofNat 32 (2 ^ scale.toNat)) + d).setWidth 64) ∧
    (∀ b0 b1 b2 b3 : Byte,
      ∃ i, decode s.env [0x67, rex.byte, 0x0F, 0xB5, Mod.noDisp.bits ++ reg ++ 5#3, b0, b1, b2, b3] = .ok (i, []) ∧
        s.operandEa i = ((s.pc + 9).setWidth 32 + (b3 ++ b2 ++ b1 ++ b0)).setWidth 64)

/-- A segment override names the operand's segment outright; in 64-bit mode only FS and GS do, and the others leave
the default segment (30_encoding.md R92; 20_memory.md R53). The spec's decision D9 (log 23). -/
def Obligations.SegmentOverrideNamesTheOperandSegment : Prop :=
  ∀ (s : State) (i : Instr) (S : SegName), prefixesOk i.operands = true →
    LegacyPrefix.segOverride S ∈ i.operands.pre →
    (s.mode ≠ .long64 ∨ S = .fs ∨ S = .gs → s.operandSegment i = S) ∧
    (s.mode = .long64 → S ≠ .fs → S ≠ .gs → s.operandSegment i = defaultSegment (s.operandSize i) i.operands)

/-- The linear address of an effective address (20_memory.md R54). The spec's decision D20 (log 24). -/
def Obligations.LinearAddressOfEffectiveAddress : Prop :=
  ∀ (s : State) (S : SegName) (ea : Addr),
    (s.mode ≠ .long64 → (s.linearAddress S ea).toNat = ((s.seg S).desc.base.toNat + ea.toNat) % 2 ^ 32) ∧
    (s.mode = .long64 → S = .fs ∨ S = .gs →
      (s.linearAddress S ea).toNat = ((s.seg S).desc.base.toNat + ea.toNat) % 2 ^ 64) ∧
    (s.mode = .long64 → S ∈ [SegName.cs, .ds, .es, .ss] → s.linearAddress S ea = ea)

/-- `MemRead` of 2, 4 or 8 bytes answers the little-endian value of the bytes of memory at the translated addresses
(20_memory.md R51, R60). The byte order is the spec's decision D3 (log 22). -/
def Obligations.MemReadIsLittleEndian : Prop :=
  ∀ (s : State) (S : SegName) (a : Size) (ea : Addr) (n v : Nat), n ∈ [2, 4, 8] → s.memRead S a ea n = .ok v →
    v < 256 ^ n ∧ ∀ k < n, ∃ p : Addr,
      s.translate .dataReadAtCpl (s.linearAdd (s.linearAddress S ea) k) = .phys p ∧
        (Memory.read s.mem p.toNat).toNat = v / 256 ^ k % 256

/-! ## The step -/

/-- When the bytes of a well-formed instruction can be fetched at `pc`, a step is exactly that instruction's execution,
which itself moves `pc` past its bytes (10_state.md R23, R24; 70_reset_and_hazards.md R204). -/
def Obligations.StepRunsTheInstructionAtPc : Prop :=
  ∀ (s : State) (i : Instr), wellFormed s.env i = true →
    (∀ k (hk : k < (encode i).length), ∃ p, s.fetchPhys k = some p ∧ Memory.read s.mem p = (encode i)[k]) →
    step s = exec i s

/-- A step over bytes that are no instruction: #UD where the decoder gives #UD, a refusal by name in every other
case, and `fetchOutOfRange` where the first byte cannot be fetched (30_encoding.md R100; 10_state.md R24). The
refusals are the spec's own device (decision D1), the last of them decision D7 (log 21). -/
def Obligations.StepOverBytesThatAreNoInstruction : Prop :=
  ∀ s : State,
    (decode s.env s.fetch = .error .undefinedOpcode → step s = .fault .undefinedOpcode) ∧
    (decode s.env s.fetch = .error .notInScope → step s = .refused .notInScope) ∧
    (decode s.env s.fetch = .error .prefixForm → step s = .refused .prefixForm) ∧
    (decode s.env s.fetch = .error .vexSpace → step s = .refused .vexSpace) ∧
    (decode s.env s.fetch = .error .outOfBytes → step s = .refused .fetchOutOfRange) ∧
    (s.fetchPhys 0 = none → step s = .refused .fetchOutOfRange)

/-- A byte of the instruction that lies past the top of the code's effective-address space, past the code-segment limit or
at a non-canonical address cannot be fetched, and neither can one on a page that faults (10_state.md R24; log 21). -/
def Obligations.FetchStopsAtTheEdges : Prop :=
  ∀ (s : State) (k : Nat),
    (2 ^ s.codeBits ≤ s.codeOffset + k → s.fetchPhys k = none) ∧
    (s.mode ≠ .long64 → (s.seg .cs).desc.limit.toNat < s.codeOffset + k → s.fetchPhys k = none) ∧
    (s.mode = .long64 → canonical s.params.vaBits (s.pc + BitVec.ofNat 64 k) = false → s.fetchPhys k = none) ∧
    (∀ c, s.translate .codeFetch (s.linearAdd s.fetchLinear k) = .pageFault c → s.fetchPhys k = none)

/-! ## What the instructions do, mode by mode -/

/-- Real-address and virtual-8086 mode: every form that exists there (LDS, LSS, LES, LFS, LGS at 16 and 32 bits)
completes on a readable operand with no check of the selector: the selector is loaded, the base is 16 times it, the
valid bit is set, the other hidden fields stay; the offset goes to the destination register; nothing else changes
(41_segment_load.md R145). The hidden part is the spec's decision D31 (log 28), the layout of the far pointer D4 (log
22). -/
def Obligations.RealAndVirtualModeLoadCompletes : Prop :=
  ∀ (s : State) (o : Operands) (i : Instr) (off : BitVec 64) (sel : Selector),
    i ∈ [.lds16 o, .lds32 o, .lss16 o, .lss32 o, .les16 o, .les32 o, .lfs16 o, .lfs32 o, .lgs16 o, .lgs32 o] →
    s.mode = .real ∨ s.mode = .v86 → o.hasLock = false → FarPointerAt s i off sel →
    CompletesWith s i off (fun r => r.sel = sel ∧ r.valid = true ∧ r.desc.base.toNat = 16 * sel.toNat ∧
      r.desc = { (s.seg i.dest.name).desc with base := r.desc.base })

/-- Protected and compatibility mode, LSS at 16 and 32 bits: every outcome (41_segment_load.md R146). That every
descriptor but writable data faults is the spec's decision D12 (log 26). A wrong RPL and a page fault on the descriptor
together are ordered by decision D11, or not at all, as `P_FAULT_ORDER` says (log 16). -/
def Obligations.ProtectedModeLssOutcomes : Prop :=
  ∀ (s : State) (o : Operands) (i : Instr) (off : BitVec 64) (sel : Selector),
    i ∈ [.lss16 o, .lss32 o] → s.mode = .prot ∨ s.mode = .compat → o.hasLock = false → FarPointerAt s i off sel →
    (isNull sel = true → exec i s = .fault (.generalProtection (some 0))) ∧
    (isNull sel = false → s.descFetch sel = .outOfLimits ∨ rpl sel ≠ s.cpl ∧ (∀ c, s.descFetch sel ≠ .pageFault c) →
      exec i s = .fault (.generalProtection (some (errSel sel)))) ∧
    (∀ c, isNull sel = false → s.descFetch sel = .pageFault c →
      (rpl sel = s.cpl → exec i s = .fault (.pageFault c)) ∧
      (rpl sel ≠ s.cpl →
        (s.params.faultOrder = .fixed → exec i s = .fault (.generalProtection (some (errSel sel)))) ∧
        (s.params.faultOrder = .anyApplicable →
          exec i s = .fault (.generalProtection (some (errSel sel))) ∨ exec i s = .fault (.pageFault c)))) ∧
    (∀ d, isNull sel = false → s.descFetch sel = .desc d → rpl sel = s.cpl →
      (d.kind ≠ .dataRW ∨ d.dpl ≠ s.cpl → exec i s = .fault (.generalProtection (some (errSel sel)))) ∧
      (d.kind = .dataRW → d.dpl = s.cpl → d.p = false → exec i s = .fault (.stackSegment (some (errSel sel)))) ∧
      (d.kind = .dataRW → d.dpl = s.cpl → d.p = true → CompletesWith s i off (fun r => r = ⟨sel, true, d⟩)))

/-- Protected and compatibility mode, LDS, LES, LFS, LGS at 16 and 32 bits with a selector that is not NULL: every outcome
(41_segment_load.md R147). The privilege test is on data and nonconforming code and fails when RPL or CPL exceeds DPL. The
far pointer's layout is log 22's, the error code log 27's, the register write of a completed load log 35's
(40_load_far_pointer.md R110; 10_state.md R21, R37). -/
def Obligations.ProtectedModeDataLoadOutcomes : Prop :=
  ∀ (s : State) (o : Operands) (i : Instr) (off : BitVec 64) (sel : Selector),
    i ∈ [.lds16 o, .lds32 o, .les16 o, .les32 o, .lfs16 o, .lfs32 o, .lgs16 o, .lgs32 o] →
    s.mode = .prot ∨ s.mode = .compat → o.hasLock = false → FarPointerAt s i off sel → isNull sel = false →
    (s.descFetch sel = .outOfLimits → exec i s = .fault (.generalProtection (some (errSel sel)))) ∧
    (∀ c, s.descFetch sel = .pageFault c → exec i s = .fault (.pageFault c)) ∧
    (∀ d, s.descFetch sel = .desc d →
      (d.kind = .codeXNC ∨ d.kind = .codeXC ∨ d.kind = .system →
        exec i s = .fault (.generalProtection (some (errSel sel)))) ∧
      (d.kind = .dataRO ∨ d.kind = .dataRW ∨ d.kind = .codeXRNC → rpl sel > d.dpl ∨ s.cpl > d.dpl →
        exec i s = .fault (.generalProtection (some (errSel sel)))) ∧
      (d.kind = .codeXRC ∨ (d.kind = .dataRO ∨ d.kind = .dataRW ∨ d.kind = .codeXRNC) ∧ rpl sel ≤ d.dpl ∧ s.cpl ≤ d.dpl →
        (d.p = false → exec i s = .fault (.segmentNotPresent (errSel sel))) ∧
        (d.p = true → CompletesWith s i off (fun r => r = ⟨sel, true, d⟩))))

/-- Protected and compatibility mode, LDS, LES, LFS, LGS at 16 and 32 bits with a NULL selector: the load completes
with no descriptor fetched, the selector as read and the valid bit cleared (41_segment_load.md R148). What stands in
the hidden descriptor is open. That the selector is kept as read is the spec's decision D14 (log 26). -/
def Obligations.ProtectedModeNullLoadCompletes : Prop :=
  ∀ (s : State) (o : Operands) (i : Instr) (off : BitVec 64) (sel : Selector),
    i ∈ [.lds16 o, .lds32 o, .les16 o, .les32 o, .lfs16 o, .lfs32 o, .lgs16 o, .lgs32 o] →
    s.mode = .prot ∨ s.mode = .compat → o.hasLock = false → FarPointerAt s i off sel → isNull sel = true →
    CompletesWith s i off (fun r => r.sel = sel ∧ r.valid = false)

/-- 64-bit mode, LSS at 16, 32 and 64 bits with a selector that is not NULL: every outcome (41_segment_load.md R149).
The error code of the first clause is the spec's parameter of decision D15 (log 18); D11 and D12 as in protected
mode. -/
def Obligations.SixtyFourBitModeLssOutcomes : Prop :=
  ∀ (s : State) (o : Operands) (i : Instr) (off : BitVec 64) (sel : Selector),
    i ∈ [.lss16 o, .lss32 o, .lss64 o] → s.mode = .long64 → o.hasLock = false → FarPointerAt s i off sel →
    isNull sel = false →
    (s.descFetch sel = .nonCanonical → exec i s =
      .fault (.generalProtection (some (if s.params.nonCanonErrSel = true then errSel sel else 0)))) ∧
    (s.descFetch sel = .outOfLimits → exec i s = .fault (.generalProtection (some (errSel sel)))) ∧
    (s.descFetch sel ≠ .nonCanonical → (∀ c, s.descFetch sel ≠ .pageFault c) → rpl sel ≠ s.cpl →
      exec i s = .fault (.generalProtection (some (errSel sel)))) ∧
    (∀ c, s.descFetch sel = .pageFault c →
      (rpl sel = s.cpl → exec i s = .fault (.pageFault c)) ∧
      (rpl sel ≠ s.cpl →
        (s.params.faultOrder = .fixed → exec i s = .fault (.generalProtection (some (errSel sel)))) ∧
        (s.params.faultOrder = .anyApplicable →
          exec i s = .fault (.generalProtection (some (errSel sel))) ∨ exec i s = .fault (.pageFault c)))) ∧
    (∀ d, s.descFetch sel = .desc d → rpl sel = s.cpl →
      (d.kind ≠ .dataRW ∨ d.dpl ≠ s.cpl → exec i s = .fault (.generalProtection (some (errSel sel)))) ∧
      (d.kind = .dataRW → d.dpl = s.cpl → d.p = false → exec i s = .fault (.stackSegment (some (errSel sel)))) ∧
      (d.kind = .dataRW → d.dpl = s.cpl → d.p = true → CompletesWith s i off (fun r => r = ⟨sel, true, d⟩)))

/-- 64-bit mode, LSS at 16, 32 and 64 bits with a NULL selector: #GP(0) at CPL 3 or when RPL is not CPL, else the
selector is loaded and the valid bit cleared (41_segment_load.md R150). What the permitted load leaves is the spec's
decision D13 (log 26). -/
def Obligations.SixtyFourBitModeNullLssOutcomes : Prop :=
  ∀ (s : State) (o : Operands) (i : Instr) (off : BitVec 64) (sel : Selector),
    i ∈ [.lss16 o, .lss32 o, .lss64 o] → s.mode = .long64 → o.hasLock = false → FarPointerAt s i off sel →
    isNull sel = true →
    (s.cpl = 3 ∨ rpl sel ≠ s.cpl → exec i s = .fault (.generalProtection (some 0))) ∧
    (s.cpl ≠ 3 → rpl sel = s.cpl → CompletesWith s i off (fun r => r.sel = sel ∧ r.valid = false))

/-- 64-bit mode, LFS and LGS at 16, 32 and 64 bits with a selector that is not NULL: every outcome
(41_segment_load.md R151; the non-canonical clause is the list's, conflict C11). The far pointer's layout is log 22's, the
error code log 27's, the register write of a completed load log 35's (40_load_far_pointer.md R110; 10_state.md R21, R37). -/
def Obligations.SixtyFourBitModeFsGsOutcomes : Prop :=
  ∀ (s : State) (o : Operands) (i : Instr) (off : BitVec 64) (sel : Selector),
    i ∈ [.lfs16 o, .lfs32 o, .lfs64 o, .lgs16 o, .lgs32 o, .lgs64 o] → s.mode = .long64 → o.hasLock = false →
    FarPointerAt s i off sel → isNull sel = false →
    (s.descFetch sel = .nonCanonical ∨ s.descFetch sel = .outOfLimits →
      exec i s = .fault (.generalProtection (some (errSel sel)))) ∧
    (∀ c, s.descFetch sel = .pageFault c → exec i s = .fault (.pageFault c)) ∧
    (∀ d, s.descFetch sel = .desc d →
      (d.kind = .codeXNC ∨ d.kind = .codeXC ∨ d.kind = .system →
        exec i s = .fault (.generalProtection (some (errSel sel)))) ∧
      (d.kind = .dataRO ∨ d.kind = .dataRW ∨ d.kind = .codeXRNC → rpl sel > d.dpl ∨ s.cpl > d.dpl →
        exec i s = .fault (.generalProtection (some (errSel sel)))) ∧
      (d.kind = .codeXRC ∨ (d.kind = .dataRO ∨ d.kind = .dataRW ∨ d.kind = .codeXRNC) ∧ rpl sel ≤ d.dpl ∧ s.cpl ≤ d.dpl →
        (d.p = false → exec i s = .fault (.segmentNotPresent (errSel sel))) ∧
        (d.p = true → CompletesWith s i off (fun r => r = ⟨sel, true, d⟩))))

/-- 64-bit mode, LFS and LGS at 16, 32 and 64 bits with a NULL selector: the load completes, the selector as read and
the valid bit cleared (41_segment_load.md R152). The spec's decision D14 (log 26). -/
def Obligations.SixtyFourBitModeNullFsGsLoadCompletes : Prop :=
  ∀ (s : State) (o : Operands) (i : Instr) (off : BitVec 64) (sel : Selector),
    i ∈ [.lfs16 o, .lfs32 o, .lfs64 o, .lgs16 o, .lgs32 o, .lgs64 o] → s.mode = .long64 → o.hasLock = false →
    FarPointerAt s i off sel → isNull sel = true →
    CompletesWith s i off (fun r => r.sel = sel ∧ r.valid = false)

/-- 64-bit mode: LDS and LES raise #UD (41_segment_load.md R153). -/
def Obligations.SixtyFourBitModeLdsLesUndefined : Prop :=
  ∀ (s : State) (o : Operands), s.mode = .long64 →
    ∀ i ∈ [Instr.lds16 o, .lds32 o, .les16 o, .les32 o], exec i s = .fault .undefinedOpcode

/-- The r64 forms outside 64-bit mode, which cannot be encoded there, are refused. The refusal is the model's choice
(log 30), not a rule of the spec (30_encoding.md R97 attaches no outcome). -/
def Obligations.SixtyFourBitFormsRefusedOutsideSixtyFourBitMode : Prop :=
  ∀ (s : State) (o : Operands), s.mode ≠ .long64 → o.hasLock = false →
    ∀ i ∈ [Instr.lss64 o, .lfs64 o, .lgs64 o], exec i s = .refused .notEncodable

/-! ## The operand's faults, for every form

`FaultsAs s i f` says that `f` is what the fixed order reports and, where `P_FAULT_ORDER` lets any applicable exception be
reported, that one of them is (log 16). -/

/-- A LOCK prefix: #UD for every form (60_exceptions.md R173 row 1). -/
def Obligations.LockedInstructionFaults : Prop :=
  ∀ (s : State) (i : Instr), i.operands.hasLock = true → exec i s = .fault .undefinedOpcode

/-- An operand that runs past the top of its effective-address space is refused, for every form (20_memory.md R61).
The refusal is the spec's own (log 33). -/
def Obligations.WrappingOperandRefused : Prop :=
  ∀ (s : State) (i : Instr), FormExists s i → ¬ OperandFits s i →
    exec i s = .refused .operandWrapsAddressSpace

/-- Protected and compatibility mode: an operand read through DS, ES, FS or GS whose valid bit is clear is #GP(0),
the first in the fixed order (20_memory.md R56). The order is the spec's decision D11 (log 16). -/
def Obligations.NullSegmentOperandFaults : Prop :=
  ∀ (s : State) (i : Instr), FormExists s i → OperandFits s i → s.mode = .prot ∨ s.mode = .compat →
    s.operandSegment i ∈ [SegName.ds, .es, .fs, .gs] → (s.seg (s.operandSegment i)).valid = false →
    FaultsAs s i (.generalProtection (some 0))

/-- Outside 64-bit mode: an operand outside its segment's limit is #SS through SS and #GP through any other segment,
with no error code in real-address mode and error code 0 in the others (20_memory.md R55). What lies inside is the
predicate `segAccessOK` (log 14). -/
def Obligations.OperandOutsideLimitFaults : Prop :=
  ∀ (s : State) (i : Instr), FormExists s i → OperandFits s i → OperandSegmentUsable s i → s.mode ≠ .long64 →
    s.segAccessOK (s.operandSegment i) (s.operandSize i) (s.operandEa i).toNat i.width.farBytes = false →
    (s.operandSegment i = .ss → s.mode = .real → FaultsAs s i (.stackSegment none)) ∧
    (s.operandSegment i = .ss → s.mode ≠ .real → FaultsAs s i (.stackSegment (some 0))) ∧
    (s.operandSegment i ≠ .ss → s.mode = .real → FaultsAs s i (.generalProtection none)) ∧
    (s.operandSegment i ≠ .ss → s.mode ≠ .real → FaultsAs s i (.generalProtection (some 0)))

/-- 64-bit mode: an operand with a non-canonical end, or past the top, is #SS(0) through SS and #GP(0) through any
other segment (20_memory.md R57). The split is the spec's decision D16, the width its parameter (log 15). -/
def Obligations.NonCanonicalOperandFaults : Prop :=
  ∀ (s : State) (i : Instr), FormExists s i → OperandFits s i → s.mode = .long64 →
    canonical s.params.vaBits (s.operandLin i) = false ∨
      canonical s.params.vaBits (s.operandLin i + BitVec.ofNat 64 (i.width.farBytes - 1)) = false ∨
      2 ^ 64 ≤ (s.operandLin i).toNat + i.width.farBytes - 1 →
    (s.operandSegment i = .ss → FaultsAs s i (.stackSegment (some 0))) ∧
    (s.operandSegment i ≠ .ss → FaultsAs s i (.generalProtection (some 0)))

/-- With the default 48 address bits an address is canonical exactly below 2^47 and from 2^64 - 2^47 on
(20_memory.md R57; the 48 is the parameter's default, log 15). -/
def Obligations.CanonicalWithFortyEightBits : Prop :=
  ∀ a : Addr, canonical 48 a = true ↔ (a.toNat < 2 ^ 47 ∨ 2 ^ 64 - 2 ^ 47 ≤ a.toNat)

/-- A byte of the operand on a page that faults: #PF with the code of such a byte, for every form
(20_memory.md R58, R61; which byte, where several fault, is `P_READ_ORDER`'s). -/
def Obligations.UnmappedOperandFaults : Prop :=
  ∀ (s : State) (i : Instr), FormExists s i → OperandFits s i → OperandSegmentUsable s i → OperandInRange s i →
    ¬ OperandMapped s i →
    ∃ k < i.width.farBytes, ∃ c, s.operandTranslation i k = .pageFault c ∧ FaultsAs s i (.pageFault c)

/-- An unaligned operand with alignment checking enabled: #AC(0) in virtual-8086 mode at any CPL and in protected,
compatibility and 64-bit mode at CPL 3 (20_memory.md R59); and #AC arises in no other mode and no other way. What is
unaligned is the predicate `farPtrAligned` (log 13). -/
def Obligations.UnalignedOperandFaults : Prop :=
  ∀ (s : State) (i : Instr), FormExists s i → OperandFits s i →
    let checked := s.mode = .v86 ∨ (s.mode = .prot ∨ s.mode = .compat ∨ s.mode = .long64) ∧ s.cpl = 3
    (OperandSegmentUsable s i → OperandInRange s i → OperandMapped s i → checked → s.alignCheck = true →
      s.farPtrAligned i.width (s.operandLin i) = false → FaultsAs s i .alignmentCheck) ∧
    (exec i s = .fault .alignmentCheck →
      checked ∧ s.alignCheck = true ∧ s.farPtrAligned i.width (s.operandLin i) = false)

/-- The instantiation of the open predicate `SegAccessOK` (20_memory.md R55; log 14): where the launch state lists no answer,
a code segment that is not readable allows nothing; an expand-down data segment allows the addresses above its limit, up to
0xFFFF or 0xFFFFFFFF by its B bit; any other segment allows the addresses up to its limit; and the last byte's address stays
below the address size's top. A listed answer is the predicate's. -/
def Obligations.SegmentLimitComparison : Prop :=
  ∀ (s : State) (S : SegName) (a : Size) (ea n : Nat),
    let d := (s.seg S).desc
    let last := ea + n - 1
    (∀ b, segAnswer S (s.seg S) ea n s.segAnswers = some b → s.segAccessOK S a ea n = b) ∧
    (segAnswer S (s.seg S) ea n s.segAnswers = none →
      (d.kind = .codeXNC ∨ d.kind = .codeXC → s.segAccessOK S a ea n = false) ∧
      (d.kind = .dataRO ∨ d.kind = .dataRW → d.typ.getLsbD 2 = true →
        (s.segAccessOK S a ea n = true ↔ d.limit.toNat < ea ∧ last < 2 ^ a.bits ∧
          (d.db = true → last ≤ 0xFFFFFFFF) ∧ (d.db = false → last ≤ 0xFFFF))) ∧
      ((d.kind = .dataRO ∨ d.kind = .dataRW) ∧ d.typ.getLsbD 2 = false ∨
          d.kind = .codeXRNC ∨ d.kind = .codeXRC ∨ d.kind = .system →
        (s.segAccessOK S a ea n = true ↔ last ≤ d.limit.toNat ∧ last < 2 ^ a.bits)))

/-- The instantiation of the open predicate `FarPtrAligned` (20_memory.md R59; log 13): where the launch state lists no
answer, the linear address is a multiple of the width's unit, which the default parameters make 2, 4 or 8. A listed answer is
the predicate's. -/
def Obligations.FarPointerAlignment : Prop :=
  ∀ (s : State) (w : Size) (lin : Addr),
    (∀ b, alignAnswer w lin s.alignAnswers = some b → s.farPtrAligned w lin = b) ∧
    (alignAnswer w lin s.alignAnswers = none →
      (s.farPtrAligned w lin = true ↔ s.alignUnit w ∣ lin.toNat) ∧
      (s.params = Config.Params.default → s.alignUnit w = w.bytes))

/-- Which exceptions apply to an instruction (60_exceptions.md R175, lines 2 to 6): those of the operand's
segment, limit or canonical form, of each byte's translation, of its alignment, and, where its selector can be read, of the
checks on that selector, a page fault on its descriptor among them. That they may all apply at once is the relation reading
of decision D11 (log 16). -/
def Obligations.ApplicableExceptions : Prop :=
  ∀ (s : State) (i : Instr) (f : Fault),
    f ∈ s.applicable i ↔
      (¬ OperandSegmentUsable s i ∧ f = .generalProtection (some 0)) ∨
      (¬ OperandInRange s i ∧ f = s.addressFault (s.operandSegment i)) ∨
      (∃ k < i.width.farBytes, ∃ c, s.operandTranslation i k = .pageFault c ∧ f = .pageFault c) ∨
      (¬ OperandAligned s i ∧ f = .alignmentCheck) ∨
      (∃ sel, SelectorAt s i sel ∧
        (s.loadSegment i.dest sel = raise f ∨
          ∃ c, s.mode ≠ .real ∧ s.mode ≠ .v86 ∧ isNull sel = false ∧ s.descFetch sel = .pageFault c ∧ f = .pageFault c))

/-- An instruction whose operand fits completes exactly when no exception applies, and what it reports is always one that
applies, in either reading of the order (60_exceptions.md R175: a claim of the form "no fault" is the same under both). -/
def Obligations.ReportedExceptionApplies : Prop :=
  ∀ (s : State) (i : Instr), FormExists s i → OperandFits s i →
    ((∃ t, exec i s = .next t) ↔ s.applicable i = []) ∧ ∀ f, exec i s = .fault f → f ∈ s.applicable i

/-! ## The descriptor lookup -/

/-- A non-canonical descriptor is reported in 64-bit mode only (41_segment_load.md R143). -/
def Obligations.NonCanonicalDescriptorOnlyInSixtyFourBitMode : Prop :=
  ∀ (s : State) (sel : Selector), s.mode ≠ .long64 → s.descFetch sel ≠ .nonCanonical

/-- The lookup in the tables, in every mode, for a selector whose answer the launch state does not list (41_segment_load.md
R142, R143; log 11): the global table by default, the local one by bit 2 of the selector; the eight bytes at base plus 8 times
the index, 64-bit addresses in 64-bit mode and 32-bit ones in the others. Non-canonical, in 64-bit mode only, when the first
or the last of them is not canonical or they run past the top, before the limit is looked at (log 34); out of limits when 8
times the index plus 7 exceeds the limit, or the local table is not valid; a page fault, of the first byte that has one; else
the descriptor. -/
def Obligations.DescriptorLookupInTheTables : Prop :=
  ∀ (s : State) (sel : Selector) (base : BitVec 64) (limit : Nat), lookupAnswer sel s.descAnswers = none →
    (sel.getLsbD 2 = false → base = s.gdtr.base ∧ limit = s.gdtr.limit.toNat) →
    (sel.getLsbD 2 = true → base = s.ldtr.base ∧ limit = s.ldtr.limit.toNat) →
    let top := 2 ^ (if s.mode = .long64 then 64 else 32)
    let entry (k : Nat) : Addr := BitVec.ofNat 64 ((base.toNat + 8 * (sel.toNat / 8) + k) % top)
    let table := sel.getLsbD 2 = true → s.ldtr.valid = true
    let inSpace := s.mode = .long64 → canonical s.params.vaBits (entry 0) = true ∧
      canonical s.params.vaBits (entry 7) = true ∧ (entry 0).toNat + 7 < 2 ^ 64
    (¬ table → s.descFetch sel = .outOfLimits) ∧
    (table → ¬ inSpace → s.descFetch sel = .nonCanonical) ∧
    (table → inSpace → limit < 8 * (sel.toNat / 8) + 7 → s.descFetch sel = .outOfLimits) ∧
    (table → inSpace → 8 * (sel.toNat / 8) + 7 ≤ limit →
      (∀ j < 8, ∀ c, (∀ k < j, ∃ p, s.translate .descriptorRead (entry k) = .phys p) →
        s.translate .descriptorRead (entry j) = .pageFault c → s.descFetch sel = .pageFault c) ∧
      (∀ D : BitVec 64,
        (∀ k < 8, ∃ p : Addr, s.translate .descriptorRead (entry k) = .phys p ∧
          Memory.read s.mem p.toNat = D.extractLsb' (8 * k) 8) →
        s.descFetch sel = .desc (Descriptor.ofBits D)))

/-- The kind, DPL, presence, base and limit of an 8-byte descriptor (41_segment_load.md R142, the mapping to R141).
The layout is the spec's general knowledge (log 11). -/
def Obligations.DescriptorBitsMapToTheRecord : Prop :=
  ∀ D : BitVec 64,
    let d := Descriptor.ofBits D
    (D.getLsbD 44 = false → d.kind = .system) ∧
    (D.getLsbD 44 = true → D.getLsbD 43 = false → D.getLsbD 41 = true → d.kind = .dataRW) ∧
    (D.getLsbD 44 = true → D.getLsbD 43 = false → D.getLsbD 41 = false → d.kind = .dataRO) ∧
    (D.getLsbD 44 = true → D.getLsbD 43 = true → D.getLsbD 42 = false → D.getLsbD 41 = false → d.kind = .codeXNC) ∧
    (D.getLsbD 44 = true → D.getLsbD 43 = true → D.getLsbD 42 = false → D.getLsbD 41 = true → d.kind = .codeXRNC) ∧
    (D.getLsbD 44 = true → D.getLsbD 43 = true → D.getLsbD 42 = true → D.getLsbD 41 = false → d.kind = .codeXC) ∧
    (D.getLsbD 44 = true → D.getLsbD 43 = true → D.getLsbD 42 = true → D.getLsbD 41 = true → d.kind = .codeXRC) ∧
    d.dpl.toNat = D.toNat / 2 ^ 45 % 4 ∧ d.p = D.getLsbD 47 ∧ d.g = D.getLsbD 55 ∧ d.db = D.getLsbD 54 ∧
    d.base.toNat = D.toNat / 2 ^ 56 * 2 ^ 24 + D.toNat / 2 ^ 16 % 2 ^ 24 ∧
    (D.getLsbD 55 = false → d.limit.toNat = D.toNat / 2 ^ 48 % 16 * 2 ^ 16 + D.toNat % 2 ^ 16) ∧
    (D.getLsbD 55 = true →
      d.limit.toNat = (D.toNat / 2 ^ 48 % 16 * 2 ^ 16 + D.toNat % 2 ^ 16) * 4096 + 4095)

/-- A selector is NULL exactly when it is one of 0 to 3, and its RPL is its value modulo 4 (41_segment_load.md R140). -/
def Obligations.NullSelectorsAreZeroToThree : Prop :=
  ∀ sel : Selector, (isNull sel = true ↔ sel = 0 ∨ sel = 1 ∨ sel = 2 ∨ sel = 3) ∧ (rpl sel).toNat = sel.toNat % 4

/-- The selector error code is the selector with bits 1:0 zero (60_exceptions.md R172). The spec's decision D25 (log
27). -/
def Obligations.SelectorErrorCodeClearsRpl : Prop :=
  ∀ sel : Selector, (errSel sel).toNat = sel.toNat / 4 * 4

/-- The vector numbers of the six exceptions (60_exceptions.md R171). The spec's general knowledge; no rule reads
them. -/
def Obligations.ExceptionVectorNumbers : Prop :=
  ∀ (code : Option (BitVec 16)) (e : BitVec 16) (c : FaultCode),
    Fault.vector .undefinedOpcode = 6 ∧ Fault.vector (.segmentNotPresent e) = 11 ∧
    Fault.vector (.stackSegment code) = 12 ∧ Fault.vector (.generalProtection code) = 13 ∧
    Fault.vector (.pageFault c) = 14 ∧ Fault.vector .alignmentCheck = 17

/-! ## Frames and whole-machine rules -/

/-- An instruction that completes changes the one segment register its opcode names, the one general register of
ModRM:reg at its width, and `pc`, and nothing else: no other register, no mode or privilege, no table, no byte of
memory (10_state.md R37). For all thirteen forms. The register's bits beyond the width are the spec's decision D6
(log 35). That no byte of memory changes leaves out the accessed bit the hardware may set in a descriptor table (20_memory.md
R63; log 11, unsafe): a use of it needs the premise that no descriptor-table byte is read, or that every accessed bit is
set. -/
def Obligations.CompletedInstructionFrame : Prop :=
  ∀ (s t : State) (i : Instr), exec i s = .next t → ∃ off, OffsetLoaded s t i off

/-- A step changes no byte of memory, no mode, no privilege level, no alignment-check enable, no default size, no descriptor
table, no paging state, no parameter and not CS (20_memory.md R64; 10_state.md R25, R29 to R33, R37; logs 9, 31). Memory holds
the tables here, and that their bytes stay leaves out the accessed bit the hardware may set (20_memory.md R63; log 11,
unsafe): a use of it needs the premise that no descriptor-table byte is read, or that every accessed bit is set. -/
def Obligations.StepKeepsMemoryModeAndTables : Prop :=
  ∀ s t : State, step s = .next t →
    t.mem = s.mem ∧ t.mode = s.mode ∧ t.cpl = s.cpl ∧ t.alignCheck = s.alignCheck ∧ t.seg .cs = s.seg .cs ∧
    t.defaultOpSize = s.defaultOpSize ∧ t.defaultAddrSize = s.defaultAddrSize ∧ t.gdtr = s.gdtr ∧ t.ldtr = s.ldtr ∧
    t.descAnswers = s.descAnswers ∧ t.segAnswers = s.segAnswers ∧ t.alignAnswers = s.alignAnswers ∧
    t.paging = s.paging ∧ t.params = s.params

/-- Which exceptions an instruction can raise in which mode, and no others: in real-address mode #UD and #GP, #SS without an
error code; in virtual-8086 mode #UD, #GP(0), #SS(0), #PF, #AC(0); in the other modes never one without its error code, a
#SS with a selector only from a load of SS, and #NP only from a load of another register; each code of #GP, #SS and #NP has
bits 1:0 zero (60_exceptions.md R173, R172; the codes are log 27's). -/
def Obligations.ExceptionsOfEachMode : Prop :=
  ∀ (s : State) (i : Instr) (f : Fault), exec i s = .fault f →
    (s.mode = .real → f = .undefinedOpcode ∨ f = .generalProtection none ∨ f = .stackSegment none) ∧
    (s.mode = .v86 → f = .undefinedOpcode ∨ f = .generalProtection (some 0) ∨ f = .stackSegment (some 0) ∨
      (∃ c, f = .pageFault c) ∨ f = .alignmentCheck) ∧
    (s.mode ≠ .real → f ≠ .generalProtection none ∧ f ≠ .stackSegment none) ∧
    (∀ e, f = .generalProtection (some e) → e.toNat % 4 = 0) ∧
    (∀ e, f = .segmentNotPresent e → i.dest ≠ .ss ∧ e.toNat % 4 = 0 ∧ e ≠ 0) ∧
    (∀ e, f = .stackSegment (some e) → e ≠ 0 → i.dest = .ss ∧ e.toNat % 4 = 0)

/-- A step is never refused as an instruction without a meaning or as one that cannot be encoded: the decoder gives no such
instruction (30_encoding.md R97, R100; log 30). -/
def Obligations.StepRunsNoUnencodableInstruction : Prop :=
  ∀ s : State, step s ≠ .refused .notEncodable ∧ ∀ m : String, step s ≠ .refused (.notModelled m)

/-- A completed LSS of a descriptor leaves SS with RPL = CPL = DPL over present writable data, so the privilege level is
as it was (10_state.md R30; 41_segment_load.md R155). -/
def Obligations.LoadedStackSegmentHasCplPrivilege : Prop :=
  ∀ (s t : State) (o : Operands), ∀ i ∈ [Instr.lss16 o, .lss32 o, .lss64 o],
    s.mode ≠ .real → s.mode ≠ .v86 → exec i s = .next t → (t.seg .ss).valid = true →
    rpl (t.seg .ss).sel = s.cpl ∧ (t.seg .ss).desc.dpl = s.cpl ∧ (t.seg .ss).desc.kind = .dataRW ∧
      (t.seg .ss).desc.p = true ∧ t.cpl = s.cpl

/-- Every step keeps the invariant: memory in canonical form, `pc` in its width, and every segment register as the loads
of its mode leave it, so that no instruction lets a program hold a segment its privilege level may not have
(41_segment_load.md R145 to R152; 60_exceptions.md R180). -/
def Obligations.EveryStepKeepsTheInvariant : Prop :=
  ∀ s t : State, Inv s → step s = .next t → Inv t

/-- The invariant holds after reset. The reset values are the model's (log 1). -/
def Obligations.ResetMeetsTheInvariant : Prop := Inv State.reset

/-- The state after reset: real-address mode, CPL 0, CS 0xF000 over base 0xFFFF0000, the instruction pointer 0xFFF0, the
other segments at base 0 with limit 0xFFFF. The spec gives no reset value: these are the model's (log 1, PRESUMED). -/
def Obligations.ResetStateIsTheFamilys : Prop :=
  State.reset.mode = .real ∧ State.reset.cpl = 0 ∧ State.reset.pc = 0xFFF0 ∧
    (State.reset.seg .cs).sel = 0xF000 ∧ (State.reset.seg .cs).desc.base = 0xFFFF0000 ∧
    (∀ S : LoadSeg, (State.reset.seg S.name).sel = 0 ∧ (State.reset.seg S.name).desc.base = 0 ∧
      (State.reset.seg S.name).desc.limit = 0xFFFF) ∧
    (∀ r : Fin 16, State.reset.x64 r = 0) ∧ State.reset.fetchPhys 0 = some 0xFFFFFFF0

/-- No instruction transfers control: `n` completed steps move `pc` on by 2 to 13 bytes each, as long as that stays within
the width in use (40_load_far_pointer.md R124; 30_encoding.md R96). -/
def Obligations.RunAdvancesTwoToThirteenBytesAStep : Prop :=
  ∀ (n : Nat) (s t : State), Host.Core.run Sys2Proof.core n s = .next t → s.codeOffset + 13 * n < 2 ^ s.codeBits →
    s.codeOffset + 2 * n ≤ t.codeOffset ∧ t.codeOffset ≤ s.codeOffset + 13 * n

/-- A run of a program of `k` bytes that is still going after more than `k / 2` steps has run past the program's end:
otherwise it has ended, at `P_END`, in a fault or in a refusal (70_reset_and_hazards.md R204; log 32). -/
def Obligations.RunEndsWithinHalfItsBytes : Prop :=
  ∀ (pEnd n : Nat) (s t : State), s.codeOffset ≤ pEnd → pEnd - s.codeOffset < 2 * n →
    s.codeOffset + 13 * n < 2 ^ s.codeBits → runTo pEnd n s = .running t → pEnd < t.codeOffset

/-- The destination register is never read as data (10_state.md R22): where it takes no part in the operand's address, an
instruction has the same outcome whatever the register held; a 16-bit form, which writes bits 15:0 only (log 35), keeps what
it held in bits 63:16 and differs there alone. -/
def Obligations.DestinationIsNotReadAsData : Prop :=
  ∀ (s : State) (i : Instr) (g : GeneralRegister),
    let s' := s.setReg i.operands.dst g
    s.operandEa i = s'.operandEa i →
    (i.width ≠ .s16 → exec i s' = exec i s) ∧
    (i.width = .s16 →
      (∀ t, exec i s = .next t → exec i s' = .next (t.setReg i.operands.dst
        ⟨g.lo.extractLsb' 16 16 ++ (t.reg i.operands.dst).lo.extractLsb' 0 16, g.hi⟩)) ∧
      (∀ f, exec i s = .fault f → exec i s' = .fault f) ∧ (∀ r, exec i s = .refused r → exec i s' = .refused r))

/-- Nothing of memory but the operand's bytes and the descriptor its selector names can be told from an instruction's
outcome, completion, exception or refusal: with other contents everywhere else it does the same (10_state.md R35;
20_memory.md R60, R62). -/
def Obligations.OnlyOperandAndDescriptorBytesMatter : Prop :=
  ∀ (s : State) (i : Instr) (m : List Host.Cell),
    let s' := { s with mem := m }
    (∀ k < i.width.farBytes, s'.operandByte i k = s.operandByte i k) →
    (∀ sel, SelectorAt s i sel → s'.descFetch sel = s.descFetch sel) →
    (∀ t, exec i s = .next t → exec i s' = .next { t with mem := m }) ∧
    (∀ f, exec i s = .fault f → exec i s' = .fault f) ∧ (∀ r, exec i s = .refused r → exec i s' = .refused r)
end

