-- ==== Sys2Proof/Laws/Memory.lean ====
section
/-! SUPPORT. The laws of memory: a write read back, every other byte kept, the canonical form kept; and little-endian
values. -/

namespace Sys2Proof.Machine

theorem Memory.read_eq_unlisted_of_lt {m : List Host.Cell} {lo a : Nat} (h : Memory.wfFrom lo m = true) (ha : a < lo) :
    Memory.read m a = unlistedByte := by
  induction m generalizing lo with
  | nil => rfl
  | cons c cells ih =>
    obtain ⟨k, v⟩ := c
    simp only [Memory.wfFrom, Bool.and_eq_true, decide_eq_true_eq] at h
    have hk : k ≠ a := by omega
    simp only [Memory.read, if_neg hk]
    exact ih h.2 (by omega)

theorem Memory.read_write_self {m : List Host.Cell} {lo : Nat} (h : Memory.wfFrom lo m = true) (a : Nat) (b : Byte) :
    Memory.read (Memory.write m a b) a = b := by
  induction m generalizing lo with
  | nil => by_cases hb : b = unlistedByte <;> simp [Memory.write, Memory.read, hb]
  | cons c cells ih =>
    obtain ⟨k, v⟩ := c
    simp only [Memory.wfFrom, Bool.and_eq_true, decide_eq_true_eq] at h
    simp only [Memory.write]
    split
    · next hlt =>
      split
      · next hb =>
        have hk : k ≠ a := by omega
        simp only [Memory.read, if_neg hk, hb]
        exact Memory.read_eq_unlisted_of_lt h.2 (by omega)
      · simp [Memory.read]
    · split
      · next heq =>
        split
        · next hb =>
          rw [hb]
          exact Memory.read_eq_unlisted_of_lt h.2 (by omega)
        · simp [Memory.read]
      · next hne =>
        have hk : k ≠ a := fun e => hne e.symm
        simp only [Memory.read, if_neg hk]
        exact ih h.2

theorem Memory.read_write_of_ne (m : List Host.Cell) {a a' : Nat} (b : Byte) (h : a' ≠ a) :
    Memory.read (Memory.write m a b) a' = Memory.read m a' := by
  induction m with
  | nil =>
    simp only [Memory.write]
    split
    · rfl
    · simp [Memory.read, h.symm]
  | cons c cells ih =>
    obtain ⟨k, v⟩ := c
    simp only [Memory.write]
    split
    · split
      · rfl
      · simp [Memory.read, h.symm]
    · split
      · next heq =>
        subst heq
        split
        · simp [Memory.read, h.symm]
        · simp [Memory.read, h.symm]
      · simp only [Memory.read, ih]

theorem Memory.wfFrom_mono {m : List Host.Cell} {lo lo' : Nat} (h : Memory.wfFrom lo m = true) (hle : lo' ≤ lo) :
    Memory.wfFrom lo' m = true := by
  cases m with
  | nil => rfl
  | cons c cells =>
    obtain ⟨k, v⟩ := c
    simp only [Memory.wfFrom, Bool.and_eq_true, decide_eq_true_eq] at h ⊢
    exact ⟨⟨⟨by omega, h.1.1.2⟩, h.1.2⟩, h.2⟩

theorem Memory.wfFrom_write {m : List Host.Cell} {lo a : Nat} (b : Byte) (h : Memory.wfFrom lo m = true) (ha : lo ≤ a)
    (hlt : a < 2 ^ 64) : Memory.wfFrom lo (Memory.write m a b) = true := by
  induction m generalizing lo with
  | nil =>
    simp only [Memory.write]
    split
    · rfl
    · next hb => simp [Memory.wfFrom, ha, hb]; omega
  | cons c cells ih =>
    obtain ⟨k, v⟩ := c
    have h0 := h
    simp only [Memory.wfFrom, Bool.and_eq_true, decide_eq_true_eq] at h
    simp only [Memory.write]
    split
    · next hak =>
      split
      · exact h0
      · next hb =>
        simp only [Memory.wfFrom, Bool.and_eq_true, decide_eq_true_eq, bne_iff_ne, ne_eq]
        exact ⟨⟨⟨ha, hlt⟩, hb⟩, ⟨⟨by omega, h.1.1.2⟩, by simpa using h.1.2⟩, h.2⟩
    · split
      · next heq =>
        subst heq
        split
        · exact Memory.wfFrom_mono h.2 (by omega)
        · next hb =>
          simp only [Memory.wfFrom, Bool.and_eq_true, decide_eq_true_eq, bne_iff_ne, ne_eq]
          exact ⟨⟨⟨ha, hlt⟩, hb⟩, h.2⟩
      · simp only [Memory.wfFrom, Bool.and_eq_true, decide_eq_true_eq]
        exact ⟨h.1, ih h.2 (by omega)⟩

/-- Every write keeps the canonical form. -/
theorem Memory.wf_write {m : List Host.Cell} {a : Nat} (b : Byte) (h : Memory.wf m = true) (hlt : a < 2 ^ 64) :
    Memory.wf (Memory.write m a b) = true :=
  Memory.wfFrom_write b h (Nat.zero_le _) hlt

theorem leValue_lt (bs : List Byte) : leValue bs < 256 ^ bs.length := by
  induction bs with
  | nil => simp [leValue]
  | cons b bs ih =>
    have := b.isLt
    simp only [leValue, List.length_cons, Nat.pow_succ]
    omega

/-- A little-endian list whose bytes are those of a number is that number. -/
theorem leValue_eq_of_bytes (bs : List Byte) (v : Nat) (hv : v < 256 ^ bs.length)
    (h : ∀ k (hk : k < bs.length), bs[k].toNat = v / 256 ^ k % 256) : leValue bs = v := by
  induction bs generalizing v with
  | nil => simp only [List.length_nil, Nat.pow_zero] at hv; simp only [leValue]; omega
  | cons b bs ih =>
    have h0 := h 0 (by simp)
    simp only [List.getElem_cons_zero, Nat.pow_zero, Nat.div_one] at h0
    have hrest : leValue bs = v / 256 := by
      apply ih
      · simp only [List.length_cons, Nat.pow_succ] at hv
        exact Nat.div_lt_of_lt_mul (by omega)
      · intro k hk
        have := h (k + 1) (by simpa using hk)
        simp only [List.getElem_cons_succ] at this
        rw [this, Nat.pow_succ, Nat.mul_comm, ← Nat.div_div_eq_div_mul]
    simp only [leValue, hrest, h0]
    omega

end Sys2Proof.Machine
end

