-- ==== Sys2Proof/Laws/State.lean ====
section
/-! SUPPORT. One lemma per field and update of `State`, each true by `rfl`, so that no later proof unfolds a record
update; and the two register files read back after a write. -/

namespace Sys2Proof.Machine

/-! ### `State.setReg` -/

@[simp] theorem State.setReg_regs (s : State) (i : Fin 16) (r : GeneralRegister) :
    (s.setReg i r).regs = s.regs.set i.val r := rfl

@[simp] theorem State.setReg_pc (s : State) (i : Fin 16) (r : GeneralRegister) :
    (s.setReg i r).pc = s.pc := rfl

@[simp] theorem State.setReg_segs (s : State) (i : Fin 16) (r : GeneralRegister) :
    (s.setReg i r).segs = s.segs := rfl

@[simp] theorem State.setReg_mode (s : State) (i : Fin 16) (r : GeneralRegister) :
    (s.setReg i r).mode = s.mode := rfl

@[simp] theorem State.setReg_cpl (s : State) (i : Fin 16) (r : GeneralRegister) :
    (s.setReg i r).cpl = s.cpl := rfl

@[simp] theorem State.setReg_alignCheck (s : State) (i : Fin 16) (r : GeneralRegister) :
    (s.setReg i r).alignCheck = s.alignCheck := rfl

@[simp] theorem State.setReg_defaultOpSize (s : State) (i : Fin 16) (r : GeneralRegister) :
    (s.setReg i r).defaultOpSize = s.defaultOpSize := rfl

@[simp] theorem State.setReg_defaultAddrSize (s : State) (i : Fin 16) (r : GeneralRegister) :
    (s.setReg i r).defaultAddrSize = s.defaultAddrSize := rfl

@[simp] theorem State.setReg_gdtr (s : State) (i : Fin 16) (r : GeneralRegister) :
    (s.setReg i r).gdtr = s.gdtr := rfl

@[simp] theorem State.setReg_ldtr (s : State) (i : Fin 16) (r : GeneralRegister) :
    (s.setReg i r).ldtr = s.ldtr := rfl

@[simp] theorem State.setReg_descAnswers (s : State) (i : Fin 16) (r : GeneralRegister) :
    (s.setReg i r).descAnswers = s.descAnswers := rfl

@[simp] theorem State.setReg_segAnswers (s : State) (i : Fin 16) (r : GeneralRegister) :
    (s.setReg i r).segAnswers = s.segAnswers := rfl

@[simp] theorem State.setReg_alignAnswers (s : State) (i : Fin 16) (r : GeneralRegister) :
    (s.setReg i r).alignAnswers = s.alignAnswers := rfl

@[simp] theorem State.setReg_paging (s : State) (i : Fin 16) (r : GeneralRegister) :
    (s.setReg i r).paging = s.paging := rfl

@[simp] theorem State.setReg_mem (s : State) (i : Fin 16) (r : GeneralRegister) :
    (s.setReg i r).mem = s.mem := rfl

@[simp] theorem State.setReg_params (s : State) (i : Fin 16) (r : GeneralRegister) :
    (s.setReg i r).params = s.params := rfl

@[simp] theorem State.setReg_draws (s : State) (i : Fin 16) (r : GeneralRegister) :
    (s.setReg i r).draws = s.draws := rfl

/-! ### `State.setSeg` -/

@[simp] theorem State.setSeg_regs (s : State) (S : SegName) (r : SegmentRegister) :
    (s.setSeg S r).regs = s.regs := rfl

@[simp] theorem State.setSeg_pc (s : State) (S : SegName) (r : SegmentRegister) :
    (s.setSeg S r).pc = s.pc := rfl

@[simp] theorem State.setSeg_segs (s : State) (S : SegName) (r : SegmentRegister) :
    (s.setSeg S r).segs = s.segs.set S r := rfl

@[simp] theorem State.setSeg_mode (s : State) (S : SegName) (r : SegmentRegister) :
    (s.setSeg S r).mode = s.mode := rfl

@[simp] theorem State.setSeg_cpl (s : State) (S : SegName) (r : SegmentRegister) :
    (s.setSeg S r).cpl = s.cpl := rfl

@[simp] theorem State.setSeg_alignCheck (s : State) (S : SegName) (r : SegmentRegister) :
    (s.setSeg S r).alignCheck = s.alignCheck := rfl

@[simp] theorem State.setSeg_defaultOpSize (s : State) (S : SegName) (r : SegmentRegister) :
    (s.setSeg S r).defaultOpSize = s.defaultOpSize := rfl

@[simp] theorem State.setSeg_defaultAddrSize (s : State) (S : SegName) (r : SegmentRegister) :
    (s.setSeg S r).defaultAddrSize = s.defaultAddrSize := rfl

@[simp] theorem State.setSeg_gdtr (s : State) (S : SegName) (r : SegmentRegister) :
    (s.setSeg S r).gdtr = s.gdtr := rfl

@[simp] theorem State.setSeg_ldtr (s : State) (S : SegName) (r : SegmentRegister) :
    (s.setSeg S r).ldtr = s.ldtr := rfl

@[simp] theorem State.setSeg_descAnswers (s : State) (S : SegName) (r : SegmentRegister) :
    (s.setSeg S r).descAnswers = s.descAnswers := rfl

@[simp] theorem State.setSeg_segAnswers (s : State) (S : SegName) (r : SegmentRegister) :
    (s.setSeg S r).segAnswers = s.segAnswers := rfl

@[simp] theorem State.setSeg_alignAnswers (s : State) (S : SegName) (r : SegmentRegister) :
    (s.setSeg S r).alignAnswers = s.alignAnswers := rfl

@[simp] theorem State.setSeg_paging (s : State) (S : SegName) (r : SegmentRegister) :
    (s.setSeg S r).paging = s.paging := rfl

@[simp] theorem State.setSeg_mem (s : State) (S : SegName) (r : SegmentRegister) :
    (s.setSeg S r).mem = s.mem := rfl

@[simp] theorem State.setSeg_params (s : State) (S : SegName) (r : SegmentRegister) :
    (s.setSeg S r).params = s.params := rfl

@[simp] theorem State.setSeg_draws (s : State) (S : SegName) (r : SegmentRegister) :
    (s.setSeg S r).draws = s.draws := rfl

/-! ### `State.advance` -/

@[simp] theorem State.advance_regs (s : State) (n : Nat) :
    (s.advance n).regs = s.regs := rfl

@[simp] theorem State.advance_pc (s : State) (n : Nat) :
    (s.advance n).pc = s.nextPc n := rfl

@[simp] theorem State.advance_segs (s : State) (n : Nat) :
    (s.advance n).segs = s.segs := rfl

@[simp] theorem State.advance_mode (s : State) (n : Nat) :
    (s.advance n).mode = s.mode := rfl

@[simp] theorem State.advance_cpl (s : State) (n : Nat) :
    (s.advance n).cpl = s.cpl := rfl

@[simp] theorem State.advance_alignCheck (s : State) (n : Nat) :
    (s.advance n).alignCheck = s.alignCheck := rfl

@[simp] theorem State.advance_defaultOpSize (s : State) (n : Nat) :
    (s.advance n).defaultOpSize = s.defaultOpSize := rfl

@[simp] theorem State.advance_defaultAddrSize (s : State) (n : Nat) :
    (s.advance n).defaultAddrSize = s.defaultAddrSize := rfl

@[simp] theorem State.advance_gdtr (s : State) (n : Nat) :
    (s.advance n).gdtr = s.gdtr := rfl

@[simp] theorem State.advance_ldtr (s : State) (n : Nat) :
    (s.advance n).ldtr = s.ldtr := rfl

@[simp] theorem State.advance_descAnswers (s : State) (n : Nat) :
    (s.advance n).descAnswers = s.descAnswers := rfl

@[simp] theorem State.advance_segAnswers (s : State) (n : Nat) :
    (s.advance n).segAnswers = s.segAnswers := rfl

@[simp] theorem State.advance_alignAnswers (s : State) (n : Nat) :
    (s.advance n).alignAnswers = s.alignAnswers := rfl

@[simp] theorem State.advance_paging (s : State) (n : Nat) :
    (s.advance n).paging = s.paging := rfl

@[simp] theorem State.advance_mem (s : State) (n : Nat) :
    (s.advance n).mem = s.mem := rfl

@[simp] theorem State.advance_params (s : State) (n : Nat) :
    (s.advance n).params = s.params := rfl

@[simp] theorem State.advance_draws (s : State) (n : Nat) :
    (s.advance n).draws = s.draws := rfl

/-! ### `State.loadDescriptor` -/

@[simp] theorem State.loadDescriptor_regs (s : State) (S : SegName) (sel : Selector) (d : Descriptor) :
    (s.loadDescriptor S sel d).regs = s.regs := rfl

@[simp] theorem State.loadDescriptor_pc (s : State) (S : SegName) (sel : Selector) (d : Descriptor) :
    (s.loadDescriptor S sel d).pc = s.pc := rfl

@[simp] theorem State.loadDescriptor_segs (s : State) (S : SegName) (sel : Selector) (d : Descriptor) :
    (s.loadDescriptor S sel d).segs = s.segs.set S ⟨sel, true, d⟩ := rfl

@[simp] theorem State.loadDescriptor_mode (s : State) (S : SegName) (sel : Selector) (d : Descriptor) :
    (s.loadDescriptor S sel d).mode = s.mode := rfl

@[simp] theorem State.loadDescriptor_cpl (s : State) (S : SegName) (sel : Selector) (d : Descriptor) :
    (s.loadDescriptor S sel d).cpl = s.cpl := rfl

@[simp] theorem State.loadDescriptor_alignCheck (s : State) (S : SegName) (sel : Selector) (d : Descriptor) :
    (s.loadDescriptor S sel d).alignCheck = s.alignCheck := rfl

@[simp] theorem State.loadDescriptor_defaultOpSize (s : State) (S : SegName) (sel : Selector) (d : Descriptor) :
    (s.loadDescriptor S sel d).defaultOpSize = s.defaultOpSize := rfl

@[simp] theorem State.loadDescriptor_defaultAddrSize (s : State) (S : SegName) (sel : Selector) (d : Descriptor) :
    (s.loadDescriptor S sel d).defaultAddrSize = s.defaultAddrSize := rfl

@[simp] theorem State.loadDescriptor_gdtr (s : State) (S : SegName) (sel : Selector) (d : Descriptor) :
    (s.loadDescriptor S sel d).gdtr = s.gdtr := rfl

@[simp] theorem State.loadDescriptor_ldtr (s : State) (S : SegName) (sel : Selector) (d : Descriptor) :
    (s.loadDescriptor S sel d).ldtr = s.ldtr := rfl

@[simp] theorem State.loadDescriptor_descAnswers (s : State) (S : SegName) (sel : Selector) (d : Descriptor) :
    (s.loadDescriptor S sel d).descAnswers = s.descAnswers := rfl

@[simp] theorem State.loadDescriptor_segAnswers (s : State) (S : SegName) (sel : Selector) (d : Descriptor) :
    (s.loadDescriptor S sel d).segAnswers = s.segAnswers := rfl

@[simp] theorem State.loadDescriptor_alignAnswers (s : State) (S : SegName) (sel : Selector) (d : Descriptor) :
    (s.loadDescriptor S sel d).alignAnswers = s.alignAnswers := rfl

@[simp] theorem State.loadDescriptor_paging (s : State) (S : SegName) (sel : Selector) (d : Descriptor) :
    (s.loadDescriptor S sel d).paging = s.paging := rfl

@[simp] theorem State.loadDescriptor_mem (s : State) (S : SegName) (sel : Selector) (d : Descriptor) :
    (s.loadDescriptor S sel d).mem = s.mem := rfl

@[simp] theorem State.loadDescriptor_params (s : State) (S : SegName) (sel : Selector) (d : Descriptor) :
    (s.loadDescriptor S sel d).params = s.params := rfl

@[simp] theorem State.loadDescriptor_draws (s : State) (S : SegName) (sel : Selector) (d : Descriptor) :
    (s.loadDescriptor S sel d).draws = s.draws := rfl

/-! ### `State.loadNull` -/

@[simp] theorem State.loadNull_regs (s : State) (S : SegName) (sel : Selector) :
    (s.loadNull S sel).regs = s.regs := rfl

@[simp] theorem State.loadNull_pc (s : State) (S : SegName) (sel : Selector) :
    (s.loadNull S sel).pc = s.pc := rfl

@[simp] theorem State.loadNull_segs (s : State) (S : SegName) (sel : Selector) :
    (s.loadNull S sel).segs = s.segs.set S ⟨sel, false, Config.freeDescriptor s.draws⟩ := rfl

@[simp] theorem State.loadNull_mode (s : State) (S : SegName) (sel : Selector) :
    (s.loadNull S sel).mode = s.mode := rfl

@[simp] theorem State.loadNull_cpl (s : State) (S : SegName) (sel : Selector) :
    (s.loadNull S sel).cpl = s.cpl := rfl

@[simp] theorem State.loadNull_alignCheck (s : State) (S : SegName) (sel : Selector) :
    (s.loadNull S sel).alignCheck = s.alignCheck := rfl

@[simp] theorem State.loadNull_defaultOpSize (s : State) (S : SegName) (sel : Selector) :
    (s.loadNull S sel).defaultOpSize = s.defaultOpSize := rfl

@[simp] theorem State.loadNull_defaultAddrSize (s : State) (S : SegName) (sel : Selector) :
    (s.loadNull S sel).defaultAddrSize = s.defaultAddrSize := rfl

@[simp] theorem State.loadNull_gdtr (s : State) (S : SegName) (sel : Selector) :
    (s.loadNull S sel).gdtr = s.gdtr := rfl

@[simp] theorem State.loadNull_ldtr (s : State) (S : SegName) (sel : Selector) :
    (s.loadNull S sel).ldtr = s.ldtr := rfl

@[simp] theorem State.loadNull_descAnswers (s : State) (S : SegName) (sel : Selector) :
    (s.loadNull S sel).descAnswers = s.descAnswers := rfl

@[simp] theorem State.loadNull_segAnswers (s : State) (S : SegName) (sel : Selector) :
    (s.loadNull S sel).segAnswers = s.segAnswers := rfl

@[simp] theorem State.loadNull_alignAnswers (s : State) (S : SegName) (sel : Selector) :
    (s.loadNull S sel).alignAnswers = s.alignAnswers := rfl

@[simp] theorem State.loadNull_paging (s : State) (S : SegName) (sel : Selector) :
    (s.loadNull S sel).paging = s.paging := rfl

@[simp] theorem State.loadNull_mem (s : State) (S : SegName) (sel : Selector) :
    (s.loadNull S sel).mem = s.mem := rfl

@[simp] theorem State.loadNull_params (s : State) (S : SegName) (sel : Selector) :
    (s.loadNull S sel).params = s.params := rfl

@[simp] theorem State.loadNull_draws (s : State) (S : SegName) (sel : Selector) :
    (s.loadNull S sel).draws = s.draws + 1 := rfl

/-! ### `State.loadRealV86` -/

@[simp] theorem State.loadRealV86_regs (s : State) (S : SegName) (sel : Selector) :
    (s.loadRealV86 S sel).regs = s.regs := rfl

@[simp] theorem State.loadRealV86_pc (s : State) (S : SegName) (sel : Selector) :
    (s.loadRealV86 S sel).pc = s.pc := rfl

@[simp] theorem State.loadRealV86_segs (s : State) (S : SegName) (sel : Selector) :
    (s.loadRealV86 S sel).segs = s.segs.set S ⟨sel, true, { (s.seg S).desc with base := sel.setWidth 64 * 16 }⟩ := rfl

@[simp] theorem State.loadRealV86_mode (s : State) (S : SegName) (sel : Selector) :
    (s.loadRealV86 S sel).mode = s.mode := rfl

@[simp] theorem State.loadRealV86_cpl (s : State) (S : SegName) (sel : Selector) :
    (s.loadRealV86 S sel).cpl = s.cpl := rfl

@[simp] theorem State.loadRealV86_alignCheck (s : State) (S : SegName) (sel : Selector) :
    (s.loadRealV86 S sel).alignCheck = s.alignCheck := rfl

@[simp] theorem State.loadRealV86_defaultOpSize (s : State) (S : SegName) (sel : Selector) :
    (s.loadRealV86 S sel).defaultOpSize = s.defaultOpSize := rfl

@[simp] theorem State.loadRealV86_defaultAddrSize (s : State) (S : SegName) (sel : Selector) :
    (s.loadRealV86 S sel).defaultAddrSize = s.defaultAddrSize := rfl

@[simp] theorem State.loadRealV86_gdtr (s : State) (S : SegName) (sel : Selector) :
    (s.loadRealV86 S sel).gdtr = s.gdtr := rfl

@[simp] theorem State.loadRealV86_ldtr (s : State) (S : SegName) (sel : Selector) :
    (s.loadRealV86 S sel).ldtr = s.ldtr := rfl

@[simp] theorem State.loadRealV86_descAnswers (s : State) (S : SegName) (sel : Selector) :
    (s.loadRealV86 S sel).descAnswers = s.descAnswers := rfl

@[simp] theorem State.loadRealV86_segAnswers (s : State) (S : SegName) (sel : Selector) :
    (s.loadRealV86 S sel).segAnswers = s.segAnswers := rfl

@[simp] theorem State.loadRealV86_alignAnswers (s : State) (S : SegName) (sel : Selector) :
    (s.loadRealV86 S sel).alignAnswers = s.alignAnswers := rfl

@[simp] theorem State.loadRealV86_paging (s : State) (S : SegName) (sel : Selector) :
    (s.loadRealV86 S sel).paging = s.paging := rfl

@[simp] theorem State.loadRealV86_mem (s : State) (S : SegName) (sel : Selector) :
    (s.loadRealV86 S sel).mem = s.mem := rfl

@[simp] theorem State.loadRealV86_params (s : State) (S : SegName) (sel : Selector) :
    (s.loadRealV86 S sel).params = s.params := rfl

@[simp] theorem State.loadRealV86_draws (s : State) (S : SegName) (sel : Selector) :
    (s.loadRealV86 S sel).draws = s.draws := rfl

/-! ### `State.writeReg` -/

@[simp] theorem State.writeReg_pc (s : State) (w : Size) (i : Fin 16) (v : BitVec 64) :
    (s.writeReg w i v).pc = s.pc := by
  cases w <;> simp only [State.writeReg] <;> first | rfl | (split <;> rfl)

@[simp] theorem State.writeReg_segs (s : State) (w : Size) (i : Fin 16) (v : BitVec 64) :
    (s.writeReg w i v).segs = s.segs := by
  cases w <;> simp only [State.writeReg] <;> first | rfl | (split <;> rfl)

@[simp] theorem State.writeReg_mode (s : State) (w : Size) (i : Fin 16) (v : BitVec 64) :
    (s.writeReg w i v).mode = s.mode := by
  cases w <;> simp only [State.writeReg] <;> first | rfl | (split <;> rfl)

@[simp] theorem State.writeReg_cpl (s : State) (w : Size) (i : Fin 16) (v : BitVec 64) :
    (s.writeReg w i v).cpl = s.cpl := by
  cases w <;> simp only [State.writeReg] <;> first | rfl | (split <;> rfl)

@[simp] theorem State.writeReg_alignCheck (s : State) (w : Size) (i : Fin 16) (v : BitVec 64) :
    (s.writeReg w i v).alignCheck = s.alignCheck := by
  cases w <;> simp only [State.writeReg] <;> first | rfl | (split <;> rfl)

@[simp] theorem State.writeReg_defaultOpSize (s : State) (w : Size) (i : Fin 16) (v : BitVec 64) :
    (s.writeReg w i v).defaultOpSize = s.defaultOpSize := by
  cases w <;> simp only [State.writeReg] <;> first | rfl | (split <;> rfl)

@[simp] theorem State.writeReg_defaultAddrSize (s : State) (w : Size) (i : Fin 16) (v : BitVec 64) :
    (s.writeReg w i v).defaultAddrSize = s.defaultAddrSize := by
  cases w <;> simp only [State.writeReg] <;> first | rfl | (split <;> rfl)

@[simp] theorem State.writeReg_gdtr (s : State) (w : Size) (i : Fin 16) (v : BitVec 64) :
    (s.writeReg w i v).gdtr = s.gdtr := by
  cases w <;> simp only [State.writeReg] <;> first | rfl | (split <;> rfl)

@[simp] theorem State.writeReg_ldtr (s : State) (w : Size) (i : Fin 16) (v : BitVec 64) :
    (s.writeReg w i v).ldtr = s.ldtr := by
  cases w <;> simp only [State.writeReg] <;> first | rfl | (split <;> rfl)

@[simp] theorem State.writeReg_descAnswers (s : State) (w : Size) (i : Fin 16) (v : BitVec 64) :
    (s.writeReg w i v).descAnswers = s.descAnswers := by
  cases w <;> simp only [State.writeReg] <;> first | rfl | (split <;> rfl)

@[simp] theorem State.writeReg_segAnswers (s : State) (w : Size) (i : Fin 16) (v : BitVec 64) :
    (s.writeReg w i v).segAnswers = s.segAnswers := by
  cases w <;> simp only [State.writeReg] <;> first | rfl | (split <;> rfl)

@[simp] theorem State.writeReg_alignAnswers (s : State) (w : Size) (i : Fin 16) (v : BitVec 64) :
    (s.writeReg w i v).alignAnswers = s.alignAnswers := by
  cases w <;> simp only [State.writeReg] <;> first | rfl | (split <;> rfl)

@[simp] theorem State.writeReg_paging (s : State) (w : Size) (i : Fin 16) (v : BitVec 64) :
    (s.writeReg w i v).paging = s.paging := by
  cases w <;> simp only [State.writeReg] <;> first | rfl | (split <;> rfl)

@[simp] theorem State.writeReg_mem (s : State) (w : Size) (i : Fin 16) (v : BitVec 64) :
    (s.writeReg w i v).mem = s.mem := by
  cases w <;> simp only [State.writeReg] <;> first | rfl | (split <;> rfl)

@[simp] theorem State.writeReg_params (s : State) (w : Size) (i : Fin 16) (v : BitVec 64) :
    (s.writeReg w i v).params = s.params := by
  cases w <;> simp only [State.writeReg] <;> first | rfl | (split <;> rfl)

/-! ### The segment registers -/

@[simp] theorem SegmentFile.get_set_self (f : SegmentFile) (S : SegName) (r : SegmentRegister) :
    (f.set S r).get S = r := by
  cases S <;> rfl

theorem SegmentFile.get_set_of_ne (f : SegmentFile) {S S' : SegName} (r : SegmentRegister) (h : S' ≠ S) :
    (f.set S r).get S' = f.get S' := by
  cases S <;> cases S' <;> first | rfl | exact absurd rfl h

@[simp] theorem State.seg_setSeg_self (s : State) (S : SegName) (r : SegmentRegister) : (s.setSeg S r).seg S = r :=
  SegmentFile.get_set_self _ _ _

theorem State.seg_setSeg_of_ne (s : State) {S S' : SegName} (r : SegmentRegister) (h : S' ≠ S) :
    (s.setSeg S r).seg S' = s.seg S' :=
  SegmentFile.get_set_of_ne _ _ h

@[simp] theorem State.seg_loadDescriptor_self (s : State) (S : SegName) (sel : Selector) (d : Descriptor) :
    (s.loadDescriptor S sel d).seg S = ⟨sel, true, d⟩ :=
  SegmentFile.get_set_self _ _ _

@[simp] theorem State.seg_loadNull_self (s : State) (S : SegName) (sel : Selector) :
    (s.loadNull S sel).seg S = ⟨sel, false, Config.freeDescriptor s.draws⟩ :=
  SegmentFile.get_set_self _ _ _

@[simp] theorem State.seg_loadRealV86_self (s : State) (S : SegName) (sel : Selector) :
    (s.loadRealV86 S sel).seg S = ⟨sel, true, { (s.seg S).desc with base := sel.setWidth 64 * 16 }⟩ :=
  SegmentFile.get_set_self _ _ _

@[simp] theorem State.seg_writeReg (s : State) (w : Size) (i : Fin 16) (v : BitVec 64) (S : SegName) :
    (s.writeReg w i v).seg S = s.seg S := by
  simp [State.seg]

@[simp] theorem State.seg_advance (s : State) (n : Nat) (S : SegName) : (s.advance n).seg S = s.seg S := rfl

/-! ### The general registers -/

@[simp] theorem State.reg_setReg_self (s : State) (i : Fin 16) (r : GeneralRegister) : (s.setReg i r).reg i = r := by
  simp [State.reg, State.setReg]

theorem State.reg_setReg_of_ne (s : State) {i j : Fin 16} (r : GeneralRegister) (h : j ≠ i) :
    (s.setReg i r).reg j = s.reg j := by
  have : i.val ≠ j.val := fun e => h (Fin.ext e.symm)
  simp [State.reg, State.setReg, Vector.getElem_set_ne, this]

@[simp] theorem State.reg_advance (s : State) (n : Nat) (i : Fin 16) : (s.advance n).reg i = s.reg i := rfl

@[simp] theorem State.x64_advance (s : State) (n : Nat) (i : Fin 16) : (s.advance n).x64 i = s.x64 i := rfl

@[simp] theorem State.x32_advance (s : State) (n : Nat) (i : Fin 16) : (s.advance n).x32 i = s.x32 i := rfl

@[simp] theorem State.x16_advance (s : State) (n : Nat) (i : Fin 16) : (s.advance n).x16 i = s.x16 i := rfl

theorem State.reg_writeReg_of_ne (s : State) (w : Size) {i j : Fin 16} (v : BitVec 64) (h : j ≠ i) :
    (s.writeReg w i v).reg j = s.reg j := by
  cases w
  · exact s.reg_setReg_of_ne _ h
  · simp only [State.writeReg]
    split
    · exact s.reg_setReg_of_ne _ h
    · exact s.reg_setReg_of_ne _ h
  · exact s.reg_setReg_of_ne _ h

/-- A register written and read back (10_state.md R21). -/
theorem State.reg_writeReg_self (s : State) (w : Size) (i : Fin 16) (v : BitVec 64) :
    (s.writeReg w i v).reg i =
      match w with
      | .s16 => { s.reg i with lo := (s.reg i).lo.extractLsb' 16 16 ++ v.setWidth 16 }
      | .s32 => ⟨v.setWidth 32, if s.mode = .long64 then 0 else Config.freeHigh s.draws⟩
      | .s64 => ⟨v.setWidth 32, v.extractLsb' 32 32⟩ := by
  cases w
  · exact s.reg_setReg_self _ _
  · simp only [State.writeReg]
    split
    · exact s.reg_setReg_self _ _
    · exact s.reg_setReg_self _ _
  · exact s.reg_setReg_self _ _

end Sys2Proof.Machine
end

