-- ==== Sys2Proof/Laws/Access.lean ====
section
/-! SUPPORT. What reading a range of bytes and reading a far pointer can answer (20_memory.md R58 to R61). -/

namespace Sys2Proof.Machine

theorem State.readRange_ok (s : State) (kind : AccessKind) (lin : Addr) (i n : Nat)
    (h : ∀ k < n, ∃ p : Addr, s.translate kind (s.linearAdd lin (i + k)) = .phys p) :
    ∃ bs, s.readRange kind lin i n = .ok bs ∧ bs.length = n ∧
      ∀ k (hk : k < bs.length) (p : Addr), s.translate kind (s.linearAdd lin (i + k)) = .phys p →
        bs[k] = Memory.read s.mem p.toNat := by
  induction n generalizing i with
  | zero => exact ⟨[], rfl, rfl, fun k hk => absurd hk (by simp)⟩
  | succ n ih =>
    obtain ⟨p, hp⟩ := h 0 (by omega)
    obtain ⟨bs, hbs, hlen, hget⟩ := ih (i + 1) (fun k hk => by
      have := h (k + 1) (by omega)
      rwa [show i + (k + 1) = i + 1 + k by omega] at this)
    rw [Nat.add_zero] at hp
    refine ⟨Memory.read s.mem p.toNat :: bs, by simp only [State.readRange, hp, hbs], by simp [hlen], ?_⟩
    intro k hk q hq
    cases k with
    | zero =>
      rw [Nat.add_zero, hp] at hq
      cases hq
      rfl
    | succ k =>
      rw [show i + (k + 1) = i + 1 + k by omega] at hq
      exact hget k (by simpa using hk) q hq

theorem State.readRange_error (s : State) (kind : AccessKind) (lin : Addr) (i n : Nat) (c : FaultCode)
    (h : s.readRange kind lin i n = .error c) :
    ∃ k < n, s.translate kind (s.linearAdd lin (i + k)) = .pageFault c := by
  induction n generalizing i with
  | zero => simp [State.readRange] at h
  | succ n ih =>
    simp only [State.readRange] at h
    split at h
    · next c' hc =>
      cases h
      exact ⟨0, by omega, hc⟩
    · split at h
      · cases h
      · next c' hc =>
        cases h
        obtain ⟨k, hk, hkc⟩ := ih (i + 1) hc
        exact ⟨k + 1, by omega, by rwa [show i + (k + 1) = i + 1 + k by omega]⟩

theorem State.readRange_total (s : State) (kind : AccessKind) (lin : Addr) (i n : Nat) :
    (∀ k < n, ∃ p : Addr, s.translate kind (s.linearAdd lin (i + k)) = .phys p) ∨
      ∃ c, s.readRange kind lin i n = .error c := by
  induction n generalizing i with
  | zero => exact .inl (fun k hk => absurd hk (by omega))
  | succ n ih =>
    simp only [State.readRange]
    cases hp : s.translate kind (s.linearAdd lin i) with
    | pageFault c => exact .inr ⟨c, rfl⟩
    | phys p =>
      rcases ih (i + 1) with hall | ⟨c, hc⟩
      · refine .inl fun k hk => ?_
        cases k with
        | zero => exact ⟨p, hp⟩
        | succ k =>
          have := hall k (by omega)
          rwa [show i + 1 + k = i + (k + 1) by omega] at this
      · exact .inr ⟨c, by simp [hc]⟩

/-- Both parts of the far pointer are mapped: the parts read are their bytes, whatever the order. -/
theorem State.readParts_ok (s : State) (lin : Addr) (w : Size)
    (h : ∀ k < w.farBytes, ∃ p : Addr, s.translate .dataReadAtCpl (s.linearAdd lin k) = .phys p) :
    ∃ off sel, s.readParts lin w = .ok (off, sel) ∧ off.length = w.bytes ∧ sel.length = 2 ∧
      (∀ k (hk : k < off.length) (p : Addr), s.translate .dataReadAtCpl (s.linearAdd lin k) = .phys p →
        off[k] = Memory.read s.mem p.toNat) ∧
      (∀ k (hk : k < sel.length) (p : Addr), s.translate .dataReadAtCpl (s.linearAdd lin (w.bytes + k)) = .phys p →
        sel[k] = Memory.read s.mem p.toNat) := by
  obtain ⟨off, hoff, hlo, hgo⟩ := s.readRange_ok .dataReadAtCpl lin 0 w.bytes (fun k hk => by
    rw [Nat.zero_add]
    exact h k (by simp only [Size.farBytes]; omega))
  obtain ⟨sel, hsel, hls, hgs⟩ := s.readRange_ok .dataReadAtCpl lin w.bytes 2 (fun k hk =>
    h (w.bytes + k) (by simp only [Size.farBytes]; omega))
  refine ⟨off, sel, ?_, hlo, hls, fun k hk p hp => hgo k hk p (by rwa [Nat.zero_add]), hgs⟩
  simp only [State.readParts]
  split <;> simp [hoff, hsel, bind, Except.bind]

/-- A byte of the operand that is not mapped: reading the parts reports one such byte's page fault. -/
theorem State.readParts_error (s : State) (lin : Addr) (w : Size) (k : Nat) (c : FaultCode) (hk : k < w.farBytes)
    (hc : s.translate .dataReadAtCpl (s.linearAdd lin k) = .pageFault c) :
    ∃ c', s.readParts lin w = .error c' ∧
      ∃ j < w.farBytes, s.translate .dataReadAtCpl (s.linearAdd lin j) = .pageFault c' := by
  have hoffErr : ∀ c', s.readRange .dataReadAtCpl lin 0 w.bytes = .error c' →
      ∃ j < w.farBytes, s.translate .dataReadAtCpl (s.linearAdd lin j) = .pageFault c' := fun c' h => by
    obtain ⟨j, hj, hjc⟩ := s.readRange_error _ _ _ _ _ h
    rw [Nat.zero_add] at hjc
    exact ⟨j, by simp only [Size.farBytes]; omega, hjc⟩
  have hselErr : ∀ c', s.readRange .dataReadAtCpl lin w.bytes 2 = .error c' →
      ∃ j < w.farBytes, s.translate .dataReadAtCpl (s.linearAdd lin j) = .pageFault c' := fun c' h => by
    obtain ⟨j, hj, hjc⟩ := s.readRange_error _ _ _ _ _ h
    exact ⟨w.bytes + j, by simp only [Size.farBytes]; omega, hjc⟩
  have hsome : (∃ c', s.readRange .dataReadAtCpl lin 0 w.bytes = .error c') ∨
      (∃ c', s.readRange .dataReadAtCpl lin w.bytes 2 = .error c') := by
    rcases s.readRange_total .dataReadAtCpl lin 0 w.bytes with h1 | h1
    · rcases s.readRange_total .dataReadAtCpl lin w.bytes 2 with h2 | h2
      · exfalso
        by_cases hlt : k < w.bytes
        · obtain ⟨p, hp⟩ := h1 k hlt
          rw [Nat.zero_add, hc] at hp
          cases hp
        · obtain ⟨p, hp⟩ := h2 (k - w.bytes) (by simp only [Size.farBytes] at hk; omega)
          rw [show w.bytes + (k - w.bytes) = k by omega, hc] at hp
          cases hp
      · exact .inr h2
    · exact .inl h1
  simp only [State.readParts]
  cases ho : s.readRange .dataReadAtCpl lin 0 w.bytes with
  | error c' =>
    cases hs : s.readRange .dataReadAtCpl lin w.bytes 2 with
    | error c'' =>
      cases s.params.readOrder
      · exact ⟨c', by simp [bind, Except.bind], hoffErr c' ho⟩
      · exact ⟨c'', by simp [bind, Except.bind], hselErr c'' hs⟩
    | ok sel =>
      exact ⟨c', by cases s.params.readOrder <;> simp [bind, Except.bind], hoffErr c' ho⟩
  | ok off =>
    cases hs : s.readRange .dataReadAtCpl lin w.bytes 2 with
    | error c'' =>
      exact ⟨c'', by cases s.params.readOrder <;> simp [bind, Except.bind], hselErr c'' hs⟩
    | ok sel =>
      rcases hsome with ⟨c', h⟩ | ⟨c', h⟩
      · rw [ho] at h; cases h
      · rw [hs] at h; cases h

theorem State.operandByte_eq_some {s : State} {i : Instr} {k : Nat} {b : Byte} (h : s.operandByte i k = some b) :
    ∃ p : Addr, s.translate .dataReadAtCpl (s.linearAdd (s.operandLin i) k) = .phys p ∧
      Memory.read s.mem p.toNat = b := by
  simp only [State.operandByte] at h
  split at h
  · next p hp => exact ⟨p, hp, Option.some.inj h⟩
  · cases h

theorem State.operandMapped_phys {s : State} {i : Instr} (h : OperandMapped s i) :
    ∀ k < i.width.farBytes, ∃ p : Addr, s.translate .dataReadAtCpl (s.linearAdd (s.operandLin i) k) = .phys p :=
  fun k hk => by
    obtain ⟨b, hb⟩ := Option.isSome_iff_exists.mp (h k hk)
    obtain ⟨p, hp, -⟩ := State.operandByte_eq_some hb
    exact ⟨p, hp⟩

/-- The checks before the read pass exactly on a usable segment and an operand in range. -/
theorem State.operandLinear_ok (s : State) (i : Instr) (hu : OperandSegmentUsable s i) (hr : OperandInRange s i) :
    s.operandLinear (s.operandSegment i) (s.operandSize i) (s.operandEa i) i.width.farBytes = .ok (s.operandLin i) := by
  have hnull : s.nullSegCheck (s.operandSegment i) = .ok () := by
    simp only [State.nullSegCheck, raise]
    refine if_neg ?_
    intro h
    simp only [Bool.and_eq_true, Bool.not_eq_true'] at h
    obtain ⟨⟨hm, hd⟩, hv⟩ := h
    have hmode : s.mode = .prot ∨ s.mode = .compat := by
      cases hmm : s.mode <;> simp [hmm, modeIsProtected] at hm ⊢
    have hseg : s.operandSegment i ∈ [SegName.ds, .es, .fs, .gs] := by
      cases hss : s.operandSegment i <;> simp [hss, isDataSegment] at hd ⊢
    have := hu hmode hseg
    rw [hv] at this
    cases this
  have hlin : s.linearAddress (s.operandSegment i) (s.operandEa i) = s.operandLin i := rfl
  simp only [State.operandLinear, hnull, hlin, State.segCheck, State.canonCheck]
  by_cases hm : s.mode = .long64
  · simp [hm, hr.2 hm, bind, Except.bind]
  · simp [hm, hr.1 hm, bind, Except.bind]

end Sys2Proof.Machine
end

