-- ==== Sys2Proof/Laws/Decode.lean ====
section
/-! SUPPORT. One lemma per stage of the decoder: what it reads back from the bytes the encoder writes, and what bytes an
answer of it came from (30_encoding.md R101). -/

namespace Sys2Proof

/-! ### Prefix bytes -/

@[simp] theorem classify_byte (p : LegacyPrefix) : classify p.byte = .legacy p := by
  cases p with
  | segOverride s => cases s <;> decide
  | _ => decide

theorem byte_of_classify {b : Byte} {p : LegacyPrefix} (h : classify b = .legacy p) : p.byte = b := by
  simp only [classify] at h
  split_ifs at h <;>
    first
      | exact absurd h (by decide)
      | (cases h; simp_all [LegacyPrefix.byte])

theorem scanPrefixes_map (seen : List Nat) (pre : List LegacyPrefix) (b : Byte) (rest : List Byte)
    (hd : distinctGroups seen pre = true) (hb : classify b = .other) :
    scanPrefixes seen (pre.map LegacyPrefix.byte ++ b :: rest) = .ok (pre, b :: rest) := by
  induction pre generalizing seen with
  | nil => simp [scanPrefixes, hb]
  | cons p ps ih =>
    simp only [distinctGroups, Bool.and_eq_true, Bool.not_eq_true'] at hd
    simp only [List.map_cons, List.cons_append, scanPrefixes, classify_byte, hd.1, Bool.false_eq_true, if_false,
      ih _ hd.2]

theorem scanPrefixes_eq_ok {seen : List Nat} {bs : List Byte} {pre : List LegacyPrefix} {rest : List Byte}
    (h : scanPrefixes seen bs = .ok (pre, rest)) :
    distinctGroups seen pre = true ∧ bs = pre.map LegacyPrefix.byte ++ rest ∧
      ∃ b tl, rest = b :: tl ∧ classify b = .other := by
  induction bs generalizing seen pre rest with
  | nil => cases h
  | cons b bs ih =>
    simp only [scanPrefixes] at h
    split at h
    · next hb => cases h; exact ⟨rfl, rfl, b, bs, rfl, hb⟩
    · cases h
    · next p hb =>
      split at h
      · cases h
      · next hs =>
        split at h
        · next ps rest' hrec =>
          cases h
          obtain ⟨h1, h2, h3⟩ := ih hrec
          refine ⟨by simp only [distinctGroups, eq_false_of_ne_true hs, Bool.not_false, Bool.true_and, h1], ?_, h3⟩
          rw [List.map_cons, List.cons_append, byte_of_classify hb, ← h2]
        · cases h

/-! ### REX -/

@[simp] theorem Rex.ofByte_byte (r : Rex) : Rex.ofByte r.byte = r := by
  obtain ⟨w, r, x, b⟩ := r
  cases w <;> cases r <;> cases x <;> cases b <;> decide

@[simp] theorem isRexByte_byte (r : Rex) : isRexByte r.byte = true := by
  obtain ⟨w, r, x, b⟩ := r
  cases w <;> cases r <;> cases x <;> cases b <;> decide

theorem classify_rexByte (r : Rex) : classify r.byte = .other := by
  obtain ⟨w, r, x, b⟩ := r
  cases w <;> cases r <;> cases x <;> cases b <;> decide

theorem Rex.byte_ofByte {b : Byte} (h : isRexByte b = true) : (Rex.ofByte b).byte = b := by
  revert h
  revert b
  decide

theorem readRex_some (r : Rex) (b : Byte) (rest : List Byte) (hb : classify b = .other) (hr : isRexByte b = false) :
    readRex .long64 (r.byte :: b :: rest) = .ok (some r, b :: rest) := by
  simp [readRex, hb, hr]

theorem readRex_none (mode : Mode) (b : Byte) (rest : List Byte) (h : mode ≠ .long64 ∨ isRexByte b = false) :
    readRex mode (b :: rest) = .ok (none, b :: rest) := by
  simp only [readRex]
  refine if_neg ?_
  rintro ⟨h1, h2⟩
  rcases h with h | h
  · exact h h1
  · rw [h] at h2; cases h2

theorem readRex_eq_ok {mode : Mode} {bs rest : List Byte} {rex : Option Rex}
    (h : readRex mode bs = .ok (rex, rest)) :
    (rex = none ∧ bs = rest) ∨
      (mode = .long64 ∧ ∃ r, rex = some r ∧ bs = r.byte :: rest) := by
  cases bs with
  | nil => cases h
  | cons b bs =>
    simp only [readRex] at h
    split at h
    · next hc =>
      cases bs with
      | nil => cases h
      | cons c cs =>
        simp only at h
        split at h
        · cases h
          exact .inr ⟨hc.1, _, rfl, by rw [Rex.byte_ofByte hc.2]⟩
        · cases h
    · cases h
      exact .inl ⟨rfl, rfl⟩

/-! ### Opcode -/

theorem readOpcode_opcode (S : LoadSeg) (rest : List Byte) : readOpcode (S.opcode ++ rest) = .ok (S, rest) := by
  cases S <;> rfl

theorem readOpcode_eq_ok {bs rest : List Byte} {S : LoadSeg} (h : readOpcode bs = .ok (S, rest)) :
    bs = S.opcode ++ rest := by
  cases bs with
  | nil => cases h
  | cons b bs =>
    simp only [readOpcode] at h
    split at h
    · next h1 => cases h; rw [h1]; rfl
    · split at h
      · next h1 => cases h; rw [h1]; rfl
      · split at h
        · next h1 =>
          cases bs with
          | nil => cases h
          | cons c cs =>
            simp only at h
            split at h
            · next h2 => cases h; rw [h1, h2]; rfl
            · split at h
              · next h2 => cases h; rw [h1, h2]; rfl
              · split at h
                · next h2 => cases h; rw [h1, h2]; rfl
                · cases h
        · cases h

/-- The first opcode byte is no prefix. -/
theorem LoadSeg.opcode_head (S : LoadSeg) :
    ∃ b tl, S.opcode = b :: tl ∧ classify b = .other ∧ isRexByte b = false := by
  cases S <;> exact ⟨_, _, rfl, by decide, by decide⟩

/-! ### ModRM -/

@[simp] theorem Mod.ofBits_bits (m : Mod) : Mod.ofBits m.bits = some m := by
  cases m <;> decide

theorem Mod.bits_of_ofBits {v : BitVec 2} {m : Mod} (h : Mod.ofBits v = some m) : m.bits = v := by
  revert h
  cases m <;> revert v <;> decide

theorem modrm_fields (m : BitVec 2) (reg rm : BitVec 3) :
    (m ++ reg ++ rm).extractLsb' 6 2 = m ∧ (m ++ reg ++ rm).extractLsb' 3 3 = reg ∧
      (m ++ reg ++ rm).extractLsb' 0 3 = rm := by
  revert m reg rm
  decide

theorem modrm_append (b : Byte) : b.extractLsb' 6 2 ++ b.extractLsb' 3 3 ++ b.extractLsb' 0 3 = b := by
  revert b
  decide

theorem readModRM_modrm (o : Operands) (rest : List Byte) :
    readModRM (o.modrm :: rest) = .ok ((o.mod, o.reg, o.rm), rest) := by
  obtain ⟨h1, h2, h3⟩ := modrm_fields o.mod.bits o.reg o.rm
  simp only [readModRM, Operands.modrm, h1, h2, h3, Mod.ofBits_bits]

theorem readModRM_eq_ok {bs rest : List Byte} {m : Mod} {reg rm : BitVec 3}
    (h : readModRM bs = .ok ((m, reg, rm), rest)) : bs = (m.bits ++ reg ++ rm) :: rest := by
  cases bs with
  | nil => cases h
  | cons b bs =>
    simp only [readModRM] at h
    split at h
    · cases h
    · next m' hm =>
      cases h
      rw [Mod.bits_of_ofBits hm, modrm_append]

/-! ### SIB and displacement -/

theorem readSib_encode (a : Size) (rm : BitVec 3) (sib : Option Sib) (rest : List Byte)
    (h : sib.isSome = needsSib a rm) :
    readSib a rm (sib.toList.map Sib.byte ++ rest) = .ok (sib, rest) := by
  cases sib with
  | none => simp [readSib, ← h]
  | some b =>
    obtain ⟨h1, h2, h3⟩ := modrm_fields b.scale b.index b.base
    simp [readSib, ← h, Sib.byte, h1, h2, h3]

theorem readSib_eq_ok {a : Size} {rm : BitVec 3} {bs rest : List Byte} {sib : Option Sib}
    (h : readSib a rm bs = .ok (sib, rest)) :
    sib.isSome = needsSib a rm ∧ bs = sib.toList.map Sib.byte ++ rest := by
  simp only [readSib] at h
  split at h
  · next hn =>
    cases bs with
    | nil => cases h
    | cons b cs =>
      cases h
      exact ⟨hn.symm, by simp [Sib.byte, modrm_append]⟩
  · next hn =>
    cases h
    exact ⟨(eq_false_of_ne_true hn).symm, rfl⟩

theorem bytes_append16 (v : BitVec 16) : v.extractLsb' 8 8 ++ v.extractLsb' 0 8 = v := by
  apply BitVec.eq_of_getLsbD_eq
  intro k hk
  simp only [BitVec.getLsbD_append, BitVec.getLsbD_extractLsb']
  repeat' split
  all_goals (rw [decide_eq_true (by omega), Bool.true_and]; congr 1; omega)

theorem bytes_append32 (v : BitVec 32) :
    v.extractLsb' 24 8 ++ v.extractLsb' 16 8 ++ v.extractLsb' 8 8 ++ v.extractLsb' 0 8 = v := by
  apply BitVec.eq_of_getLsbD_eq
  intro k hk
  simp only [BitVec.getLsbD_append, BitVec.getLsbD_extractLsb']
  repeat' split
  all_goals (rw [decide_eq_true (by omega), Bool.true_and]; congr 1; omega)

theorem append16_bytes (b1 b0 : Byte) :
    (b1 ++ b0).extractLsb' 0 8 = b0 ∧ (b1 ++ b0).extractLsb' 8 8 = b1 := by
  constructor <;> apply BitVec.eq_of_getLsbD_eq <;> intro k hk <;>
    simp only [BitVec.getLsbD_append, BitVec.getLsbD_extractLsb', decide_eq_true hk, Bool.true_and] <;>
    split <;> first | (exfalso; omega) | (congr 1; omega)

theorem append32_bytes (b3 b2 b1 b0 : Byte) :
    (b3 ++ b2 ++ b1 ++ b0).extractLsb' 0 8 = b0 ∧ (b3 ++ b2 ++ b1 ++ b0).extractLsb' 8 8 = b1 ∧
      (b3 ++ b2 ++ b1 ++ b0).extractLsb' 16 8 = b2 ∧ (b3 ++ b2 ++ b1 ++ b0).extractLsb' 24 8 = b3 := by
  refine ⟨?_, ?_, ?_, ?_⟩ <;> apply BitVec.eq_of_getLsbD_eq <;> intro k hk <;>
    simp only [BitVec.getLsbD_append, BitVec.getLsbD_extractLsb', decide_eq_true hk, Bool.true_and] <;>
    (repeat' split) <;> first | (exfalso; omega) | (congr 1; omega)

theorem readDisp_encode (d : Disp) (rest : List Byte) : readDisp d.size (d.encode ++ rest) = .ok (d, rest) := by
  cases d with
  | absent => rfl
  | d8 v => rfl
  | d16 v => simp [readDisp, Disp.encode, Disp.size, bytes_append16]
  | d32 v => simp [readDisp, Disp.encode, Disp.size, bytes_append32]

theorem readDisp_eq_ok {n : DispSize} {bs rest : List Byte} {d : Disp} (h : readDisp n bs = .ok (d, rest)) :
    d.size = n ∧ bs = d.encode ++ rest := by
  unfold readDisp at h
  split at h
  · cases h; exact ⟨rfl, rfl⟩
  · cases h; exact ⟨rfl, rfl⟩
  · next b0 b1 bs' =>
    cases h
    obtain ⟨h0, h1⟩ := append16_bytes b1 b0
    exact ⟨rfl, by simp only [Disp.encode, h0, h1]; rfl⟩
  · next b0 b1 b2 b3 bs' =>
    cases h
    obtain ⟨h0, h1, h2, h3⟩ := append32_bytes b3 b2 b1 b0
    exact ⟨rfl, by simp only [Disp.encode, h0, h1, h2, h3]; rfl⟩
  all_goals cases h

@[simp] theorem Disp.length_encode (d : Disp) : d.encode.length = d.size.bytes := by
  cases d <;> rfl

/-! ### The form -/

theorem Instr.ofForm_parts (i : Instr) : Instr.ofForm i.dest i.width i.operands = some i := by
  cases i <;> rfl

theorem Instr.ofForm_eq_some {S : LoadSeg} {w : Size} {o : Operands} {i : Instr} (h : Instr.ofForm S w o = some i) :
    i.dest = S ∧ i.width = w ∧ i.operands = o := by
  cases S <;> cases w <;> cases h <;> exact ⟨rfl, rfl, rfl⟩

end Sys2Proof
end

