-- ==== Sys2Proof/Laws/Exec.lean ====
section
/-! SUPPORT. What reading the far pointer, loading a segment register and executing an instruction can answer: one lemma
each, which later proofs cite instead of unfolding the meaning. -/

namespace Sys2Proof.Machine

theorem extractLsb'_byte_toNat {n : Nat} (v : BitVec n) (k : Nat) :
    (v.extractLsb' (8 * k) 8).toNat = v.toNat / 256 ^ k % 256 := by
  rw [BitVec.extractLsb'_toNat, Nat.shiftRight_eq_div_pow, Nat.pow_mul]

/-- Two halves make a number. -/
theorem append_toNat32 (a b : BitVec 32) : (a ++ b : BitVec (32 + 32)).toNat = a.toNat * 2 ^ 32 + b.toNat := by
  rw [BitVec.toNat_append, ← Nat.shiftLeft_add_eq_or_of_lt b.isLt, Nat.shiftLeft_eq]

/-- Two halves make a number. -/
theorem append_toNat16 (a b : BitVec 16) : (a ++ b : BitVec (16 + 16)).toNat = a.toNat * 2 ^ 16 + b.toNat := by
  rw [BitVec.toNat_append, ← Nat.shiftLeft_add_eq_or_of_lt b.isLt, Nat.shiftLeft_eq]

/-- `x64[i]` as the number its two halves make (10_state.md R21). -/
theorem State.x64_toNat (s : State) (i : Fin 16) : (s.x64 i).toNat = (s.reg i).hi.toNat * 2 ^ 32 + (s.reg i).lo.toNat :=
  append_toNat32 _ _

/-- A write of 16, 32 or 64 bits leaves the register as 10_state.md R21 says. -/
theorem State.registerLoaded_writeReg (s : State) (w : Size) (r : Fin 16) (v : BitVec 64) :
    RegisterLoaded s (s.writeReg w r v) w r v := by
  have hlo := (s.reg r).lo.isLt
  cases w
  case s16 =>
    have h := append_toNat16 ((s.reg r).lo.extractLsb' 16 16) (v.setWidth 16)
    constructor
    · apply BitVec.eq_of_toNat_eq
      simp only [State.x16, State.writeReg, State.reg_setReg_self, BitVec.toNat_setWidth] at h ⊢
      omega
    · apply BitVec.eq_of_toNat_eq
      simp only [State.writeReg, BitVec.extractLsb'_toNat, State.x64_toNat, State.reg_setReg_self, Nat.shiftRight_eq_div_pow,
        BitVec.toNat_setWidth] at h ⊢
      omega
  case s32 =>
    constructor
    · simp only [State.writeReg]
      split
      · simp only [State.x32, State.reg_setReg_self]
      · exact congrArg GeneralRegister.lo (State.reg_setReg_self s r ⟨v.setWidth 32, Config.freeHigh s.draws⟩)
    · intro hm
      apply BitVec.eq_of_toNat_eq
      simp only [State.writeReg, hm, if_true, State.x64_toNat, State.reg_setReg_self, BitVec.toNat_setWidth,
        show BitVec.toNat (0 : BitVec 32) = 0 from rfl]
      omega
  case s64 =>
    have := v.isLt
    apply BitVec.eq_of_toNat_eq
    simp only [State.writeReg, State.x64_toNat, State.reg_setReg_self, BitVec.extractLsb'_toNat, Nat.shiftRight_eq_div_pow,
      BitVec.toNat_setWidth]
    omega

/-- `pc` after an instruction of `n` bytes (10_state.md R24). -/
theorem State.pcAdvanced_advance (s : State) (n : Nat) : PcAdvanced s (s.advance n) n := by
  have key : ∀ b, s.codeBits = b → b ≤ 64 → (s.advance n).pc.toNat = (s.pc.toNat + n) % 2 ^ b := by
    intro b hb hle
    simp only [State.advance_pc, State.nextPc, State.codeOffset, hb, BitVec.toNat_ofNat, Nat.mod_add_mod]
    exact Nat.mod_eq_of_lt (lt_of_lt_of_le (Nat.mod_lt _ (by positivity)) (Nat.pow_le_pow_right (by decide) hle))
  exact ⟨fun h => key 64 (by simp [State.codeBits, h]) (by decide),
    fun h h' => key 32 (by simp [State.codeBits, h, h']) (by decide),
    fun h h' => key 16 (by simp [State.codeBits, h, h']) (by decide)⟩

/-- A segment register replaced, then the offset written and `pc` advanced: all of it together, and the segment register
read back (40_load_far_pointer.md R110 steps 4 to 6; 10_state.md R37). -/
theorem State.offsetLoaded (s : State) (i : Instr) (off : BitVec 64) (r : SegmentRegister) (n : Nat) :
    let t := (State.writeReg { s.setSeg i.dest.name r with draws := n } i.width i.operands.dst off).advance i.length
    OffsetLoaded s t i off ∧ t.seg i.dest.name = r := by
  have hseg : State.seg { s.setSeg i.dest.name r with draws := n } i.dest.name = r := State.seg_setSeg_self s _ r
  have hother : ∀ S', S' ≠ i.dest.name → State.seg { s.setSeg i.dest.name r with draws := n } S' = s.seg S' :=
    fun S' h => State.seg_setSeg_of_ne s r h
  have hr := State.registerLoaded_writeReg { s.setSeg i.dest.name r with draws := n } i.width i.operands.dst off
  have hp := State.pcAdvanced_advance
    (State.writeReg { s.setSeg i.dest.name r with draws := n } i.width i.operands.dst off) i.length
  refine ⟨⟨?_, by simpa [PcAdvanced] using hp, ?_⟩, by rw [State.seg_advance, State.seg_writeReg, hseg]⟩
  · revert hr
    cases i.width <;> exact id
  · constructor
    · intro S' hS
      rw [State.seg_advance, State.seg_writeReg, hother S' hS]
    · intro r' hr
      rw [State.reg_advance, State.reg_writeReg_of_ne _ _ _ hr]
      rfl
    all_goals simp

/-- A readable operand that holds (`off`, `sel`) reads as (`off`, `sel`) (20_memory.md R61). -/
theorem State.readFarPointer_of_at {s : State} {i : Instr} {off : BitVec 64} {sel : Selector}
    (h : FarPointerAt s i off sel) :
    s.readFarPointer (s.operandSegment i) (s.operandSize i) (s.operandEa i) i.width = .ok (off, sel) := by
  have hmap : ∀ k < i.width.farBytes,
      ∃ p : Addr, s.translate .dataReadAtCpl (s.linearAdd (s.operandLin i) k) = .phys p := fun k hk => by
    by_cases hlt : k < i.width.bytes
    · obtain ⟨p, hp, -⟩ := State.operandByte_eq_some (h.offset k hlt)
      exact ⟨p, hp⟩
    · obtain ⟨p, hp, -⟩ := State.operandByte_eq_some
        (h.selector (k - i.width.bytes) (by simp only [Size.farBytes] at hk; omega))
      rw [show i.width.bytes + (k - i.width.bytes) = k by omega] at hp
      exact ⟨p, hp⟩
  obtain ⟨ob, sb, hparts, hlo, hls, hgo, hgs⟩ := s.readParts_ok _ _ hmap
  have hoffv : leValue ob = off.toNat := by
    apply leValue_eq_of_bytes
    · have := h.narrow
      rw [hlo]
      cases hw : i.width <;> simpa [hw, Size.bits, Size.bytes] using this
    · intro k hk
      obtain ⟨p, hp, hb⟩ := State.operandByte_eq_some (h.offset k (by omega))
      rw [hgo k hk p hp, hb, extractLsb'_byte_toNat]
  have hselv : leValue sb = sel.toNat := by
    apply leValue_eq_of_bytes
    · rw [hls]
      exact sel.isLt
    · intro k hk
      obtain ⟨p, hp, hb⟩ := State.operandByte_eq_some (h.selector k (by omega))
      rw [hgs k hk p hp, hb, extractLsb'_byte_toNat]
  have halign : s.alignmentCheck i.width (s.operandLin i) = .ok () := by
    simp only [State.alignmentCheck]
    refine if_neg ?_
    intro hc
    simp only [Bool.and_eq_true, Bool.not_eq_true'] at hc
    have := h.aligned hc.1
    rw [hc.2] at this
    cases this
  have hfits : ¬ 2 ^ (s.operandSize i).bits ≤ (s.operandEa i).toNat + i.width.farBytes - 1 := by
    have := h.fits
    omega
  simp only [State.readFarPointer, if_neg hfits, s.operandLinear_ok i h.usable h.inRange, hparts, halign, orPageFault,
    hoffv, hselv, bind, Except.bind, BitVec.ofNat_toNat, BitVec.setWidth_eq]

/-- `exec` of any constructor is `LFP(S, w)` of its segment register, width and operands
(40_load_far_pointer.md R110). -/
theorem exec_eq (i : Instr) (s : State) : exec i s = outcome (loadFarPointer i.dest i.width i.operands s) := by
  cases i <;> rfl

/-- The steps of a form that exists, in the fixed order of the checks (40_load_far_pointer.md R110 steps 3 to 6). -/
def State.steps (s : State) (i : Instr) : Except Stop State :=
  s.readFarPointer (s.operandSegment i) (s.operandSize i) (s.operandEa i) i.width >>= fun p =>
    s.loadSegment i.dest p.2 >>= fun t => .ok ((t.writeReg i.width i.operands.dst p.1).advance i.length)

/-- A form that exists takes those steps and reports their exception as `P_FAULT_ORDER` says. -/
theorem exec_of_exists {s : State} {i : Instr} (h : FormExists s i) :
    exec i s = outcome (s.report (s.applicable i) (s.steps i)) := by
  obtain ⟨hl, hd, hw⟩ := h
  have h1 : (i.operands.hasLock || (i.dest.isDsEs && s.mode == .long64)) = false := by
    rw [hl, Bool.false_or]
    cases hdd : i.dest.isDsEs
    · rfl
    · simpa using hd hdd
  have h2 : ¬ (i.width = .s64 ∧ s.mode ≠ .long64) := fun ⟨a, b⟩ => b (hw a)
  rw [exec_eq]
  simp only [loadFarPointer, h1, if_neg h2]
  rfl

/-! ### The exception reported -/

@[simp] theorem State.report_ok (s : State) (fs : List Fault) (t : State) : s.report fs (.ok t) = .ok t := rfl

@[simp] theorem State.report_raise (s : State) (fs : List Fault) (f : Fault) :
    s.report fs (raise f) = raise (s.reportedFault fs f) := rfl

@[simp] theorem State.report_refuse (s : State) (fs : List Fault) (r : Refusal) :
    s.report fs (refuse r) = refuse r := rfl

theorem State.report_eq_ok {s t : State} {fs : List Fault} {r : Except Stop State} (h : s.report fs r = .ok t) :
    r = .ok t := by
  cases r with
  | ok u => exact h
  | error e => cases e <;> cases h

theorem State.reportedFault_fixed {s : State} (h : s.params.faultOrder = .fixed) (fs : List Fault) (f : Fault) :
    s.reportedFault fs f = f := by
  simp [State.reportedFault, h]

/-- The exception reported is one of those that apply. -/
theorem State.reportedFault_mem (s : State) {fs : List Fault} {f : Fault} (h : f ∈ fs) : s.reportedFault fs f ∈ fs := by
  unfold State.reportedFault
  cases s.params.faultOrder with
  | fixed => exact h
  | anyApplicable =>
    have hlt : Config.freeChoice s.draws % fs.length < fs.length :=
      Nat.mod_lt _ (List.length_pos_of_mem h)
    simp only [List.getD_eq_getElem?_getD, List.getElem?_eq_getElem hlt, Option.getD_some]
    exact List.getElem_mem hlt

theorem mem_faultOf {α : Type} {r : Except Stop α} {f : Fault} : f ∈ faultOf r ↔ r = raise f := by
  cases r with
  | ok x => simp [faultOf, raise]
  | error e => cases e <;> simp [faultOf, raise, eq_comm]

theorem State.mem_bytePageFaults {s : State} {lin : Addr} {n : Nat} {f : Fault} :
    f ∈ s.bytePageFaults lin n ↔
      ∃ k < n, ∃ c, s.translate .dataReadAtCpl (s.linearAdd lin k) = .pageFault c ∧ f = .pageFault c := by
  simp only [State.bytePageFaults, List.mem_flatMap, List.mem_range]
  refine exists_congr fun k => and_congr_right fun _ => ?_
  split <;> simp [*]

/-- The exceptions of the operand's checks, then those of the selector's (60_exceptions.md R175). -/
theorem State.mem_applicable {s : State} {i : Instr} {f : Fault} :
    f ∈ s.applicable i ↔
      s.nullSegCheck (s.operandSegment i) = raise f ∨
      s.segCheck (s.operandSegment i) (s.operandSize i) (s.operandEa i) i.width.farBytes = raise f ∨
      s.canonCheck (s.operandSegment i) (s.operandLin i) i.width.farBytes = raise f ∨
      (∃ k < i.width.farBytes, ∃ c, s.operandTranslation i k = .pageFault c ∧ f = .pageFault c) ∨
      s.alignmentCheck i.width (s.operandLin i) = raise f ∨
      ∃ bytes, s.readRange .dataReadAtCpl (s.operandLin i) i.width.bytes 2 = .ok bytes ∧
        f ∈ s.selectorFaults i.dest (BitVec.ofNat 16 (leValue bytes)) := by
  have hlin : s.linearAddress (s.operandSegment i) (s.operandEa i) = s.operandLin i := rfl
  simp only [State.applicable, State.applicableFaults, List.mem_append, mem_faultOf, hlin]
  refine or_congr_right <| or_congr_right <| or_congr_right <| or_congr State.mem_bytePageFaults <| or_congr_right ?_
  cases s.readRange .dataReadAtCpl (s.operandLin i) i.width.bytes 2 <;> simp

theorem State.readParts_ok_selector {s : State} {lin : Addr} {w : Size} {off sel : List Byte}
    (h : s.readParts lin w = .ok (off, sel)) : s.readRange .dataReadAtCpl lin w.bytes 2 = .ok sel := by
  simp only [State.readParts] at h
  cases ho : s.readRange .dataReadAtCpl lin 0 w.bytes <;> cases hs : s.readRange .dataReadAtCpl lin w.bytes 2 <;>
    cases hr : s.params.readOrder <;> simp_all [bind, Except.bind]

theorem State.readParts_eq_error {s : State} {lin : Addr} {w : Size} {c : FaultCode} (h : s.readParts lin w = .error c) :
    ∃ k < w.farBytes, s.translate .dataReadAtCpl (s.linearAdd lin k) = .pageFault c := by
  have hoff : s.readRange .dataReadAtCpl lin 0 w.bytes = .error c ∨ s.readRange .dataReadAtCpl lin w.bytes 2 = .error c := by
    simp only [State.readParts] at h
    cases ho : s.readRange .dataReadAtCpl lin 0 w.bytes <;> cases hs : s.readRange .dataReadAtCpl lin w.bytes 2 <;>
      cases hr : s.params.readOrder <;> simp_all [bind, Except.bind]
  rcases hoff with h | h
  · obtain ⟨j, hj, hjc⟩ := s.readRange_error _ _ _ _ _ h
    rw [Nat.zero_add] at hjc
    exact ⟨j, by simp only [Size.farBytes]; omega, hjc⟩
  · obtain ⟨j, hj, hjc⟩ := s.readRange_error _ _ _ _ _ h
    exact ⟨w.bytes + j, by simp only [Size.farBytes]; omega, hjc⟩

/-- What the fixed order reports is one of the exceptions that apply (60_exceptions.md R175). -/
theorem State.steps_raise_applies {s : State} {i : Instr} {f : Fault} (h : s.steps i = raise f) : f ∈ s.applicable i := by
  rw [State.mem_applicable]
  have hlin : s.linearAddress (s.operandSegment i) (s.operandEa i) = s.operandLin i := rfl
  simp only [State.steps, State.readFarPointer, State.operandLinear, hlin] at h
  split at h
  · cases h
  cases hn : s.nullSegCheck (s.operandSegment i) with
  | error e => rw [hn] at h; cases h; exact .inl rfl
  | ok u1 =>
  cases hg : s.segCheck (s.operandSegment i) (s.operandSize i) (s.operandEa i) i.width.farBytes with
  | error e => rw [hn, hg] at h; cases h; exact .inr (.inl rfl)
  | ok u2 =>
  cases hc : s.canonCheck (s.operandSegment i) (s.operandLin i) i.width.farBytes with
  | error e => rw [hn, hg, hc] at h; cases h; exact .inr (.inr (.inl rfl))
  | ok u3 =>
  cases hp : s.readParts (s.operandLin i) i.width with
  | error c =>
    rw [hn, hg, hc] at h
    simp only [bind, Except.bind, hp, orPageFault, raise] at h
    cases h
    obtain ⟨k, hk, hkc⟩ := State.readParts_eq_error hp
    exact .inr (.inr (.inr (.inl ⟨k, hk, c, hkc, rfl⟩)))
  | ok parts =>
  cases ha : s.alignmentCheck i.width (s.operandLin i) with
  | error e =>
    rw [hn, hg, hc] at h
    simp only [bind, Except.bind, hp, orPageFault, ha] at h
    cases h
    exact .inr (.inr (.inr (.inr (.inl rfl))))
  | ok u4 =>
  obtain ⟨off, sel⟩ := parts
  rw [hn, hg, hc] at h
  simp only [bind, Except.bind, hp, orPageFault, ha] at h
  refine .inr (.inr (.inr (.inr (.inr ⟨sel, State.readParts_ok_selector hp, ?_⟩))))
  rw [State.selectorFaults, List.mem_append, mem_faultOf]
  cases hl : s.loadSegment i.dest (BitVec.ofNat 16 (leValue sel)) with
  | error e => rw [hl] at h; cases h; exact .inl rfl
  | ok t => rw [hl] at h; cases h

/-- The exception the fixed order reports determines what is reported. -/
theorem faultsAs_of_steps {s : State} {i : Instr} {f : Fault} (hf : FormExists s i) (h : s.steps i = raise f) :
    FaultsAs s i f := by
  have happ := State.steps_raise_applies h
  have he : exec i s = .fault (s.reportedFault (s.applicable i) f) := by
    rw [exec_of_exists hf, h]
    rfl
  exact ⟨happ, fun hm => by rw [he, State.reportedFault_fixed hm], fun _ => ⟨_, State.reportedFault_mem s happ, he⟩⟩

/-! ### Over a readable operand -/

/-- A form that exists, over an operand that holds (`off`, `sel`), does what loading `sel` does. -/
theorem State.steps_of_at {s : State} {i : Instr} {off : BitVec 64} {sel : Selector} (h : FarPointerAt s i off sel) :
    s.steps i = (s.loadSegment i.dest sel >>= fun t =>
      .ok ((t.writeReg i.width i.operands.dst off).advance i.length)) := by
  rw [State.steps, State.readFarPointer_of_at h]
  rfl

theorem exec_of_at_ok {s t : State} {i : Instr} {off : BitVec 64} {sel : Selector} (hf : FormExists s i)
    (h : FarPointerAt s i off sel) (ht : s.loadSegment i.dest sel = .ok t) :
    exec i s = .next ((t.writeReg i.width i.operands.dst off).advance i.length) := by
  rw [exec_of_exists hf, State.steps_of_at h, ht]
  rfl

theorem faultsAs_of_at {s : State} {i : Instr} {off : BitVec 64} {sel : Selector} {f : Fault} (hf : FormExists s i)
    (h : FarPointerAt s i off sel) (ht : s.loadSegment i.dest sel = raise f) : FaultsAs s i f :=
  faultsAs_of_steps hf (by rw [State.steps_of_at h, ht]; rfl)

/-- Over a readable operand only the selector's exceptions apply. -/
theorem State.applicable_of_at {s : State} {i : Instr} {off : BitVec 64} {sel : Selector} {f : Fault}
    (h : FarPointerAt s i off sel) (hf : f ∈ s.applicable i) : f ∈ s.selectorFaults i.dest sel := by
  have hread := State.readFarPointer_of_at h
  have hlin : s.linearAddress (s.operandSegment i) (s.operandEa i) = s.operandLin i := rfl
  simp only [State.readFarPointer, State.operandLinear, hlin] at hread
  split at hread
  · cases hread
  rw [State.mem_applicable] at hf
  cases hn : s.nullSegCheck (s.operandSegment i) with
  | error e => rw [hn] at hread; cases hread
  | ok u1 =>
  cases hg : s.segCheck (s.operandSegment i) (s.operandSize i) (s.operandEa i) i.width.farBytes with
  | error e => rw [hn, hg] at hread; cases hread
  | ok u2 =>
  cases hc : s.canonCheck (s.operandSegment i) (s.operandLin i) i.width.farBytes with
  | error e => rw [hn, hg, hc] at hread; cases hread
  | ok u3 =>
  rw [hn, hg, hc] at hread hf
  simp only [bind, Except.bind] at hread
  cases hp : s.readParts (s.operandLin i) i.width with
  | error c => rw [hp] at hread; cases hread
  | ok parts =>
  cases ha : s.alignmentCheck i.width (s.operandLin i) with
  | error e => rw [hp] at hread; simp only [orPageFault, ha] at hread; cases hread
  | ok u4 =>
  obtain ⟨ob, sb⟩ := parts
  simp only [hp, orPageFault, ha, Except.ok.injEq, Prod.mk.injEq] at hread
  rcases hf with hf | hf | hf | ⟨k, hk, c, hkc, -⟩ | hf | ⟨bytes, hb, hf⟩
  · cases hf
  · cases hf
  · cases hf
  · exfalso
    have hk' : ∃ p : Addr, s.operandTranslation i k = .phys p := by
      by_cases hlt : k < i.width.bytes
      · obtain ⟨p, hp', -⟩ := State.operandByte_eq_some (h.offset k hlt)
        exact ⟨p, hp'⟩
      · obtain ⟨p, hp', -⟩ := State.operandByte_eq_some
          (h.selector (k - i.width.bytes) (by simp only [Size.farBytes] at hk; omega))
        rw [show i.width.bytes + (k - i.width.bytes) = k by omega] at hp'
        exact ⟨p, hp'⟩
    obtain ⟨p, hp'⟩ := hk'
    rw [hkc] at hp'
    cases hp'
  · rw [ha] at hf; cases hf
  · rw [State.readParts_ok_selector hp, Except.ok.injEq] at hb
    rw [← hread.2, hb]
    exact hf

/-- Over a readable operand whose descriptor can be read, the exception of the selector's checks is reported whatever
`P_FAULT_ORDER` is. -/
theorem exec_of_at_raise {s : State} {i : Instr} {off : BitVec 64} {sel : Selector} {f : Fault} (hf : FormExists s i)
    (h : FarPointerAt s i off sel) (ht : s.loadSegment i.dest sel = raise f)
    (hd : ∀ g ∈ s.descriptorPageFault sel, g = f) : exec i s = .fault f := by
  have hall : ∀ g ∈ s.applicable i, g = f := fun g hg => by
    have := State.applicable_of_at h hg
    rw [State.selectorFaults, List.mem_append, mem_faultOf, ht] at this
    rcases this with e | e
    · cases e; rfl
    · exact hd g e
  have hs : s.steps i = raise f := by rw [State.steps_of_at h, ht]; rfl
  rw [exec_of_exists hf, hs, State.report_raise, hall _ (State.reportedFault_mem s (State.steps_raise_applies hs))]
  rfl

theorem outcome_eq_next {r : Except Stop State} {t : State} (h : outcome r = .next t) : r = .ok t := by
  cases r with
  | ok u => simp only [outcome, Host.Outcome.next.injEq] at h; rw [h]
  | error e => cases e <;> simp [outcome] at h

/-- Everything a completed instruction has done (40_load_far_pointer.md R110). -/
theorem exec_eq_next {i : Instr} {s t : State} (h : exec i s = .next t) :
    FormExists s i ∧ ∃ off sel u,
      s.readFarPointer (s.operandSegment i) (s.operandSize i) (s.operandEa i) i.width = .ok (off, sel) ∧
      s.loadSegment i.dest sel = .ok u ∧ t = (u.writeReg i.width i.operands.dst off).advance i.length := by
  have hf : FormExists s i := by
    have hr := outcome_eq_next (exec_eq i s ▸ h)
    simp only [loadFarPointer] at hr
    split at hr
    · cases hr
    · next h1 =>
      split at hr
      · cases hr
      · next h2 =>
        simp only [Bool.or_eq_true, Bool.and_eq_true, beq_iff_eq, not_or, not_and, Bool.not_eq_true] at h1
        exact ⟨h1.1, h1.2, fun hw => Classical.byContradiction fun hm => h2 ⟨hw, hm⟩⟩
  have hs : s.steps i = .ok t := State.report_eq_ok (outcome_eq_next (exec_of_exists hf ▸ h))
  refine ⟨hf, ?_⟩
  unfold State.steps at hs
  cases hp : s.readFarPointer (s.operandSegment i) (s.operandSize i) (s.operandEa i) i.width with
  | error e => rw [hp] at hs; cases hs
  | ok p =>
    rw [hp] at hs
    cases hl : s.loadSegment i.dest p.2 with
    | error e =>
      simp only [bind, Except.bind, hl] at hs
      cases hs
    | ok u =>
      simp only [bind, Except.bind, hl, Except.ok.injEq] at hs
      exact ⟨p.1, p.2, u, rfl, hl, hs.symm⟩

/-- A completed load of DS, ES, FS or GS outside real-address and virtual-8086 mode (41_segment_load.md R147, R148, R151,
R152). -/
theorem State.loadData_eq_ok {s t : State} {S : SegName} {sel : Selector} (h : s.loadData S sel = .ok t) :
    (isNull sel = true ∧ t = s.loadNull S sel) ∨
    (isNull sel = false ∧ ∃ d, s.descFetch sel = .desc d ∧ (d.isData || d.isReadableCode) = true ∧
      privilegeViolation s.cpl sel d = false ∧ d.p = true ∧ t = s.loadDescriptor S sel d) := by
  simp only [State.loadData] at h
  split at h
  · next hn => cases h; exact .inl ⟨hn, rfl⟩
  · next hn =>
    refine .inr ⟨eq_false_of_ne_true hn, ?_⟩
    simp only [State.loadDataDescriptor] at h
    split at h
    · cases h
    · cases h
    · cases h
    · next d hd =>
      split at h
      · cases h
      · next h1 =>
        split at h
        · cases h
        · next h2 =>
          split at h
          · cases h
          · next h3 =>
            cases h
            exact ⟨d, hd, eq_true_of_ne_false h1, eq_false_of_ne_true h2, eq_true_of_ne_false h3, rfl⟩

/-- A completed load of SS from a descriptor (41_segment_load.md R146, R149). -/
theorem State.loadSsDescriptor_eq_ok {s t : State} {sel : Selector} (h : s.loadSsDescriptor sel = .ok t) :
    ∃ d, s.descFetch sel = .desc d ∧ rpl sel = s.cpl ∧ d.isWritableData = true ∧ d.dpl = s.cpl ∧ d.p = true ∧
      t = s.loadDescriptor .ss sel d := by
  simp only [State.loadSsDescriptor] at h
  split at h
  · cases h
  · cases h
  · split at h <;> cases h
  · next d hd =>
    split at h
    · cases h
    · next h1 =>
      split at h
      · cases h
      · next h2 =>
        split at h
        · cases h
        · next h3 =>
          cases h
          simp only [not_or, Bool.not_eq_false, ne_eq, Decidable.not_not] at h1 h2
          exact ⟨d, hd, h1, h2.1, h2.2, eq_true_of_ne_false h3, rfl⟩

/-- Everything a completed segment-register load has done: by mode and register, which load it was and which checks
passed (41_segment_load.md R144 to R152). -/
theorem State.loadSegment_eq_ok {s t : State} {S : LoadSeg} {sel : Selector} (h : s.loadSegment S sel = .ok t) :
    ((s.mode = .real ∨ s.mode = .v86) ∧ t = s.loadRealV86 S.name sel) ∨
    ((s.mode ≠ .real ∧ s.mode ≠ .v86) ∧ S ≠ .ss ∧ (s.mode = .long64 → S.isDsEs = false) ∧
      ((isNull sel = true ∧ t = s.loadNull S.name sel) ∨
       (isNull sel = false ∧ ∃ d, s.descFetch sel = .desc d ∧ (d.isData || d.isReadableCode) = true ∧
        privilegeViolation s.cpl sel d = false ∧ d.p = true ∧ t = s.loadDescriptor S.name sel d))) ∨
    (s.mode = .long64 ∧ S = .ss ∧ isNull sel = true ∧ rpl sel ≠ 3 ∧ rpl sel = s.cpl ∧ t = s.loadNull .ss sel) ∨
    ((s.mode ≠ .real ∧ s.mode ≠ .v86) ∧ S = .ss ∧ isNull sel = false ∧ ∃ d, s.descFetch sel = .desc d ∧
      rpl sel = s.cpl ∧ d.isWritableData = true ∧ d.dpl = s.cpl ∧ d.p = true ∧ t = s.loadDescriptor .ss sel d) := by
  have hprot : s.mode = .prot ∨ s.mode = .compat → S = .ss → s.loadSsProt sel = .ok t →
      ((s.mode ≠ .real ∧ s.mode ≠ .v86) ∧ S = .ss ∧ isNull sel = false ∧ ∃ d, s.descFetch sel = .desc d ∧
      rpl sel = s.cpl ∧ d.isWritableData = true ∧ d.dpl = s.cpl ∧ d.p = true ∧ t = s.loadDescriptor .ss sel d) := by
    intro hm hS ht
    simp only [State.loadSsProt] at ht
    split at ht
    · cases ht
    · next hn =>
      refine ⟨?_, hS, eq_false_of_ne_true hn, State.loadSsDescriptor_eq_ok ht⟩
      rcases hm with hm | hm <;> simp [hm]
  cases hm : s.mode <;> simp only [State.loadSegment, hm] at h
  · cases h; exact .inl ⟨.inl rfl, rfl⟩
  · cases h; exact .inl ⟨.inr rfl, rfl⟩
  · cases S
    case ss => exact .inr (.inr (.inr (hm ▸ hprot (.inl hm) rfl h)))
    all_goals exact .inr (.inl ⟨by decide, by decide, by decide, State.loadData_eq_ok h⟩)
  · cases S
    case ss => exact .inr (.inr (.inr (hm ▸ hprot (.inr hm) rfl h)))
    all_goals exact .inr (.inl ⟨by decide, by decide, by decide, State.loadData_eq_ok h⟩)
  · cases S
    case ss =>
      simp only at h
      split at h
      · next hn =>
        simp only [State.loadSsNull64] at h
        split at h
        · cases h
        · next h2 =>
          cases h
          simp only [not_or, ne_eq, Decidable.not_not] at h2
          exact .inr (.inr (.inl ⟨rfl, rfl, hn, h2.1, h2.2, rfl⟩))
      · next hn =>
        exact .inr (.inr (.inr ⟨by decide, rfl, eq_false_of_ne_true hn, State.loadSsDescriptor_eq_ok h⟩))
    case ds => cases h
    case es => cases h
    all_goals exact .inr (.inl ⟨by decide, by decide, by decide, State.loadData_eq_ok h⟩)

/-- A completed load changes its one segment register, and the draw counter, and nothing else (10_state.md R37). -/
theorem State.loadSegment_frame {s t : State} {S : LoadSeg} {sel : Selector} (h : s.loadSegment S sel = .ok t) :
    ∃ r n, t = { s.setSeg S.name r with draws := n } := by
  rcases State.loadSegment_eq_ok h with
    ⟨-, ht⟩ | ⟨-, -, -, ⟨-, ht⟩ | ⟨-, d, -, -, -, -, ht⟩⟩ | ⟨-, hS, -, -, -, ht⟩ | ⟨-, hS, -, d, -, -, -, -, -, ht⟩
  · exact ⟨_, s.draws, ht⟩
  · exact ⟨_, s.draws + 1, ht⟩
  · exact ⟨_, s.draws, ht⟩
  · subst hS; exact ⟨_, s.draws + 1, ht⟩
  · subst hS; exact ⟨⟨sel, true, d⟩, s.draws, ht⟩

end Sys2Proof.Machine
end

