-- ==== Sys2Proof/Laws/PerInstr.lean ====
section
/-! SUPPORT. A statement about every constructor of `Instr`: the encoder writes as many bytes as the length rule says
(30_encoding.md R96). -/

namespace Sys2Proof.Laws.EncodedLength

/-- The bytes the encoder writes are as many as R96's sum. -/
def Statement (i : Instr) : Prop := (encode i).length = i.length

theorem ofParts (i : Instr) : Statement i := by
  simp only [Statement, encode, Instr.length, formLength, List.length_append, List.length_map, List.length_cons,
    Disp.length_encode]
  cases i.operands.rex <;> cases i.operands.sib <;> simp <;> omega

theorem lds16 (o : Operands) : Statement (.lds16 o) := ofParts _
theorem lds32 (o : Operands) : Statement (.lds32 o) := ofParts _
theorem lss16 (o : Operands) : Statement (.lss16 o) := ofParts _
theorem lss32 (o : Operands) : Statement (.lss32 o) := ofParts _
theorem lss64 (o : Operands) : Statement (.lss64 o) := ofParts _
theorem les16 (o : Operands) : Statement (.les16 o) := ofParts _
theorem les32 (o : Operands) : Statement (.les32 o) := ofParts _
theorem lfs16 (o : Operands) : Statement (.lfs16 o) := ofParts _
theorem lfs32 (o : Operands) : Statement (.lfs32 o) := ofParts _
theorem lfs64 (o : Operands) : Statement (.lfs64 o) := ofParts _
theorem lgs16 (o : Operands) : Statement (.lgs16 o) := ofParts _
theorem lgs32 (o : Operands) : Statement (.lgs32 o) := ofParts _
theorem lgs64 (o : Operands) : Statement (.lgs64 o) := ofParts _

end Sys2Proof.Laws.EncodedLength
end

