-- ==== Sys2Proof/Tests/Slice0.lean ====
section
/-! SUPPORT. Tests: the well-formedness smoke, words of the spec decoded, the worked examples of 40_load_far_pointer.md
R111 to R123 run for one step, and one witness for the hypotheses of every obligation that has hypotheses. Expected
results come from the spec (95_test_vectors.md V numbers, the worked examples), computed by hand there. -/

namespace Sys2Proof.Tests

open Sys2Proof Sys2Proof.Machine

/-! ## Helpers -/

/-- Bytes placed in memory from an address on. -/
def place (m : List Host.Cell) (a : Nat) : List Byte → List Host.Cell
  | [] => m
  | b :: bs => place (Memory.write m a b) (a + 1) bs

/-- General registers set to values. -/
def setRegs (s : State) : List (Fin 16 × BitVec 64) → State
  | [] => s
  | (r, v) :: rest => setRegs (s.setReg r ⟨v.setWidth 32, v.extractLsb' 32 32⟩) rest

/-- A descriptor of a type (with S = 1), DPL and presence, base 0, 4 GiB. -/
def descOf (typ : BitVec 4) (dpl : Level) (p : Bool) : Descriptor :=
  ⟨0, 0xFFFFFFFF, typ, true, dpl, p, false, false, true, true⟩

/-- A flat segment register with a selector: base 0, a limit of 4 GiB, valid (95_test_vectors.md, conventions). -/
def flat (sel : Selector) : SegmentRegister := ⟨sel, true, descOf 3 0 true⟩

/-- A small state: flat segments, code bytes at `pc`, one run of data bytes, descriptor answers. -/
def st (mode : Mode) (size : CodeSize) (cpl : Level) (pc : BitVec 64) (code : List Byte) (regs : List (Fin 16 × BitVec 64))
    (a : Nat) (data : List Byte) (answers : List (Selector × DescAnswer)) : State :=
  setRegs
    { State.reset with
      mode := mode, cpl := cpl, pc := pc, defaultOpSize := size, defaultAddrSize := size
      segs := ⟨flat 0, flat 0, flat 0, flat 0, flat 0, flat 0⟩
      mem := place (place [] pc.toNat code) a data, descAnswers := answers }
    regs

/-- The outcome is a next state that passes a check. -/
def nextIs (o : Host.Outcome State Fault Refusal) (good : State → Bool) : Bool :=
  match o with
  | .next t => good t
  | .fault _ | .refused _ => false

/-- The outcome is this fault. -/
def faultIs (o : Host.Outcome State Fault Refusal) (f : Fault) : Bool :=
  match o with
  | .fault f' => f' == f
  | .next _ | .refused _ => false

/-- The outcome is this refusal. -/
def refusalIs (o : Host.Outcome State Fault Refusal) (r : Refusal) : Bool :=
  match o with
  | .refused r' => r' == r
  | .next _ | .fault _ => false

/-- The decoder gives this instruction and takes every byte. -/
def decodesTo (env : DecodeEnv) (bytes : List Byte) (i : Instr) : Bool :=
  match decode env bytes with
  | .ok (i', rest) => i' == i && rest.isEmpty
  | .error _ => false

/-- The decoder stops for this reason. -/
def stopsWith (env : DecodeEnv) (bytes : List Byte) (e : DecodeStop) : Bool :=
  match decode env bytes with
  | .error e' => e' == e
  | .ok _ => false

def real16 : DecodeEnv := ⟨.real, .c16, .c16, true⟩
def prot32 : DecodeEnv := ⟨.prot, .c32, .c32, true⟩
def prot16 : DecodeEnv := ⟨.prot, .c16, .c16, true⟩
def long64 : DecodeEnv := ⟨.long64, .c16, .c16, true⟩

/-! ## Well-formedness smoke: one ill-formed term for each check, and a well-formed one -/

theorem test_wellFormed_accepts : wellFormed prot32 (.les32 ⟨[.segOverride .cs], none, .noDisp, 0, 6, none, .absent⟩) = true := by
  decide

/-- Two segment overrides (30_encoding.md R95). -/
theorem test_prefixesOk_refuses :
    let i := Instr.les32 ⟨[.segOverride .es, .segOverride .cs], none, .noDisp, 0, 6, none, .absent⟩;
    prefixesOk i.operands = false ∧ wellFormed prot32 i = false := by
  decide

/-- LOCK (30_encoding.md R93). -/
theorem test_noLock_refuses :
    let i := Instr.lss32 ⟨[.lock], none, .noDisp, 4, 0, none, .absent⟩;
    noLock i.operands = false ∧ wellFormed prot32 i = false := by
  decide

/-- REX outside 64-bit mode (30_encoding.md R86). -/
theorem test_rexOk_refuses :
    let i := Instr.lss32 ⟨[], some ⟨false, false, false, false⟩, .noDisp, 4, 0, none, .absent⟩;
    rexOk prot32 i.operands = false ∧ wellFormed prot32 i = false := by
  decide

/-- A 16-bit form where the operand-size attribute is 32 (30_encoding.md R85). -/
theorem test_widthOk_refuses :
    let i := Instr.lss16 ⟨[], none, .noDisp, 4, 0, none, .absent⟩;
    widthOk prot32 i = false ∧ wellFormed prot32 i = false := by
  decide

/-- LDS in 64-bit mode (30_encoding.md R94). -/
theorem test_destOk_refuses :
    let i := Instr.lds32 ⟨[], none, .noDisp, 6, 7, none, .absent⟩;
    destOk long64 i = false ∧ wellFormed long64 i = false := by
  decide

/-- No SIB byte where `rm` is 100 with 32-bit addressing (30_encoding.md R89). -/
theorem test_sibOk_refuses :
    let i := Instr.lgs32 ⟨[], none, .disp8, 0, 4, none, .d8 4⟩;
    sibOk prot32 i.operands = false ∧ wellFormed prot32 i = false := by
  decide

/-- A 16-bit displacement with 32-bit addressing (30_encoding.md R89). -/
theorem test_dispOk_refuses :
    let i := Instr.lss32 ⟨[], none, .noDisp, 0, 5, none, .d16 0x1000⟩;
    dispOk prot32 i.operands = false ∧ wellFormed prot32 i = false := by
  decide

/-! ## Decoding: a word of each constructor, bit by bit from the spec (30_encoding.md R81 to R90; 95_test_vectors.md 2.1,
worked examples of R111 to R123) -/

/-- V1.1 `C5 37`: ModRM 00 110 111. -/
theorem test_decode_lds16 : decodesTo real16 [0xC5, 0x37] (.lds16 ⟨[], none, .noDisp, 6, 7, none, .absent⟩) = true := by
  decide

/-- V1.4 `C5 03`: ModRM 00 000 011. -/
theorem test_decode_lds32 : decodesTo prot32 [0xC5, 0x03] (.lds32 ⟨[], none, .noDisp, 0, 3, none, .absent⟩) = true := by
  decide

/-- V1.11 `0F B2 06 00 05`: ModRM 00 000 110, disp16. -/
theorem test_decode_lss16 :
    decodesTo prot16 [0x0F, 0xB2, 0x06, 0x00, 0x05] (.lss16 ⟨[], none, .noDisp, 0, 6, none, .d16 0x0500⟩) = true := by
  decide

/-- V1.9 `0F B2 65 F8`: ModRM 01 100 101, disp8. -/
theorem test_decode_lss32 :
    decodesTo prot32 [0x0F, 0xB2, 0x65, 0xF8] (.lss32 ⟨[], none, .disp8, 4, 5, none, .d8 0xF8⟩) = true := by
  decide

/-- V1.15 `66 48 0F B2 20`: REX.W wins over `66`. -/
theorem test_decode_lss64 :
    decodesTo long64 [0x66, 0x48, 0x0F, 0xB2, 0x20]
      (.lss64 ⟨[.opSize], some ⟨true, false, false, false⟩, .noDisp, 4, 0, none, .absent⟩) = true := by
  decide

/-- R116 `C4 7E 04`: ModRM 01 111 110. -/
theorem test_decode_les16 : decodesTo real16 [0xC4, 0x7E, 0x04] (.les16 ⟨[], none, .disp8, 7, 6, none, .d8 4⟩) = true := by
  decide

/-- V1.8 `2E C4 06`. -/
theorem test_decode_les32 :
    decodesTo prot32 [0x2E, 0xC4, 0x06] (.les32 ⟨[.segOverride .cs], none, .noDisp, 0, 6, none, .absent⟩) = true := by
  decide

/-- V1.5 `66 0F B4 15 00 10 00 00`: ModRM 00 010 101, disp32. -/
theorem test_decode_lfs16 :
    decodesTo prot32 [0x66, 0x0F, 0xB4, 0x15, 0x00, 0x10, 0x00, 0x00]
      (.lfs16 ⟨[.opSize], none, .noDisp, 2, 5, none, .d32 0x1000⟩) = true := by
  decide

/-- V1.16 `44 0F B4 0B`: REX 0100 0100. -/
theorem test_decode_lfs32 :
    decodesTo long64 [0x44, 0x0F, 0xB4, 0x0B]
      (.lfs32 ⟨[], some ⟨false, true, false, false⟩, .noDisp, 1, 3, none, .absent⟩) = true := by
  decide

/-- V1.21 `4A 0F B4 04 20`: REX 0100 1010, SIB 00 100 000. -/
theorem test_decode_lfs64 :
    decodesTo long64 [0x4A, 0x0F, 0xB4, 0x04, 0x20]
      (.lfs64 ⟨[], some ⟨true, false, true, false⟩, .noDisp, 0, 4, some ⟨0, 4, 0⟩, .absent⟩) = true := by
  decide

/-- R121 `0F B5 1C`: ModRM 00 011 100. -/
theorem test_decode_lgs16 : decodesTo real16 [0x0F, 0xB5, 0x1C] (.lgs16 ⟨[], none, .noDisp, 3, 4, none, .absent⟩) = true := by
  decide

/-- V1.6 `0F B5 44 24 04`: ModRM 01 000 100, SIB 00 100 100. -/
theorem test_decode_lgs32 :
    decodesTo prot32 [0x0F, 0xB5, 0x44, 0x24, 0x04] (.lgs32 ⟨[], none, .disp8, 0, 4, some ⟨0, 4, 4⟩, .d8 4⟩) = true := by
  decide

/-- V1.18 `48 0F B5 05 10 00 00 00`. -/
theorem test_decode_lgs64 :
    decodesTo long64 [0x48, 0x0F, 0xB5, 0x05, 0x10, 0x00, 0x00, 0x00]
      (.lgs64 ⟨[], some ⟨true, false, false, false⟩, .noDisp, 0, 5, none, .d32 0x10⟩) = true := by
  decide

/-- V1.30, V1.31, V1.32, V1.33: #UD and the VEX bytes. -/
theorem test_decode_undefined :
    stopsWith prot32 [0x0F, 0xB2, 0xC0] .undefinedOpcode = true ∧
    stopsWith long64 [0xF0, 0x0F, 0xB2, 0x20] .undefinedOpcode = true ∧
    stopsWith long64 [0xC5, 0x37] .vexSpace = true ∧
    stopsWith ⟨.long64, .c16, .c16, false⟩ [0xC5, 0x37] .undefinedOpcode = true ∧
    stopsWith prot32 [0xC4, 0xC1] .vexSpace = true ∧
    stopsWith ⟨.prot, .c32, .c32, false⟩ [0xC4, 0xC1] .undefinedOpcode = true := by
  decide

/-- V1.35 to V1.40: the refusals. -/
theorem test_decode_refused :
    stopsWith real16 [0x0F, 0xB3, 0x20] .notInScope = true ∧
    stopsWith real16 [0xF3, 0x0F, 0xB2, 0x20] .prefixForm = true ∧
    stopsWith prot32 [0x48, 0x0F, 0xB2, 0x20] .notInScope = true ∧
    stopsWith prot32 [0x66, 0x66, 0x0F, 0xB2, 0x20] .prefixForm = true ∧
    stopsWith prot32 [0x26, 0x2E, 0xC4, 0x06] .prefixForm = true ∧
    stopsWith long64 [0x48, 0x66, 0x0F, 0xB2, 0x20] .prefixForm = true := by
  decide

/-- The opcode table's words give their rows' instructions. -/
theorem test_decodeTableWord :
    decodeTableWord 8 0xC5 = some (.lds16 ⟨[], none, .noDisp, 0, 0, none, .absent⟩) ∧
    decodeTableWord 16 0x0FB4 = some (.lfs16 ⟨[], none, .noDisp, 0, 0, none, .absent⟩) := by
  decide

/-! ## The worked examples of R111 to R123, one step each -/

/-- R111: `LDS SI,[BX]` in real-address mode. -/
theorem test_step_lds16 :
    nextIs (step { st .real .c16 0 0x1000 [0xC5, 0x37] [(3, 0x0200)] 0x10200 [0x78, 0x56, 0x34, 0x12] [] with
        segs := { (st .real .c16 0 0x1000 [] [] 0 [] []).segs with ds := ⟨0x1000, true, { descOf 3 0 true with base := 0x10000 }⟩ } })
      (fun t => t.x16 6 == 0x5678 && (t.seg .ds).sel == 0x1234 && (t.seg .ds).desc.base == 0x12340 && t.pc == 0x1002)
      = true := by
  decide

/-- R112: `LDS EAX,[EBX]` in protected mode. -/
theorem test_step_lds32 :
    nextIs (step (st .prot .c32 3 0x1000 [0xC5, 0x03] [(3, 0x2000)] 0x2000 [0x44, 0x33, 0x22, 0x11, 0x23, 0x00]
        [(0x0023, .desc (descOf 3 3 true))]))
      (fun t => t.x32 0 == 0x11223344 && t.seg .ds == ⟨0x0023, true, descOf 3 3 true⟩ && t.pc == 0x1002) = true := by
  decide

/-- V3.5: only RPL exceeds DPL, and the load faults (90 C3). -/
theorem test_step_lds32_privilege :
    faultIs (step (st .prot .c32 0 0x1000 [0xC5, 0x03] [(3, 0x2000)] 0x2000 [0x44, 0x33, 0x22, 0x11, 0x2B, 0x00]
      [(0x002B, .desc (descOf 3 0 true))])) (.generalProtection (some 0x0028)) = true := by
  decide

/-- R113: `LSS SP,[0x0500]` in real-address mode. -/
theorem test_step_lss16 :
    nextIs (step (st .real .c16 0 0x1000 [0x0F, 0xB2, 0x26, 0x00, 0x05] [] 0x0500 [0x00, 0x01, 0x00, 0x20] []))
      (fun t => t.x16 4 == 0x0100 && (t.seg .ss).sel == 0x2000 && (t.seg .ss).desc.base == 0x20000 && t.pc == 0x1005)
      = true := by
  decide

/-- V6.3: `LSS CX,[RAX]` in 64-bit mode keeps bits 63:16. -/
theorem test_step_lss16_width :
    nextIs (step (st .long64 .c16 0 0x1000 [0x66, 0x0F, 0xB2, 0x08] [(0, 0x2000), (1, 0xAAAAAAAAAAAAAAAA)] 0x2000
        [0x34, 0x12, 0x10, 0x00] [(0x0010, .desc (descOf 3 0 true))]))
      (fun t => t.x64 1 == 0xAAAAAAAAAAAA1234) = true := by
  decide

/-- R114: `LSS ESP,[EAX]` in protected mode. -/
theorem test_step_lss32 :
    nextIs (step (st .prot .c32 0 0x1000 [0x0F, 0xB2, 0x20] [(0, 0x3000)] 0x3000 [0x00, 0xF0, 0x09, 0x00, 0x10, 0x00]
        [(0x0010, .desc (descOf 3 0 true))]))
      (fun t => t.x32 4 == 0x0009F000 && (t.seg .ss).sel == 0x0010 && (t.seg .ss).valid && t.pc == 0x1003) = true := by
  decide

/-- V7.14: LSS at CPL 3 of a selector with RPL 0. -/
theorem test_step_lss32_rpl :
    faultIs (step (st .prot .c32 3 0x1000 [0x0F, 0xB2, 0x00] [(0, 0x5555)] 0x5555 [0x00, 0xF0, 0x09, 0x00, 0x10, 0x00]
      [(0x0010, .desc (descOf 3 0 true))])) (.generalProtection (some 0x0010)) = true := by
  decide

/-- R115: `LSS RSP,[RAX]` in 64-bit mode. -/
theorem test_step_lss64 :
    nextIs (step (st .long64 .c16 0 0x1000 [0x48, 0x0F, 0xB2, 0x20] [(0, 0x4000)] 0x4000
        [0x00, 0x00, 0x00, 0x00, 0x80, 0xFF, 0xFF, 0xFF, 0x18, 0x00] [(0x0018, .desc (descOf 3 0 true))]))
      (fun t => t.x64 4 == 0xFFFFFF8000000000 && (t.seg .ss).sel == 0x0018 && (t.seg .ss).valid && t.pc == 0x1004)
      = true := by
  decide

/-- V7.6: the operand's last byte is not canonical. -/
theorem test_step_lss64_canonical :
    faultIs (step (st .long64 .c16 0 0x1000 [0x48, 0x0F, 0xB2, 0x20] [(0, 0x00007FFFFFFFFFF8)] 0 [] []))
      (.generalProtection (some 0)) = true := by
  decide

/-- R116: `LES DI,[BP+4]` in real-address mode, read through SS. -/
theorem test_step_les16 :
    nextIs (step { st .real .c16 0 0x1000 [0xC4, 0x7E, 0x04] [(5, 0x0100)] 0x30104 [0x10, 0x00, 0x00, 0xB8] [] with
        segs := { (st .real .c16 0 0x1000 [] [] 0 [] []).segs with ss := ⟨0x3000, true, { descOf 3 0 true with base := 0x30000 }⟩ } })
      (fun t => t.x16 7 == 0x0010 && (t.seg .es).sel == 0xB800 && (t.seg .es).desc.base == 0xB8000 && t.pc == 0x1003)
      = true := by
  decide

/-- R117: `LES ECX,[ESI+8]` in protected mode, a NULL selector. -/
theorem test_step_les32 :
    nextIs (step (st .prot .c32 3 0x1000 [0xC4, 0x4E, 0x08] [(6, 0x5000)] 0x5008 [0x00, 0x10, 0x00, 0x00, 0x00, 0x00] []))
      (fun t => t.x32 1 == 0x1000 && (t.seg .es).sel == 0 && !(t.seg .es).valid && t.pc == 0x1003) = true := by
  decide

/-- R118: `LFS DX,[0x00001000]` in protected mode keeps EDX's upper half. -/
theorem test_step_lfs16 :
    nextIs (step (st .prot .c32 3 0x4000 [0x66, 0x0F, 0xB4, 0x15, 0x00, 0x10, 0x00, 0x00] [(2, 0x11112222)] 0x1000
        [0xCD, 0xAB, 0x3B, 0x00] [(0x003B, .desc (descOf 1 3 true))]))
      (fun t => t.x32 2 == 0x1111ABCD && (t.seg .fs).sel == 0x003B && (t.seg .fs).valid && t.pc == 0x4008) = true := by
  decide

/-- R119: `LFS R9D,[RBX]` in 64-bit mode clears bits 63:32. -/
theorem test_step_lfs32 :
    nextIs (step (st .long64 .c16 3 0x1000 [0x44, 0x0F, 0xB4, 0x0B] [(9, 0xFFFFFFFFFFFFFFFF), (3, 0x6000)] 0x6000
        [0x78, 0x56, 0x34, 0x12, 0x33, 0x00] [(0x0033, .desc (descOf 3 3 true))]))
      (fun t => t.x64 9 == 0x12345678 && (t.seg .fs).sel == 0x0033 && (t.seg .fs).valid && t.pc == 0x1004) = true := by
  decide

/-- R120: `LFS RAX,[RDI]` in 64-bit mode, a NULL selector. -/
theorem test_step_lfs64 :
    nextIs (step (st .long64 .c16 2 0x1000 [0x48, 0x0F, 0xB4, 0x07] [(7, 0x7000)] 0x7000
        [0xEF, 0xCD, 0xAB, 0x89, 0x67, 0x45, 0x23, 0x01, 0x00, 0x00] []))
      (fun t => t.x64 0 == 0x0123456789ABCDEF && (t.seg .fs).sel == 0 && !(t.seg .fs).valid && t.pc == 0x1004) = true := by
  decide

/-- R121: `LGS BX,[SI]` in real-address mode. -/
theorem test_step_lgs16 :
    nextIs (step (st .real .c16 0 0x1000 [0x0F, 0xB5, 0x1C] [(6, 0x0010)] 0x0010 [0xFF, 0xFF, 0x00, 0xF0] []))
      (fun t => t.x16 3 == 0xFFFF && (t.seg .gs).sel == 0xF000 && (t.seg .gs).desc.base == 0xF0000 && t.pc == 0x1003)
      = true := by
  decide

/-- R122: `LGS EAX,[ESP+4]` in protected mode, a readable conforming code segment of DPL 0 at CPL 3. -/
theorem test_step_lgs32 :
    nextIs (step (st .prot .c32 3 0x1000 [0x0F, 0xB5, 0x44, 0x24, 0x04] [(4, 0xFFF0)] 0xFFF4
        [0xEF, 0xBE, 0xAD, 0xDE, 0x0B, 0x00] [(0x000B, .desc (descOf 0xE 0 true))]))
      (fun t => t.x32 0 == 0xDEADBEEF && (t.seg .gs).sel == 0x000B && (t.seg .gs).valid && t.pc == 0x1005) = true := by
  decide

/-- R123: `LGS R10,[R11+0x10]` in 64-bit mode, a segment not present. -/
theorem test_step_lgs64 :
    faultIs (step (st .long64 .c16 3 0x1000 [0x4D, 0x0F, 0xB5, 0x53, 0x10] [(11, 0x8000)] 0x8010
      [0x00, 0x10, 0x00, 0x00, 0x00, 0x00, 0x00, 0x00, 0x2B, 0x00] [(0x002B, .desc (descOf 3 3 false))]))
      (.segmentNotPresent 0x0028) = true := by
  decide

/-- Program P3's last step: `LGS R8,[RAX+0x10]`. -/
theorem test_step_lgs64_loads :
    nextIs (step (st .long64 .c16 0 0x400008 [0x4C, 0x0F, 0xB5, 0x40, 0x10] [(0, 0x5000)] 0x5010
        [0xEF, 0xCD, 0xAB, 0x89, 0x67, 0x45, 0x23, 0x01, 0x2B, 0x00] [(0x002B, .desc (descOf 3 3 true))]))
      (fun t => t.x64 8 == 0x0123456789ABCDEF && (t.seg .gs).sel == 0x002B && t.pc == 0x40000D) = true := by
  decide

/-- V2.7: the operand runs past the top of the 16-bit address space. -/
theorem test_step_wrap :
    refusalIs (step (st .real .c16 0 0x1000 [0xC5, 0x37] [(3, 0xFFFD)] 0 [] [])) .operandWrapsAddressSpace = true := by
  decide

/-! ## Witnesses: for every obligation with hypotheses, inputs that meet all of them together -/

/-! ### Encoding -/

theorem witness_DecodeOfEncodeIsTheInstruction :
    wellFormed long64 (.lgs64 ⟨[.segOverride .fs, .addrSize], some ⟨true, true, true, true⟩, .dispFull, 7, 4,
      some ⟨3, 4, 5⟩, .d32 0xFFFFFFFF⟩) = true := by
  decide

/-- The shortest instruction, 2 bytes, and the longest that decodes, 12 (the 13 of R96 counts a LOCK, which is #UD). -/
theorem witness_DecodedBytesAreTheEncoding :
    (∃ i, decode prot32 [0xC5, 0x03, 0xAA] = .ok (i, [0xAA]) ∧ i.length = 2) ∧
    (∃ i, decode long64 [0x64, 0x66, 0x67, 0x4F, 0x0F, 0xB5, 0xBC, 0xE5, 1, 2, 3, 4] = .ok (i, []) ∧ i.length = 12) :=
  ⟨⟨_, rfl, rfl⟩, ⟨_, rfl, rfl⟩⟩

theorem witness_DecodedLengthIsTheSumAndTwoToThirteen :
    ∃ i, decode prot32 [0x0F, 0xB5, 0x44, 0x24, 0x04, 0xAA] = .ok (i, [0xAA]) := ⟨_, rfl⟩

/-- One decoded word for each of the seven clauses. -/
theorem witness_DecodedWidthIsTheOperandSizeAttribute :
    (∃ i, decode long64 [0x66, 0x48, 0x0F, 0xB2, 0x20] = .ok (i, []) ∧ i.width = .s64) ∧
    (∃ i, decode long64 [0x66, 0x0F, 0xB2, 0x20] = .ok (i, []) ∧ i.width = .s16) ∧
    (∃ i, decode long64 [0x44, 0x0F, 0xB4, 0x0B] = .ok (i, []) ∧ i.width = .s32) ∧
    (∃ i, decode prot32 [0x66, 0xC5, 0x03] = .ok (i, []) ∧ i.width = .s16) ∧
    (∃ i, decode prot32 [0xC5, 0x03] = .ok (i, []) ∧ i.width = .s32) ∧
    (∃ i, decode real16 [0x66, 0xC5, 0x37] = .ok (i, []) ∧ i.width = .s32) ∧
    (∃ i, decode real16 [0xC5, 0x37] = .ok (i, []) ∧ i.width = .s16) :=
  ⟨⟨_, rfl, rfl⟩, ⟨_, rfl, rfl⟩, ⟨_, rfl, rfl⟩, ⟨_, rfl, rfl⟩, ⟨_, rfl, rfl⟩, ⟨_, rfl, rfl⟩, ⟨_, rfl, rfl⟩⟩

theorem witness_LockPrefixIsUndefinedOpcode :
    distinctGroups [] [.lock, .opSize] = true ∧ LegacyPrefix.lock ∈ [LegacyPrefix.lock, .opSize] ∧
    ((some (⟨true, false, false, false⟩ : Rex)) ≠ none → long64.mode = .long64) ∧
    (real16.vex = false ∨ (real16.mode ≠ .long64 ∧ (0x37 : Byte).extractLsb' 6 2 ≠ 3)) := by
  decide

theorem witness_RegisterSourceIsUndefinedOpcode :
    distinctGroups [] [.segOverride .es] = true ∧ (0xC0 : Byte).extractLsb' 6 2 = 3 ∧
    ((none : Option Rex) ≠ none → prot32.mode = .long64) ∧ (⟨.prot, .c32, .c32, false⟩ : DecodeEnv).vex = false := by
  decide

/-- Both ways into the VEX space: 64-bit mode, and a byte with bits 7:6 = 11. -/
theorem witness_LdsLesBytesInVexSpace :
    distinctGroups [] ([] : List LegacyPrefix) = true ∧ long64.mode = .long64 ∧ long64.vex = true ∧
    prot32.mode ≠ .long64 ∧ (0xC1 : Byte).extractLsb' 6 2 = 3 ∧ (⟨.prot, .c32, .c32, false⟩ : DecodeEnv).vex = false := by
  decide

theorem witness_PrefixCombinationsRefused :
    distinctGroups [] [.segOverride .es, .opSize] = true ∧
    LegacyPrefix.segOverride .es ∈ [LegacyPrefix.segOverride .es, .opSize] ∧
    (LegacyPrefix.segOverride .cs).group = (LegacyPrefix.segOverride .es).group ∧ long64.mode = .long64 := by
  decide

/-- An opcode next to each end of the excluded ranges, in 64-bit mode and outside it. -/
theorem witness_OtherOpcodesRefused :
    distinctGroups [] [.opSize] = true ∧
    (∀ b ∈ [0x3F, 0x50, 0xC3, 0xC6, 0x0E, 0xFF],
      b ∉ ([0xC4, 0xC5, 0x0F, 0xF0, 0xF2, 0xF3, 0x26, 0x2E, 0x36, 0x3E, 0x64, 0x65, 0x66, 0x67] : List Byte) ∧
        (b < 0x40 ∨ 0x4F < b)) ∧
    (∀ c ∈ [0xB1, 0xB3, 0xB6], c ∉ ([0xB2, 0xB4, 0xB5] : List Byte)) ∧ prot32.mode ≠ .long64 ∧ long64.mode = .long64 := by
  decide

/-! ### Addressing -/

/-- A displacement of each size, at the boundary values 80 and 7F. -/
theorem witness_DispBytes :
    DispBytes .s16 (n := 16) .noDisp [] 0 ∧ DispBytes .s16 (n := 16) .disp8 [0x80] 0xFF80 ∧
    DispBytes .s16 (n := 16) .dispFull [0x34, 0x12] 0x1234 ∧ DispBytes .s32 (n := 32) .disp8 [0x7F] 0x7F ∧
    DispBytes .s32 (n := 32) .dispFull [0x78, 0x56, 0x34, 0x12] 0x12345678 ∧
    DispBytes .s64 (n := 64) .dispFull [0, 0, 0, 0x80] 0xFFFFFFFF80000000 :=
  ⟨⟨rfl, rfl⟩, ⟨_, rfl, by decide⟩, ⟨_, _, rfl, by decide⟩, ⟨_, rfl, by decide⟩, ⟨_, _, _, _, rfl, by decide⟩,
    ⟨_, _, _, _, rfl, by decide⟩⟩

/-- 16-bit addressing by default and by prefix 67; a `BP` base needs a displacement, `BX` does not. -/
theorem witness_SixteenBitAddressingTable :
    (let s := st .real .c16 0 0 [] [] 0 [] []; s.mode ≠ .long64 ∧ s.defaultAddrSize = .c16) ∧
    (let s := st .prot .c32 0 0 [] [] 0 [] []; s.mode ≠ .long64 ∧ s.defaultAddrSize = .c32) ∧
    ¬ (Mod.disp8 = .noDisp ∧ (6 : BitVec 3) = 6) ∧ ¬ (Mod.noDisp = .noDisp ∧ (7 : BitVec 3) = 6) := by
  decide

/-- 32-bit addressing by default and by prefix 67; an `EBP` base with a displacement. -/
theorem witness_ThirtyTwoBitAddressingTable :
    (let s := st .prot .c32 0 0 [] [] 0 [] []; s.mode ≠ .long64 ∧ s.defaultAddrSize = .c32) ∧
    (let s := st .real .c16 0 0 [] [] 0 [] []; s.mode ≠ .long64 ∧ s.defaultAddrSize = .c16) ∧
    (5 : BitVec 3) ≠ 4 ∧ ¬ (Mod.disp8 = .noDisp ∧ (5 : BitVec 3) = 5) ∧ (5 : Fin 16).val = (5 : BitVec 3).toNat := by
  decide

theorem witness_SixtyFourBitAddressing :
    (st .long64 .c16 0 0 [] [] 0 [] []).mode = .long64 ∧ (13 : Fin 16).val = (if true then 8 else 0) + (5 : BitVec 3).toNat ∧
    (12 : Fin 16).val = (if true then 8 else 0) + (4 : BitVec 3).toNat ∧
    (4 : Fin 16).val = (if false then 8 else 0) + (4 : BitVec 3).toNat := by
  decide

theorem witness_ThirtyTwoBitAddressingInSixtyFourBitMode :
    (st .long64 .c16 0 0 [] [] 0 [] []).mode = .long64 ∧ (15 : Fin 16).val = (if true then 8 else 0) + (7 : BitVec 3).toNat ∧
    (7 : BitVec 3) ≠ 4 ∧ ¬ (Mod.noDisp = .noDisp ∧ (7 : BitVec 3) = 5) := by
  decide

theorem witness_SegmentOverrideNamesTheOperandSegment :
    let o : Operands := ⟨[.opSize, .segOverride .cs], none, .noDisp, 0, 6, none, .absent⟩;
    prefixesOk (Instr.lfs16 o).operands = true ∧ LegacyPrefix.segOverride .cs ∈ (Instr.lfs16 o).operands.pre := by
  decide

/-- A state of each kind the clauses speak of. -/
theorem witness_LinearAddressOfEffectiveAddress :
    (st .compat .c32 0 0 [] [] 0 [] []).mode ≠ .long64 ∧ (st .long64 .c16 0 0 [] [] 0 [] []).mode = .long64 ∧
    SegName.ss ∈ [SegName.cs, .ds, .es, .ss] := by
  decide

theorem witness_MemReadIsLittleEndian :
    4 ∈ [2, 4, 8] ∧
    (match (st .prot .c32 0 0 [] [] 0x2000 [0x44, 0x33, 0x22, 0x11] []).memRead .ds .s32 0x2000 4 with
      | .ok v => v == 0x11223344
      | .error _ => false) = true := by
  decide

/-! ### The step -/

theorem witness_StepRunsTheInstructionAtPc :
    let s := st .prot .c32 3 0x1000 [0x0F, 0xB5, 0x44, 0x24, 0x04] [] 0 [] []
    let i := Instr.lgs32 ⟨[], none, .disp8, 0, 4, some ⟨0, 4, 4⟩, .d8 4⟩;
    wellFormed s.env i = true ∧
    ∀ k (hk : k < (encode i).length), s.fetchPhys k = some (0x1000 + k) ∧ Memory.read s.mem (0x1000 + k) = (encode i)[k] := by
  decide

/-- A state for each of the six ways. -/
theorem witness_StepOverBytesThatAreNoInstruction :
    stopsWith prot32 (st .prot .c32 0 0 [0x0F, 0xB2, 0xC0] [] 0 [] []).fetch .undefinedOpcode = true ∧
    stopsWith prot32 (st .prot .c32 0 0 [0x90] [] 0 [] []).fetch .notInScope = true ∧
    stopsWith prot32 (st .prot .c32 0 0 [0xF3] [] 0 [] []).fetch .prefixForm = true ∧
    stopsWith prot32 (st .prot .c32 0 0 [0xC4, 0xC1] [] 0 [] []).fetch .vexSpace = true ∧
    stopsWith real16 (st .real .c16 0 0xFFFF [0xC5] [] 0 [] []).fetch .outOfBytes = true ∧
    (st .long64 .c16 0 0x0000800000000000 [] [] 0 [] []).fetchPhys 0 = none := by
  decide

/-- Past the top, past the limit, not canonical, on a page that faults; each at the first byte that is out. -/
theorem witness_FetchStopsAtTheEdges :
    (let s := st .real .c16 0 0xFFFF [] [] 0 [] [];
      2 ^ s.codeBits ≤ s.codeOffset + 1 ∧ s.fetchPhys 0 = some 0xFFFF) ∧
    (State.reset.seg .cs).desc.limit.toNat < State.reset.codeOffset + 0x10 ∧
    (let s := st .long64 .c16 0 0x00007FFFFFFFFFFF [] [] 0 [] [];
      canonical s.params.vaBits (s.pc + BitVec.ofNat 64 1) = false ∧ s.fetchPhys 0 = some 0x00007FFFFFFFFFFF) ∧
    (let s := { st .prot .c32 0 0x1FFF [] [] 0 [] [] with paging := ⟨[⟨.codeFetch, 0x2000, 0x1000, .pageFault 4⟩], none⟩ };
      s.translate .codeFetch (s.linearAdd s.fetchLinear 1) = .pageFault 4 ∧ s.fetchPhys 0 = some 0x1FFF) := by
  decide

/-! ### The instructions, mode by mode -/

/-- The answers the witnesses' selectors get: the numbers in the names are DPLs. -/
def answers : List (Selector × DescAnswer) :=
  [(0x0008, .outOfLimits), (0x0010, .desc (descOf 3 0 true)), (0x0013, .desc (descOf 3 0 true)), (0x0018, .nonCanonical),
   (0x0020, .pageFault 4), (0x0023, .pageFault 4), (0x0028, .desc (descOf 1 0 true)), (0x0030, .desc (descOf 3 3 true)),
   (0x0038, .desc (descOf 3 0 false)), (0x0040, .desc (descOf 8 0 true)), (0x004B, .desc (descOf 0xE 0 true)),
   (0x0053, .desc (descOf 0xE 0 false)), (0x0058, .desc (descOf 0xA 3 true))]

/-- An offset, all bytes different. -/
def offset (w : Size) : BitVec 64 :=
  match w with
  | .s16 => 0x7788
  | .s32 => 0x55667788
  | .s64 => 0x1122334455667788

/-- A state whose register 3 points at a far pointer of width `w` with selector `sel`, at address 0x2000. -/
def farState (mode : Mode) (size : CodeSize) (cpl : Level) (w : Size) (sel : Selector) : State :=
  st mode size cpl 0x1000 [] [(3, 0x2000)] 0x2000
    ((List.range w.bytes).map (fun k => (offset w).extractLsb' (8 * k) 8) ++ [sel.extractLsb' 0 8, sel.extractLsb' 8 8])
    answers

/-- `[BX]`, `[EBX]` or `[RBX]` with the prefixes that give width `w` in the mode's default sizes. -/
def farOps (mode : Mode) (w : Size) : Operands :=
  match mode with
  | .real | .v86 => ⟨if w = .s32 then [.opSize] else [], none, .noDisp, 0, 7, none, .absent⟩
  | .prot | .compat => ⟨if w = .s16 then [.opSize] else [], none, .noDisp, 0, 3, none, .absent⟩
  | .long64 =>
    ⟨if w = .s16 then [.opSize] else [], if w = .s64 then some ⟨true, false, false, false⟩ else none, .noDisp, 0, 3, none,
      .absent⟩

/-- The state with the other reading of the order of exceptions. -/
def anyOrder (s : State) : State := { s with params := { s.params with faultOrder := .anyApplicable } }

/-- `FarPointerAt` as a Boolean. -/
def farPointerAtB (s : State) (i : Instr) (off : BitVec 64) (sel : Selector) : Bool :=
  decide (OperandFits s i) && decide (OperandSegmentUsable s i) && decide (OperandInRange s i) && decide (OperandAligned s i)
    && decide (∀ k < (i.width.bytes : Nat), s.operandByte i k = some (off.extractLsb' (8 * k) 8))
    && decide (off.toNat < 2 ^ i.width.bits)
    && decide (∀ k < (2 : Nat), s.operandByte i (i.width.bytes + k) = some (sel.extractLsb' (8 * k) 8))

theorem farPointerAt_of {s : State} {i : Instr} {off : BitVec 64} {sel : Selector} (h : farPointerAtB s i off sel = true) :
    FarPointerAt s i off sel := by
  simp only [farPointerAtB, Bool.and_eq_true, decide_eq_true_eq] at h
  exact ⟨h.1.1.1.1.1.1, h.1.1.1.1.1.2, h.1.1.1.1.2, h.1.1.1.2, h.1.1.2, h.1.2, h.2⟩

theorem witness_RealAndVirtualModeLoadCompletes_real :
    let o := farOps .real .s16
    let p := farOps .real .s32;
    (∀ i ∈ [Instr.lds16 o, .lss16 o, .les16 o, .lfs16 o, .lgs16 o],
      i.operands.hasLock = false ∧ FarPointerAt (farState .real .c16 0 .s16 0xFFFF) i (offset .s16) 0xFFFF) ∧
    (∀ i ∈ [Instr.lds32 p, .lss32 p, .les32 p, .lfs32 p, .lgs32 p],
      i.operands.hasLock = false ∧ FarPointerAt (farState .real .c16 0 .s32 0xFFFF) i (offset .s32) 0xFFFF) := by
  constructor <;> intro i hi <;> fin_cases hi <;> exact ⟨by decide, farPointerAt_of (by decide)⟩

theorem witness_RealAndVirtualModeLoadCompletes_v86 :
    let o := farOps .v86 .s16;
    (farState .v86 .c16 3 .s16 0).mode = .v86 ∧ ∀ i ∈ [Instr.lds16 o, .lss16 o, .les16 o, .lfs16 o, .lgs16 o],
      i.operands.hasLock = false ∧ FarPointerAt (farState .v86 .c16 3 .s16 0) i (offset .s16) 0 := by
  refine ⟨rfl, ?_⟩
  intro i hi
  fin_cases hi <;> exact ⟨by decide, farPointerAt_of (by decide)⟩

/-- Each clause: NULL at both ends of its range; out of limits; RPL other than CPL; page fault; not writable data; DPL other
than CPL; not present; and a selector that loads. -/
theorem witness_ProtectedModeLssOutcomes :
    (∀ sel ∈ [0x0000, 0x0003, 0x0008, 0x0013, 0x0020, 0x0023, 0x0028, 0x0030, 0x0038, 0x0010],
      FarPointerAt (anyOrder (farState .prot .c32 0 .s32 sel)) (.lss32 (farOps .prot .s32)) (offset .s32) sel ∧
      FarPointerAt (farState .prot .c32 0 .s32 sel) (.lss32 (farOps .prot .s32)) (offset .s32) sel ∧
      FarPointerAt (farState .compat .c32 0 .s16 sel) (.lss16 (farOps .compat .s16)) (offset .s16) sel) ∧
    (let s := farState .prot .c32 0 .s32 0;
      s.cpl = 0 ∧ isNull 0x0000 = true ∧ isNull 0x0003 = true ∧ isNull 0x0008 = false ∧
      s.descFetch 0x0008 = .outOfLimits ∧ rpl 0x0013 ≠ s.cpl ∧ s.descFetch 0x0013 = .desc (descOf 3 0 true) ∧
      s.descFetch 0x0020 = .pageFault 4 ∧ rpl 0x0020 = s.cpl ∧ s.descFetch 0x0023 = .pageFault 4 ∧ rpl 0x0023 ≠ s.cpl ∧
      s.params.faultOrder = .fixed ∧ (anyOrder s).params.faultOrder = .anyApplicable ∧
      s.descFetch 0x0028 = .desc (descOf 1 0 true) ∧ (descOf 1 0 true).kind = .dataRO ∧
      s.descFetch 0x0030 = .desc (descOf 3 3 true) ∧ (descOf 3 3 true).dpl ≠ s.cpl ∧
      s.descFetch 0x0038 = .desc (descOf 3 0 false) ∧ (descOf 3 0 false).kind = .dataRW ∧
      s.descFetch 0x0010 = .desc (descOf 3 0 true) ∧ rpl 0x0010 = s.cpl ∧ (descOf 3 0 true).p = true) := by
  refine ⟨?_, by decide⟩
  intro sel hs
  fin_cases hs <;> exact ⟨farPointerAt_of (by decide), farPointerAt_of (by decide), farPointerAt_of (by decide)⟩

/-- Each clause: out of limits; page fault; code that cannot be read; data whose DPL only RPL exceeds; a readable conforming
code segment of DPL 0 at RPL 3, absent and present; data at equal levels. -/
theorem witness_ProtectedModeDataLoadOutcomes :
    (∀ sel ∈ [0x0008, 0x0020, 0x0040, 0x0013, 0x0053, 0x004B, 0x0010],
      FarPointerAt (farState .prot .c32 0 .s32 sel) (.lds32 (farOps .prot .s32)) (offset .s32) sel ∧ isNull sel = false) ∧
    (∀ i ∈ [Instr.les32 (farOps .prot .s32), .lfs32 (farOps .prot .s32), .lgs32 (farOps .prot .s32)],
      FarPointerAt (farState .compat .c32 0 .s32 0x0010) i (offset .s32) 0x0010) ∧
    (∀ i ∈ [Instr.lds16 (farOps .prot .s16), .les16 (farOps .prot .s16), .lfs16 (farOps .prot .s16),
        .lgs16 (farOps .prot .s16)],
      FarPointerAt (farState .compat .c32 0 .s16 0x0010) i (offset .s16) 0x0010) ∧
    (let s := farState .prot .c32 0 .s32 0;
      s.descFetch 0x0008 = .outOfLimits ∧ s.descFetch 0x0020 = .pageFault 4 ∧
      s.descFetch 0x0040 = .desc (descOf 8 0 true) ∧ (descOf 8 0 true).kind = .codeXNC ∧
      s.descFetch 0x0013 = .desc (descOf 3 0 true) ∧ rpl 0x0013 > (descOf 3 0 true).dpl ∧
      s.descFetch 0x0053 = .desc (descOf 0xE 0 false) ∧ (descOf 0xE 0 false).kind = .codeXRC ∧
      s.descFetch 0x004B = .desc (descOf 0xE 0 true) ∧
      s.descFetch 0x0010 = .desc (descOf 3 0 true) ∧ rpl 0x0010 ≤ (descOf 3 0 true).dpl ∧ s.cpl ≤ (descOf 3 0 true).dpl) := by
  refine ⟨?_, ?_, ?_, by decide⟩
  · intro sel hs
    fin_cases hs <;> exact ⟨farPointerAt_of (by decide), by decide⟩
  · intro i hi
    fin_cases hi <;> exact farPointerAt_of (by decide)
  · intro i hi
    fin_cases hi <;> exact farPointerAt_of (by decide)

/-- NULL at both ends of its range. -/
theorem witness_ProtectedModeNullLoadCompletes :
    ∀ sel ∈ [0x0000, 0x0003],
      FarPointerAt (farState .prot .c32 3 .s32 sel) (.les32 (farOps .prot .s32)) (offset .s32) sel ∧ isNull sel = true := by
  intro sel hs
  fin_cases hs <;> exact ⟨farPointerAt_of (by decide), by decide⟩

/-- Each clause of the 64-bit SS load, at each width. -/
theorem witness_SixtyFourBitModeLssOutcomes :
    (∀ sel ∈ [0x0018, 0x0008, 0x0013, 0x0020, 0x0023, 0x0028, 0x0030, 0x0038, 0x0010],
      FarPointerAt (farState .long64 .c16 0 .s64 sel) (.lss64 (farOps .long64 .s64)) (offset .s64) sel ∧ isNull sel = false) ∧
    FarPointerAt (farState .long64 .c16 0 .s32 0x0010) (.lss32 (farOps .long64 .s32)) (offset .s32) 0x0010 ∧
    FarPointerAt (farState .long64 .c16 0 .s16 0x0010) (.lss16 (farOps .long64 .s16)) (offset .s16) 0x0010 ∧
    (let s := farState .long64 .c16 0 .s64 0;
      s.descFetch 0x0018 = .nonCanonical ∧ s.descFetch 0x0008 = .outOfLimits ∧ rpl 0x0013 ≠ s.cpl ∧
      s.descFetch 0x0013 = .desc (descOf 3 0 true) ∧ s.descFetch 0x0020 = .pageFault 4 ∧ rpl 0x0020 = s.cpl ∧
      s.descFetch 0x0023 = .pageFault 4 ∧ rpl 0x0023 ≠ s.cpl ∧
      s.descFetch 0x0028 = .desc (descOf 1 0 true) ∧ s.descFetch 0x0030 = .desc (descOf 3 3 true) ∧
      s.descFetch 0x0038 = .desc (descOf 3 0 false) ∧ s.descFetch 0x0010 = .desc (descOf 3 0 true)) := by
  refine ⟨?_, farPointerAt_of (by decide), farPointerAt_of (by decide), by decide⟩
  intro sel hs
  fin_cases hs <;> exact ⟨farPointerAt_of (by decide), by decide⟩

/-- 95_test_vectors.md 2.5: RPL 2 loads at CPL 2; RPL 1 does not; nothing loads at CPL 3. -/
theorem witness_SixtyFourBitModeNullLssOutcomes :
    (∀ sel ∈ [0x0001, 0x0002],
      FarPointerAt (farState .long64 .c16 2 .s64 sel) (.lss64 (farOps .long64 .s64)) (offset .s64) sel) ∧
    FarPointerAt (farState .long64 .c16 3 .s64 0x0003) (.lss64 (farOps .long64 .s64)) (offset .s64) 0x0003 ∧
    isNull 0x0001 = true ∧ rpl 0x0001 ≠ (farState .long64 .c16 2 .s64 0).cpl ∧
    isNull 0x0002 = true ∧ rpl 0x0002 = (farState .long64 .c16 2 .s64 0).cpl ∧ isNull 0x0003 = true := by
  refine ⟨?_, farPointerAt_of (by decide), by decide, by decide, by decide, by decide, by decide⟩
  intro sel hs
  fin_cases hs <;> exact farPointerAt_of (by decide)

/-- Each clause of the 64-bit FS and GS load, and each form. -/
theorem witness_SixtyFourBitModeFsGsOutcomes :
    (∀ sel ∈ [0x0018, 0x0008, 0x0020, 0x0040, 0x0013, 0x0053, 0x004B, 0x0010],
      FarPointerAt (farState .long64 .c16 0 .s64 sel) (.lfs64 (farOps .long64 .s64)) (offset .s64) sel ∧ isNull sel = false) ∧
    FarPointerAt (farState .long64 .c16 0 .s64 0x0010) (.lgs64 (farOps .long64 .s64)) (offset .s64) 0x0010 ∧
    (∀ i ∈ [Instr.lfs32 (farOps .long64 .s32), .lgs32 (farOps .long64 .s32)],
      FarPointerAt (farState .long64 .c16 0 .s32 0x0010) i (offset .s32) 0x0010) ∧
    (∀ i ∈ [Instr.lfs16 (farOps .long64 .s16), .lgs16 (farOps .long64 .s16)],
      FarPointerAt (farState .long64 .c16 0 .s16 0x0010) i (offset .s16) 0x0010) ∧
    (let s := farState .long64 .c16 0 .s64 0;
      s.descFetch 0x0018 = .nonCanonical ∧ s.descFetch 0x0008 = .outOfLimits ∧ s.descFetch 0x0020 = .pageFault 4 ∧
      s.descFetch 0x0040 = .desc (descOf 8 0 true) ∧ s.descFetch 0x0013 = .desc (descOf 3 0 true) ∧
      s.descFetch 0x0053 = .desc (descOf 0xE 0 false) ∧ s.descFetch 0x004B = .desc (descOf 0xE 0 true) ∧
      s.descFetch 0x0010 = .desc (descOf 3 0 true)) := by
  refine ⟨?_, farPointerAt_of (by decide), ?_, ?_, by decide⟩
  · intro sel hs
    fin_cases hs <;> exact ⟨farPointerAt_of (by decide), by decide⟩
  · intro i hi
    fin_cases hi <;> exact farPointerAt_of (by decide)
  · intro i hi
    fin_cases hi <;> exact farPointerAt_of (by decide)

theorem witness_SixtyFourBitModeNullFsGsLoadCompletes :
    ∀ sel ∈ [0x0000, 0x0003],
      FarPointerAt (farState .long64 .c16 3 .s64 sel) (.lgs64 (farOps .long64 .s64)) (offset .s64) sel ∧ isNull sel = true := by
  intro sel hs
  fin_cases hs <;> exact ⟨farPointerAt_of (by decide), by decide⟩

theorem witness_SixtyFourBitModeLdsLesUndefined : (farState .long64 .c16 0 .s32 0).mode = .long64 := rfl

theorem witness_SixtyFourBitFormsRefusedOutsideSixtyFourBitMode :
    (farState .compat .c32 0 .s64 0).mode ≠ .long64 ∧ (farOps .compat .s64).hasLock = false := by
  decide

/-! ### The operand's faults -/

theorem witness_LockedInstructionFaults :
    (Instr.lgs32 ⟨[.lock], none, .noDisp, 0, 3, none, .absent⟩).operands.hasLock = true := by
  decide

/-- V2.7 and V7.8, one byte past the top, and V2.8, which fits. -/
theorem witness_WrappingOperandRefused :
    (let s := st .real .c16 0 0 [] [(3, 0xFFFD)] 0 [] [];
      FormExists s (.lds16 (farOps .real .s16)) ∧ ¬ OperandFits s (.lds16 (farOps .real .s16))) ∧
    (let s := st .long64 .c16 0 0 [] [(3, 0xFFFFFFFFFFFFFFF8)] 0 [] [];
      FormExists s (.lss64 (farOps .long64 .s64)) ∧ ¬ OperandFits s (.lss64 (farOps .long64 .s64))) ∧
    OperandFits (st .real .c16 0 0 [] [(3, 0xFFFC)] 0 [] []) (.lds16 (farOps .real .s16)) := by
  decide

/-- A state whose DS is replaced. -/
def withDs (s : State) (r : SegmentRegister) : State := s.setSeg .ds r

/-- V7.1. -/
theorem witness_NullSegmentOperandFaults :
    let s := withDs (farState .prot .c32 3 .s32 0) ⟨0, false, descOf 3 0 true⟩
    let i := Instr.lds32 (farOps .prot .s32);
    FormExists s i ∧ OperandFits s i ∧ s.mode = .prot ∧ s.operandSegment i ∈ [SegName.ds, .es, .fs, .gs] ∧
      (s.seg (s.operandSegment i)).valid = false := by
  decide

/-- A flat segment register with a limit. -/
def limited (l : BitVec 32) : SegmentRegister := ⟨0, true, { descOf 3 0 true with limit := l }⟩

/-- The operand's last byte one past the limit, through DS and through SS, in real-address and in protected mode (V2.9,
V2.10, V7.2, V7.3); and at the limit, where it is inside. -/
theorem witness_OperandOutsideLimitFaults :
    (let i := Instr.lds32 ⟨[], none, .noDisp, 0, 3, none, .absent⟩
      let s := withDs (farState .prot .c32 0 .s32 0) (limited 0x2004);
      FormExists s i ∧ OperandFits s i ∧ OperandSegmentUsable s i ∧ s.operandSegment i = .ds ∧
        s.segAccessOK .ds .s32 (s.operandEa i).toNat 6 = false ∧
        (withDs s (limited 0x2005)).segAccessOK .ds .s32 (s.operandEa i).toNat 6 = true) ∧
    (let i := Instr.lgs32 ⟨[], none, .disp8, 0, 4, some ⟨0, 4, 4⟩, .d8 4⟩
      let s := (st .prot .c32 0 0 [] [(4, 0x0FFC)] 0 [] []).setSeg .ss (limited 0x0FFF);
      FormExists s i ∧ OperandFits s i ∧ OperandSegmentUsable s i ∧ s.operandSegment i = .ss ∧
        s.segAccessOK .ss .s32 (s.operandEa i).toNat 6 = false) ∧
    (let i := Instr.lds16 (farOps .real .s16)
      let s := withDs (st .real .c16 0 0 [] [(3, 0x0FFE)] 0 [] []) (limited 0x0FFF);
      FormExists s i ∧ OperandFits s i ∧ OperandSegmentUsable s i ∧ s.operandSegment i = .ds ∧
        s.segAccessOK .ds .s16 (s.operandEa i).toNat 4 = false) ∧
    (let i := Instr.les16 ⟨[], none, .disp8, 7, 6, none, .d8 4⟩
      let s := (st .real .c16 0 0 [] [(5, 0x0FFC)] 0 [] []).setSeg .ss (limited 0x0FFF);
      FormExists s i ∧ OperandFits s i ∧ OperandSegmentUsable s i ∧ s.operandSegment i = .ss ∧
        s.segAccessOK .ss .s16 (s.operandEa i).toNat 4 = false) := by
  refine ⟨?_, ?_, ?_, ?_⟩ <;> decide

/-- V7.4, V7.5, V7.6: the first byte, the last byte, through DS and through SS; and an FS base that carries the operand past
the top. -/
theorem witness_NonCanonicalOperandFaults :
    (let i := Instr.lss64 (farOps .long64 .s64)
      let s := st .long64 .c16 0 0 [] [(3, 0x00007FFFFFFFFFF8)] 0 [] [];
      FormExists s i ∧ OperandFits s i ∧ s.operandSegment i = .ds ∧
        canonical s.params.vaBits (s.operandLin i) = true ∧
        canonical s.params.vaBits (s.operandLin i + BitVec.ofNat 64 (i.width.farBytes - 1)) = false) ∧
    (let i := Instr.lss64 ⟨[], some ⟨true, false, false, false⟩, .disp8, 0, 5, none, .d8 0⟩
      let s := st .long64 .c16 0 0 [] [(5, 0x0000800000000000)] 0 [] [];
      FormExists s i ∧ OperandFits s i ∧ s.operandSegment i = .ss ∧ canonical s.params.vaBits (s.operandLin i) = false) ∧
    (let i := Instr.lss64 ⟨[.segOverride .fs], some ⟨true, false, false, false⟩, .noDisp, 0, 3, none, .absent⟩
      let s := (st .long64 .c16 0 0 [] [(3, 0)] 0 [] []).setSeg .fs ⟨0, true, { descOf 3 0 true with base := 0xFFFFFFFFFFFFFFF8 }⟩;
      FormExists s i ∧ OperandFits s i ∧ s.operandSegment i = .fs ∧
        2 ^ 64 ≤ (s.operandLin i).toNat + i.width.farBytes - 1) := by
  decide

/-- V7.9: the operand crosses into a page that faults. -/
theorem witness_UnmappedOperandFaults :
    let i := Instr.lds32 (farOps .prot .s32)
    let s := { st .prot .c32 0 0 [] [(3, 0x1FFC)] 0 [] [] with
      paging := ⟨[⟨.dataReadAtCpl, 0x2000, 0x1000, .pageFault 4⟩], none⟩ };
    FormExists s i ∧ OperandFits s i ∧ OperandSegmentUsable s i ∧ OperandInRange s i ∧ ¬ OperandMapped s i ∧
      s.operandTranslation i 4 = .pageFault 4 ∧ (s.operandByte i 3).isSome = true := by
  decide

/-- V7.10: unaligned at CPL 3 with the check enabled, which is reported; V7.11: at CPL 0, where it does not apply. -/
theorem witness_UnalignedOperandFaults :
    let i := Instr.lds32 (farOps .prot .s32)
    let s := { st .prot .c32 3 0 [] [(3, 0x2002)] 0 [] [] with alignCheck := true };
    (FormExists s i ∧ OperandFits s i ∧ OperandSegmentUsable s i ∧ OperandInRange s i ∧ OperandMapped s i ∧
      s.mode = .prot ∧ s.cpl = 3 ∧ s.alignCheck = true ∧ s.farPtrAligned i.width (s.operandLin i) = false ∧
      faultIs (exec i s) .alignmentCheck = true) ∧
      { s with cpl := 0 }.alignmentChecked = false ∧ { s with cpl := 0, mode := .v86 }.alignmentChecked = true := by
  decide

/-- A segment register with a descriptor type and a limit; its B bit is set. -/
def typed (t : BitVec 4) (l : BitVec 32) : SegmentRegister := ⟨0, true, { descOf t 0 true with limit := l }⟩

/-- Each clause at its boundary, in a state whose DS is given: execute-only code in real-address mode; an expand-down segment
at its limit and one above, and at the top with B set and clear; an ordinary one at its limit and one above; and a listed
answer. -/
theorem witness_SegmentLimitComparison :
    let s := st .real .c16 0 0 [] [] 0 [] []
    let small := { typed 7 0x0FFF with desc := { (typed 7 0x0FFF).desc with db := false } };
    (segAnswer .ds (s.seg .ds) 0 4 s.segAnswers = none ∧ (descOf 8 0 true).kind = .codeXNC ∧
      (withDs s (typed 8 0xFFFF)).segAccessOK .ds .s16 0 4 = false) ∧
    ((descOf 7 0 true).kind = .dataRW ∧ (descOf 7 0 true).typ.getLsbD 2 = true ∧
      (withDs s (typed 7 0x0FFF)).segAccessOK .ds .s32 0x0FFF 4 = false ∧
      (withDs s (typed 7 0x0FFF)).segAccessOK .ds .s32 0x1000 4 = true ∧
      (withDs s (typed 7 0x0FFF)).segAccessOK .ds .s32 0xFFFE 4 = true ∧
      (withDs s small).segAccessOK .ds .s32 0xFFFE 4 = false ∧ (withDs s small).segAccessOK .ds .s32 0xFFFC 4 = true) ∧
    ((descOf 3 0 true).typ.getLsbD 2 = false ∧ (descOf 0xE 0 true).kind = .codeXRC ∧
      (withDs s (typed 3 0x0FFF)).segAccessOK .ds .s16 0x0FFC 4 = true ∧
      (withDs s (typed 3 0x0FFF)).segAccessOK .ds .s16 0x0FFD 4 = false) ∧
    (let t := { s with segAnswers := [⟨.ds, s.seg .ds, 0x10, 4, false⟩] };
      segAnswer .ds (t.seg .ds) 0x10 4 t.segAnswers = some false ∧ t.segAccessOK .ds .s16 0x10 4 = false ∧
        t.segAccessOK .ds .s16 0x11 4 = true) := by
  decide

/-- With no answer listed, and with one. -/
theorem witness_FarPointerAlignment :
    let s := st .prot .c32 3 0 [] [] 0 [] []
    let t := { s with alignAnswers := [⟨.s32, 0x2002, true⟩] };
    alignAnswer .s32 0x2002 s.alignAnswers = none ∧ s.farPtrAligned .s32 0x2002 = false ∧
      s.farPtrAligned .s32 0x2004 = true ∧ s.params = Config.Params.default ∧
      alignAnswer .s32 0x2002 t.alignAnswers = some true ∧ t.farPtrAligned .s32 0x2002 = true := by
  decide

/-- An operand outside its limit, over two bytes on a page that faults: two exceptions apply, and the fixed order reports the
first (60_exceptions.md R175 lines 3 and 4). -/
theorem test_applicable :
    let i := Instr.lds32 (farOps .prot .s32)
    let s := withDs { st .prot .c32 0 0 [] [(3, 0x1FFC)] 0 [] [] with
      paging := ⟨[⟨.dataReadAtCpl, 0x2000, 0x1000, .pageFault 4⟩], none⟩ } (limited 0x1000);
    s.applicable i = [.generalProtection (some 0), .pageFault 4, .pageFault 4] ∧
      faultIs (exec i s) (.generalProtection (some 0)) = true := by
  decide

/-- A wrong RPL over a descriptor on a page that faults: both apply (41_segment_load.md R146, D11). -/
theorem test_applicable_selector :
    let i := Instr.lss32 (farOps .prot .s32)
    let s := anyOrder (farState .prot .c32 0 .s32 0x0023);
    s.applicable i = [.generalProtection (some 0x0020), .pageFault 4] := by
  decide

/-- An instruction that reports an exception, and one to which none applies. -/
theorem witness_ReportedExceptionApplies :
    (let i := Instr.lds32 (farOps .prot .s32)
      let s := farState .prot .c32 0 .s32 0x0053;
      FormExists s i ∧ OperandFits s i ∧ faultIs (exec i s) (.segmentNotPresent 0x0050) = true) ∧
    (let i := Instr.lss64 (farOps .long64 .s64)
      let s := farState .long64 .c16 0 .s64 0x0010;
      FormExists s i ∧ OperandFits s i ∧ s.applicable i = []) := by
  decide

/-- R55's added cause in a mode without descriptors: a CS override over a code segment that is not readable. -/
theorem test_step_execute_only :
    faultIs (step ((st .real .c16 0 0x1000 [0x2E, 0xC5, 0x37] [(3, 0x0200)] 0x0200 [0x78, 0x56, 0x34, 0x12] []).setSeg .cs
      (typed 8 0xFFFF))) (.generalProtection none) = true := by
  decide

/-! ### The descriptor lookup -/

theorem witness_NonCanonicalDescriptorOnlyInSixtyFourBitMode : (farState .prot .c32 0 .s32 0).mode ≠ .long64 := by
  decide

/-- A state with a global table at 0x5000, limit 0x17 (three entries), the third a 4 GiB writable data segment of DPL 3. -/
def tableState : State :=
  { st .prot .c32 0 0 [] [] 0x5010 [0xFF, 0xFF, 0x00, 0x00, 0x00, 0xF2, 0xCF, 0x00] [] with gdtr := ⟨0x5000, 0x17⟩ }

/-- The last entry inside the limit (index 2), the first outside (index 3), a local selector with no local table, an entry
whose byte 3 is on a page that faults. -/
theorem witness_DescriptorLookupInTheTables :
    (∀ sel : Selector, lookupAnswer sel tableState.descAnswers = none) ∧
    ((0x0013 : Selector).getLsbD 2 = false ∧ 8 * ((0x0013 : Selector).toNat / 8) + 7 ≤ tableState.gdtr.limit.toNat) ∧
    (∀ k ∈ [0, 1, 2, 3, 4, 5, 6, 7],
      tableState.translate .descriptorRead (BitVec.ofNat 64 ((tableState.gdtr.base.toNat + 8 * 2 + k) % 2 ^ 32))
          = .phys (BitVec.ofNat 64 (0x5010 + k)) ∧
        Memory.read tableState.mem (BitVec.ofNat 64 (0x5010 + k)).toNat
          = (0x00CFF2000000FFFF : BitVec 64).extractLsb' (8 * k) 8) ∧
    tableState.gdtr.limit.toNat < 8 * ((0x001B : Selector).toNat / 8) + 7 ∧
    (0x0014 : Selector).getLsbD 2 = true ∧ { tableState with ldtr := ⟨0, false, 0, 0⟩ }.ldtr.valid = false ∧
    (let s := { tableState with paging := ⟨[⟨.descriptorRead, 0x5013, 1, .pageFault 9⟩], none⟩ };
      (∀ k ∈ [0, 1, 2], s.translate .descriptorRead (BitVec.ofNat 64 (0x5010 + k)) = .phys (BitVec.ofNat 64 (0x5010 + k))) ∧
        s.translate .descriptorRead 0x5013 = .pageFault 9 ∧ s.descFetch 0x0013 = .pageFault 9) := by
  refine ⟨fun _ => rfl, by decide, by decide, by decide, by decide, by decide, by decide⟩

/-- The lookup in 64-bit mode: the entry in a table above 2^47, whose first entry is canonical and whose last byte is not;
in a table at a canonical 64-bit address, where it is found. -/
theorem witness_DescriptorLookupInTheTables_long64 :
    (let s := { tableState with mode := .long64, gdtr := ⟨0x00007FFFFFFFFFE9, 0x0017⟩ };
      lookupAnswer 0x0013 s.descAnswers = none ∧ s.mode = .long64 ∧
        canonical s.params.vaBits (BitVec.ofNat 64 ((s.gdtr.base.toNat + 8 * 2 + 0) % 2 ^ 64)) = true ∧
        canonical s.params.vaBits (BitVec.ofNat 64 ((s.gdtr.base.toNat + 8 * 2 + 7) % 2 ^ 64)) = false ∧
        s.descFetch 0x0013 = .nonCanonical) ∧
    (let s := { tableState with mode := .long64, gdtr := ⟨0xFFFF800000000000, 0x0017⟩
                                mem := place [] 0xFFFF800000000010 [0xFF, 0xFF, 0x00, 0x00, 0x00, 0xF2, 0xCF, 0x00] };
      canonical s.params.vaBits s.gdtr.base = true ∧
        s.descFetch 0x0013 = .desc ⟨0, 0xFFFFFFFF, 2, true, 3, true, false, false, true, true⟩) := by
  decide

/-- That entry as a record. -/
theorem test_descFetch_table : tableState.descFetch 0x0013 = .desc ⟨0, 0xFFFFFFFF, 2, true, 3, true, false, false, true, true⟩ := by
  decide

/-- A descriptor for each clause of the mapping, with G clear and set. -/
theorem witness_DescriptorBitsMapToTheRecord :
    (0x0000E20000000000 : BitVec 64).getLsbD 44 = false ∧
    (0x0000F20000000000 : BitVec 64).getLsbD 44 = true ∧ (0x0000F20000000000 : BitVec 64).getLsbD 43 = false ∧
    (0x0000F20000000000 : BitVec 64).getLsbD 41 = true ∧ (0x0000F00000000000 : BitVec 64).getLsbD 41 = false ∧
    (0x0000FE0000000000 : BitVec 64).getLsbD 43 = true ∧ (0x0000FE0000000000 : BitVec 64).getLsbD 42 = true ∧
    (0x0080F20000000000 : BitVec 64).getLsbD 55 = true := by
  decide

/-! ### Frames and whole-machine rules -/

/-- A step that completes, from a state that meets the invariant. -/
def protStep : State :=
  st .prot .c32 0 0x1000 [0x0F, 0xB2, 0x20] [(0, 0x3000)] 0x3000 [0x00, 0xF0, 0x09, 0x00, 0x10, 0x00]
    [(0x0010, .desc (descOf 3 0 true))]

/-- The segment registers of `protStep` with selectors that fit its CPL. -/
def protStepInv : State :=
  { protStep with segs := ⟨flat 0x10, flat 0x10, flat 0x10, flat 0x10, flat 0x10, flat 0x10⟩ }

theorem exists_of_nextIs {o : Host.Outcome State Fault Refusal} {good : State → Bool} (h : nextIs o good = true) :
    ∃ t, o = .next t ∧ good t = true := by
  cases o with
  | next t => exact ⟨t, rfl, h⟩
  | fault f => cases h
  | refused r => cases h

theorem witness_CompletedInstructionFrame :
    ∃ t, exec (.lss32 ⟨[], none, .noDisp, 4, 0, none, .absent⟩) protStep = .next t ∧ ((t.seg .ss).valid == true) = true :=
  exists_of_nextIs (by decide)

theorem witness_StepKeepsMemoryModeAndTables : ∃ t, step protStep = .next t ∧ (t.pc == 0x1003) = true :=
  exists_of_nextIs (by decide)

theorem eq_of_faultIs {o : Host.Outcome State Fault Refusal} {f : Fault} (h : faultIs o f = true) : o = .fault f := by
  cases o with
  | fault g => exact congrArg _ (eq_of_beq h)
  | next t => cases h
  | refused r => cases h

/-- A fault in each of the modes, and one for each clause: the limit in real-address mode, the alignment in virtual-8086
mode, #NP and #SS with a selector in protected mode. -/
theorem witness_ExceptionsOfEachMode :
    (let s := withDs (st .real .c16 0 0 [] [(3, 0x0FFE)] 0 [] []) (limited 0x0FFF);
      s.mode = .real ∧ exec (.lds16 (farOps .real .s16)) s = .fault (.generalProtection none)) ∧
    (let s := { farState .v86 .c16 3 .s16 0 with regs := (farState .v86 .c16 3 .s16 0).regs.set 3 ⟨0x2001, 0⟩, alignCheck := true };
      s.mode = .v86 ∧ exec (.les16 (farOps .v86 .s16)) s = .fault .alignmentCheck) ∧
    (let s := farState .prot .c32 0 .s32 0x0053;
      s.mode ≠ .real ∧ exec (.lds32 (farOps .prot .s32)) s = .fault (.segmentNotPresent 0x0050)) ∧
    (let s := farState .long64 .c16 0 .s64 0x0038;
      (0x0038 : BitVec 16) ≠ 0 ∧ exec (.lss64 (farOps .long64 .s64)) s = .fault (.stackSegment (some 0x0038))) :=
  ⟨⟨by decide, eq_of_faultIs (by decide)⟩, ⟨by decide, eq_of_faultIs (by decide)⟩, ⟨by decide, eq_of_faultIs (by decide)⟩,
    ⟨by decide, eq_of_faultIs (by decide)⟩⟩

theorem witness_LoadedStackSegmentHasCplPrivilege :
    protStep.mode ≠ .real ∧ protStep.mode ≠ .v86 ∧
    ∃ t, exec (.lss32 ⟨[], none, .noDisp, 4, 0, none, .absent⟩) protStep = .next t ∧ (t.seg .ss).valid = true :=
  ⟨by decide, by decide, exists_of_nextIs (good := fun t => (t.seg .ss).valid) (by decide)⟩

theorem witness_EveryStepKeepsTheInvariant : Inv protStepInv ∧ ∃ t, step protStepInv = .next t ∧ (t.pc == 0x1003) = true := by
  refine ⟨⟨by decide, by decide, ?_, ?_, ?_, ?_⟩, exists_of_nextIs (by decide)⟩
  · intro h
    exact absurd h (by decide)
  · intro _ S _
    cases S <;> exact ⟨by decide, fun _ => by decide⟩
  · intro h
    exact absurd h (by decide)
  · intro _
    exact ⟨by decide, fun _ => by decide⟩

/-- Two steps: `LDS SI,[BX]` twice. -/
def twoSteps : State := st .real .c16 0 0x1000 [0xC5, 0x37, 0xC5, 0x37] [(3, 0x0200)] 0x0200 [0x78, 0x56, 0x00, 0x00] []

theorem witness_RunAdvancesTwoToThirteenBytesAStep :
    (∃ t, Host.Core.run Sys2Proof.core 2 twoSteps = .next t ∧ (t.pc == 0x1004) = true) ∧
      twoSteps.codeOffset + 13 * 2 < 2 ^ twoSteps.codeBits :=
  ⟨exists_of_nextIs (o := Host.Core.run Sys2Proof.core 2 twoSteps) (by decide), by decide⟩

/-- The run has used up its steps. -/
def stillRunning (r : RunEnd) : Bool :=
  match r with
  | .running _ => true
  | .final _ | .fault _ _ | .refused _ _ => false

theorem exists_of_stillRunning {r : RunEnd} (h : stillRunning r = true) : ∃ t, r = .running t := by
  cases r with
  | running t => exact ⟨t, rfl⟩
  | final t => cases h
  | fault f t => cases h
  | refused f t => cases h

/-- A run that steps over its end, at 0x1001, and so is still running. -/
theorem witness_RunEndsWithinHalfItsBytes :
    twoSteps.codeOffset ≤ 0x1001 ∧ 0x1001 - twoSteps.codeOffset < 2 * 1 ∧
    twoSteps.codeOffset + 13 * 1 < 2 ^ twoSteps.codeBits ∧ ∃ t, runTo 0x1001 1 twoSteps = .running t :=
  ⟨by decide, by decide, by decide, exists_of_stillRunning (by decide)⟩

theorem witness_DestinationIsNotReadAsData :
    (let i := Instr.lss32 ⟨[], none, .noDisp, 4, 0, none, .absent⟩;
      i.width ≠ .s16 ∧ protStep.operandEa i = (protStep.setReg i.operands.dst ⟨1, 2⟩).operandEa i) ∧
    (let i := Instr.lds16 ⟨[], none, .noDisp, 6, 7, none, .absent⟩;
      i.width = .s16 ∧ twoSteps.operandEa i = (twoSteps.setReg i.operands.dst ⟨1, 2⟩).operandEa i ∧
        nextIs (exec i twoSteps) (fun t => t.x16 6 == 0x5678) = true) := by
  decide

/-- `protStep` with an empty global table and no local one: the answers it is given are all the descriptors there are. -/
def answersOnly : State := { protStep with gdtr := ⟨0, 0⟩, ldtr := ⟨0, false, 0, 0⟩ }

theorem tablesFetch_outOfLimits {s : State} (hm : s.mode = .prot) (hg : s.gdtr.limit = 0) (hl : s.ldtr.valid = false)
    (sel : Selector) : s.tablesFetch sel = .outOfLimits := by
  cases ht : tableIndicator sel <;> simp [State.tablesFetch, State.tableFetch, ht, hm, hg, hl]

theorem answersOnly_descFetch (m : List Host.Cell) (sel : Selector) :
    { answersOnly with mem := m }.descFetch sel = answersOnly.descFetch sel := by
  unfold State.descFetch
  rw [tablesFetch_outOfLimits (s := { answersOnly with mem := m }) rfl rfl rfl,
    tablesFetch_outOfLimits (s := answersOnly) rfl rfl rfl]

/-- The same operand and descriptors over another memory, the code bytes left out: an instruction that completes, and one that
faults on its selector. -/
theorem witness_OnlyOperandAndDescriptorBytesMatter :
    (let i := Instr.lss32 ⟨[], none, .noDisp, 4, 0, none, .absent⟩
      let m := place [] 0x3000 [0x00, 0xF0, 0x09, 0x00, 0x10, 0x00];
      m ≠ answersOnly.mem ∧
      (∀ k < i.width.farBytes, { answersOnly with mem := m }.operandByte i k = answersOnly.operandByte i k) ∧
      (∀ sel, SelectorAt answersOnly i sel → { answersOnly with mem := m }.descFetch sel = answersOnly.descFetch sel) ∧
      SelectorAt answersOnly i 0x0010 ∧ nextIs (exec i answersOnly) (fun t => (t.seg .ss).valid) = true ∧
      faultIs (exec i { answersOnly with cpl := 1 }) (.generalProtection (some 0x0010)) = true) :=
  ⟨by decide, by decide, fun sel _ => answersOnly_descFetch _ sel, by decide, by decide, by decide⟩

end Sys2Proof.Tests
end

section
/-! SUPPORT. Decoding what the encoder writes, and fetching an instruction's bytes (30_encoding.md R95, R96, R101;
10_state.md R23, R24). -/

namespace Sys2Proof

/-! ### The length of an instruction a decoder can give -/

theorem LegacyPrefix.group_lt (p : LegacyPrefix) : p.group < 4 := by
  cases p <;> simp [LegacyPrefix.group]

theorem groups_nodup_of_distinctGroups {seen : List Nat} {ps : List LegacyPrefix} (h : distinctGroups seen ps = true) :
    (ps.map LegacyPrefix.group).Nodup ∧ ∀ p ∈ ps, p.group ∉ seen := by
  induction ps generalizing seen with
  | nil => simp
  | cons p ps ih =>
    simp only [distinctGroups, Bool.and_eq_true, Bool.not_eq_true', List.contains_eq_mem, decide_eq_false_iff_not] at h
    obtain ⟨hp, hps⟩ := h
    obtain ⟨hnodup, hfresh⟩ := ih hps
    simp only [List.mem_cons, not_or] at hfresh
    refine ⟨List.nodup_cons.mpr ⟨?_, hnodup⟩, ?_⟩
    · intro hmem
      obtain ⟨q, hq, hqp⟩ := List.mem_map.mp hmem
      exact (hfresh q hq).1 hqp
    · rintro q (_ | ⟨_, hq⟩)
      · exact hp
      · exact (hfresh q hq).2

/-- No group of prefixes twice: at most four prefixes (30_encoding.md R95). -/
theorem length_le_four_of_distinctGroups {pre : List LegacyPrefix} (h : distinctGroups [] pre = true) :
    pre.length ≤ 4 := by
  have hsub : pre.map LegacyPrefix.group ⊆ List.range 4 := fun g hg => by
    obtain ⟨p, -, rfl⟩ := List.mem_map.mp hg
    exact List.mem_range.mpr p.group_lt
  simpa using ((groups_nodup_of_distinctGroups h).1.subperm hsub).length_le

/-- The parts of well-formedness the decoder's stages ask for, each by its name (30_encoding.md R101). -/
theorem wellFormed_iff {env : DecodeEnv} {i : Instr} :
    wellFormed env i = true ↔
      distinctGroups [] i.operands.pre = true ∧ LegacyPrefix.lock ∉ i.operands.pre ∧
      (i.operands.rex = none ∨ env.mode = .long64) ∧ i.width = operandSize env i.operands.pre i.operands.rex ∧
      ¬ (i.dest.isDsEs = true ∧ env.mode = .long64) ∧
      i.operands.sib.isSome = needsSib (addressSize env i.operands.pre) i.operands.rm ∧
      i.operands.disp.size =
        dispSize (addressSize env i.operands.pre) i.operands.mod i.operands.rm i.operands.sib := by
  simp only [wellFormed, prefixesOk, noLock, Operands.hasLock, rexOk, widthOk, destOk, sibOk, dispOk, Bool.and_eq_true,
    Bool.or_eq_true, Bool.not_eq_true', List.contains_eq_mem, decide_eq_true_eq, Option.isNone_iff_eq_none,
    beq_iff_eq, and_assoc, ← Bool.not_eq_true, not_and]

theorem DispSize.bytes_le_four (d : DispSize) : d.bytes ≤ 4 := by
  cases d <;> decide

theorem LoadSeg.opcode_length_le_two (S : LoadSeg) : S.opcode.length ≤ 2 := by
  cases S <;> decide

/-- A well-formed instruction has at most as many bytes as a step fetches (30_encoding.md R96). -/
theorem length_encode_le_maxLength {env : DecodeEnv} {i : Instr} (h : wellFormed env i = true) :
    (encode i).length ≤ maxLength := by
  have hpre := length_le_four_of_distinctGroups (wellFormed_iff.mp h).1
  have hop := i.dest.opcode_length_le_two
  have hdisp := i.operands.disp.size.bytes_le_four
  rw [show (encode i).length = i.length from Laws.EncodedLength.ofParts i, Instr.length, formLength, maxLength]
  split <;> split <;> omega

/-! ### The decoder on the bytes of a well-formed instruction -/

/-- The memory forms of ModRM.mod are not 11 (30_encoding.md R84). -/
theorem Operands.modrm_mod_ne_three (o : Operands) : o.modrm.extractLsb' 6 2 ≠ 3#2 := by
  rw [show o.modrm.extractLsb' 6 2 = o.mod.bits from (modrm_fields o.mod.bits o.reg o.rm).1]
  cases o.mod <;> decide

theorem readRex_encode {mode : Mode} {rex : Option Rex} (h : rex = none ∨ mode = .long64) (S : LoadSeg)
    (rest : List Byte) :
    readRex mode (rex.toList.map Rex.byte ++ (S.opcode ++ rest)) = .ok (rex, S.opcode ++ rest) := by
  obtain ⟨b, tl, hop, hother, hrex⟩ := S.opcode_head
  rw [hop]
  cases rex with
  | none => exact readRex_none mode b _ (.inr hrex)
  | some r =>
    obtain rfl : mode = .long64 := h.resolve_left (by simp)
    exact readRex_some r b _ hother hrex

/-- The byte after the prefixes is a REX or an opcode byte, so the scan for prefixes stops there. -/
theorem scanPrefixes_encode {pre : List LegacyPrefix} (h : distinctGroups [] pre = true) (rex : Option Rex)
    (S : LoadSeg) (rest : List Byte) :
    scanPrefixes [] (pre.map LegacyPrefix.byte ++ (rex.toList.map Rex.byte ++ (S.opcode ++ rest))) =
      .ok (pre, rex.toList.map Rex.byte ++ (S.opcode ++ rest)) := by
  obtain ⟨b, tl, hop, hother, -⟩ := S.opcode_head
  cases rex with
  | none => rw [hop]; exact scanPrefixes_map [] pre b _ h hother
  | some r => exact scanPrefixes_map [] pre r.byte _ h (classify_rexByte r)

theorem vexCheck_modrm {env : DecodeEnv} {S : LoadSeg} (h : ¬ (S.isDsEs = true ∧ env.mode = .long64)) (o : Operands)
    (rest : List Byte) : vexCheck env S (o.modrm :: rest) = .ok () := by
  rw [vexCheck]
  split
  · next hS =>
    rw [if_neg fun hm => h ⟨hS, hm⟩]
    exact if_neg o.modrm_mod_ne_three
  · rfl

/-- Decoding the bytes of a well-formed instruction gives it back, with the bytes after it (30_encoding.md R101, stage by
stage). -/
theorem decode_encode_append {env : DecodeEnv} {i : Instr} (h : wellFormed env i = true) (rest : List Byte) :
    decode env (encode i ++ rest) = .ok (i, rest) := by
  obtain ⟨hpre, hlock, hrex, hwidth, hdest, hsib, hdisp⟩ := wellFormed_iff.mp h
  have hform : Instr.ofForm i.dest i.width ⟨i.operands.pre, i.operands.rex, i.operands.mod, i.operands.reg, i.operands.rm,
      i.operands.sib, i.operands.disp⟩ = some i := i.ofForm_parts
  simp only [decode, encode, List.append_assoc, List.cons_append, scanPrefixes_encode hpre, readRex_encode hrex,
    readOpcode_opcode, vexCheck_modrm hdest, readModRM_modrm, readSib_encode _ _ _ _ hsib, ← hdisp, readDisp_encode,
    ← hwidth, hform, List.contains_eq_mem, hlock, decide_false, bind, Except.bind, Bool.false_eq_true,
    if_false]

end Sys2Proof

namespace Sys2Proof.Machine

/-! ### Fetching -/

/-- Bytes that can all be fetched are the first bytes of the fetch. -/
theorem State.fetchFrom_eq_append {s : State} {bs : List Byte} {i n : Nat} (hlen : bs.length ≤ n)
    (h : ∀ k (hk : k < bs.length), ∃ p, s.fetchPhys (i + k) = some p ∧ Memory.read s.mem p = bs[k]) :
    ∃ rest, s.fetchFrom i n = bs ++ rest := by
  induction bs generalizing i n with
  | nil => exact ⟨_, rfl⟩
  | cons b bs ih =>
    obtain ⟨n, rfl⟩ : ∃ m, n = m + 1 := ⟨n - 1, by simp only [List.length_cons] at hlen; omega⟩
    obtain ⟨p, hp, hb⟩ := h 0 (by simp)
    obtain ⟨rest, hrest⟩ := ih (i := i + 1) (n := n) (by simpa using hlen) fun k hk => by
      have := h (k + 1) (Nat.succ_lt_succ hk)
      rwa [List.getElem_cons_succ, show i + (k + 1) = i + 1 + k by omega] at this
    rw [Nat.add_zero] at hp
    refine ⟨rest, ?_⟩
    simp only [State.fetchFrom, hp, hrest, hb, List.getElem_cons_zero, List.cons_append]

/-- A byte out of range cannot be fetched (10_state.md R24). -/
theorem State.fetchPhys_eq_none_of_not_inRange {s : State} {k : Nat} (h : s.fetchInRange k = false) :
    s.fetchPhys k = none := by
  simp [State.fetchPhys, h]

theorem State.fetchPhys_eq_none_of_pageFault {s : State} {k : Nat} {c : FaultCode}
    (h : s.translate .codeFetch (s.linearAdd s.fetchLinear k) = .pageFault c) : s.fetchPhys k = none := by
  simp [State.fetchPhys, h]

/-- What a byte in range satisfies: below the top of the effective-address space and, outside 64-bit mode, within the
code-segment limit; in 64-bit mode, at a canonical address (10_state.md R24). -/
theorem State.fetchInRange_edges {s : State} {k : Nat} (h : s.fetchInRange k = true) :
    s.codeOffset + k < 2 ^ s.codeBits ∧
      (s.mode ≠ .long64 → s.codeOffset + k ≤ (s.seg .cs).desc.limit.toNat) ∧
      (s.mode = .long64 → canonical s.params.vaBits (s.linearAdd s.fetchLinear k) = true) := by
  simp only [State.fetchInRange, Bool.and_eq_true, decide_eq_true_eq] at h
  obtain ⟨htop, hedge⟩ := h
  refine ⟨htop, fun hm => ?_, fun hm => ?_⟩
  · simp only [if_neg hm, Bool.and_eq_true, decide_eq_true_eq] at hedge
    exact hedge.1
  · rwa [if_pos hm] at hedge

/-- In 64-bit mode byte `k` of the instruction lies at `pc + k` (20_memory.md R54). -/
theorem State.fetchLinear_add_of_long64 {s : State} (hm : s.mode = .long64) (k : Nat) :
    s.linearAdd s.fetchLinear k = s.pc + BitVec.ofNat 64 k := by
  have hoff : BitVec.ofNat 64 s.codeOffset = s.pc := by
    simp [State.codeOffset, State.codeBits, hm, Nat.mod_eq_of_lt s.pc.isLt]
  simp only [State.linearAdd, State.fetchLinear, State.linearAddress, hm, if_true, hoff]

end Sys2Proof.Machine
end

section
/-! Settled: the step at `pc`, the edges of a fetch, the state after reset (10_state.md R23, R24, R38). -/

open Sys2Proof Sys2Proof.Machine

/-- Settles O18: the fetch starts with the instruction's bytes, and the decoder gives the instruction back from them. -/
theorem stepRunsTheInstructionAtPc : Obligations.StepRunsTheInstructionAtPc := by
  intro s i hwf hbytes
  obtain ⟨rest, hrest⟩ := State.fetchFrom_eq_append (i := 0) (length_encode_le_maxLength hwf) fun k hk => by
    simpa using hbytes k hk
  have hdec : decode s.env s.fetch = .ok (i, rest) := by
    rw [State.fetch, hrest, decode_encode_append hwf]
  simp only [step, hdec]

/-- Settles O20: each edge is one of the tests of `fetchInRange`, or the translation's page fault. -/
theorem fetchStopsAtTheEdges : Obligations.FetchStopsAtTheEdges := by
  intro s k
  have hnone : (s.fetchInRange k = true → False) → s.fetchPhys k = none := fun h =>
    State.fetchPhys_eq_none_of_not_inRange (eq_false_of_ne_true h)
  refine ⟨fun htop => hnone fun h => ?_, fun hm hlim => hnone fun h => ?_, fun hm hcan => hnone fun h => ?_,
    fun c => State.fetchPhys_eq_none_of_pageFault⟩
  all_goals obtain ⟨hbelow, hlimit, hcanon⟩ := State.fetchInRange_edges h
  · omega
  · have := hlimit hm
    omega
  · have := hcanon hm
    rw [State.fetchLinear_add_of_long64 hm, hcan] at this
    cases this

/-- Settles O56, by evaluating the state after reset. -/
theorem resetStateIsTheFamilys : Obligations.ResetStateIsTheFamilys :=
  ⟨rfl, rfl, rfl, rfl, rfl, fun S => by cases S <;> exact ⟨rfl, rfl, rfl⟩, by decide, by decide⟩

end

section
/-! SUPPORT. What an instruction's outcome does not depend on: the general registers once the operand's address is fixed,
and the bytes of memory but the operand's and the descriptor's (10_state.md R22, R35). -/

namespace Sys2Proof.Machine

/-! ### Other registers, other memory -/

/-- The state over other general registers and another memory. -/
def State.withData (s : State) (regs : Vector GeneralRegister 16) (mem : List Host.Cell) : State :=
  { s with regs := regs, mem := mem }

theorem State.setReg_eq_withData (s : State) (r : Fin 16) (g : GeneralRegister) :
    s.setReg r g = s.withData (s.regs.set r.val g) s.mem := rfl

@[simp] theorem State.withData_mem (s : State) (regs : Vector GeneralRegister 16) (mem : List Host.Cell) :
    (s.withData regs mem).mem = mem := rfl

@[simp] theorem State.withData_mode (s : State) (regs : Vector GeneralRegister 16) (mem : List Host.Cell) :
    (s.withData regs mem).mode = s.mode := rfl

@[simp] theorem State.withData_params (s : State) (regs : Vector GeneralRegister 16) (mem : List Host.Cell) :
    (s.withData regs mem).params = s.params := rfl

/-- The next state of an outcome replaced by a function of it; a fault or a refusal is the same. -/
def mapNext (f : State → State) : Host.Outcome State Fault Refusal → Host.Outcome State Fault Refusal
  | .next t => .next (f t)
  | .fault e => .fault e
  | .refused r => .refused r

theorem outcome_map (f : State → State) (r : Except Stop State) : outcome (r.map f) = mapNext f (outcome r) := by
  match r with
  | .ok _ | .error (.exception _) | .error (.refusal _) => rfl

theorem State.report_map (s : State) (fs : List Fault) (f : State → State) (r : Except Stop State) :
    s.report fs (r.map f) = (s.report fs r).map f := by
  match r with
  | .ok _ | .error (.exception _) | .error (.refusal _) => rfl

theorem faultOf_map {α β : Type} (f : α → β) (r : Except Stop α) : faultOf (r.map f) = faultOf r := by
  match r with
  | .ok _ | .error (.exception _) | .error (.refusal _) => rfl

/-- A form that does not exist: #UD, or refused where it cannot be encoded (40_load_far_pointer.md R110 step 1). -/
theorem exec_of_not_exists {s : State} {i : Instr} (h : ¬ FormExists s i) :
    exec i s = if i.operands.hasLock || (i.dest.isDsEs && s.mode == .long64) then .fault .undefinedOpcode
      else .refused .notEncodable := by
  rw [exec_eq, loadFarPointer]
  split
  · rfl
  · next hud =>
    simp only [Bool.or_eq_true, Bool.and_eq_true, beq_iff_eq, not_or, not_and, Bool.not_eq_true] at hud
    obtain ⟨hlock, hdest⟩ := hud
    have hw : i.width = .s64 ∧ s.mode ≠ .long64 := by
      simpa using fun hn => h ⟨hlock, hdest, hn⟩
    rw [if_pos hw]
    rfl

/-! ### Reading -/

theorem State.readRange_withData (s : State) (regs : Vector GeneralRegister 16) (mem : List Host.Cell)
    (kind : AccessKind) (lin : Addr) (i n : Nat)
    (h : ∀ k < n, ∀ p : Addr, s.translate kind (s.linearAdd lin (i + k)) = .phys p →
      Memory.read mem p.toNat = Memory.read s.mem p.toNat) :
    (s.withData regs mem).readRange kind lin i n = s.readRange kind lin i n := by
  induction n generalizing i with
  | zero => rfl
  | succ n ih =>
    have htranslate : (s.withData regs mem).translate kind ((s.withData regs mem).linearAdd lin i) =
        s.translate kind (s.linearAdd lin i) := rfl
    have htail := ih (i + 1) fun k hk => by
      rw [show i + 1 + k = i + (k + 1) by omega]
      exact h (k + 1) (by omega)
    simp only [State.readRange, htranslate, htail]
    cases hp : s.translate kind (s.linearAdd lin i) with
    | pageFault c => rfl
    | phys p =>
      simp only [State.withData_mem, h 0 (by omega) p hp]

/-- Byte `k` of a little-endian value (20_memory.md R51). -/
theorem leValue_div_pow_mod (bs : List Byte) (k : Nat) (hk : k < bs.length) :
    leValue bs / 256 ^ k % 256 = bs[k].toNat := by
  induction bs generalizing k with
  | nil => cases hk
  | cons b bs ih =>
    have := b.isLt
    cases k with
    | zero => simp only [leValue, List.getElem_cons_zero, Nat.pow_zero]; omega
    | succ k =>
      rw [List.getElem_cons_succ, ← ih k (Nat.lt_of_succ_lt_succ hk), Nat.pow_succ', ← Nat.div_div_eq_div_mul, leValue,
        show (b.toNat + 256 * leValue bs) / 256 = leValue bs by omega]

/-- The descriptor lookup reads no general register (41_segment_load.md R142, R143). -/
theorem State.descFetch_withRegs (s : State) (regs : Vector GeneralRegister 16) (sel : Selector) :
    (s.withData regs s.mem).descFetch sel = s.descFetch sel := by
  have hread : ∀ lin, (s.withData regs s.mem).readRange .descriptorRead lin 0 8 = s.readRange .descriptorRead lin 0 8 :=
    fun lin => s.readRange_withData regs s.mem _ lin 0 8 fun _ _ _ _ => rfl
  have htable : ∀ base limit, (s.withData regs s.mem).tableFetch base limit sel = s.tableFetch base limit sel :=
    fun base limit => by
      simp only [State.tableFetch, hread]
      rfl
  simp only [State.descFetch, State.tablesFetch, htable]
  rfl

/-- The two bytes of the selector, read, are the selector's. -/
theorem State.selectorAt_of_readRange {s : State} {i : Instr} {bytes : List Byte}
    (h : s.readRange .dataReadAtCpl (s.operandLin i) i.width.bytes 2 = .ok bytes) :
    SelectorAt s i (BitVec.ofNat 16 (leValue bytes)) := by
  have hmapped := (s.readRange_total .dataReadAtCpl (s.operandLin i) i.width.bytes 2).resolve_right (by simp [h])
  obtain ⟨bs, hbs, hlen, hget⟩ := s.readRange_ok _ _ _ _ hmapped
  obtain rfl : bytes = bs := Except.ok.inj (h.symm.trans hbs)
  intro k hk
  obtain ⟨p, hp⟩ := hmapped k hk
  have hval : leValue bytes < 2 ^ 16 := by simpa [hlen] using leValue_lt bytes
  have hbyte : bytes[k] = (BitVec.ofNat 16 (leValue bytes)).extractLsb' (8 * k) 8 := by
    apply BitVec.eq_of_toNat_eq
    rw [extractLsb'_byte_toNat, BitVec.toNat_ofNat, Nat.mod_eq_of_lt hval, leValue_div_pow_mod bytes k (by omega)]
  simp only [State.operandByte, State.operandTranslation, hp, ← hget k (by omega) p hp, hbyte]

theorem State.operandLinear_eq_ok {s : State} {S : SegName} {a : Size} {ea lin : Addr} {n : Nat}
    (h : s.operandLinear S a ea n = .ok lin) : lin = s.linearAddress S ea := by
  simp only [State.operandLinear] at h
  cases hn : s.nullSegCheck S with
  | error e => rw [hn] at h; cases h
  | ok _ =>
  cases hg : s.segCheck S a ea n with
  | error e => rw [hn, hg] at h; cases h
  | ok _ =>
  cases hc : s.canonCheck S (s.linearAddress S ea) n with
  | error e => rw [hn, hg, hc] at h; cases h
  | ok _ => rw [hn, hg, hc] at h; cases h; rfl

theorem State.selectorAt_of_readFarPointer {s : State} {i : Instr} {off : BitVec 64} {sel : Selector}
    (h : s.readFarPointer (s.operandSegment i) (s.operandSize i) (s.operandEa i) i.width = .ok (off, sel)) :
    SelectorAt s i sel := by
  simp only [State.readFarPointer] at h
  split at h
  · cases h
  cases hl : s.operandLinear (s.operandSegment i) (s.operandSize i) (s.operandEa i) i.width.farBytes with
  | error e => rw [hl] at h; cases h
  | ok lin =>
  obtain rfl : lin = s.operandLin i := State.operandLinear_eq_ok hl
  cases hp : s.readParts (s.operandLin i) i.width with
  | error c => simp only [hl, hp, bind, Except.bind, orPageFault] at h; cases h
  | ok parts =>
  cases ha : s.alignmentCheck i.width (s.operandLin i) with
  | error e => simp only [hl, hp, ha, bind, Except.bind, orPageFault] at h; cases h
  | ok _ =>
  simp only [hl, hp, ha, bind, Except.bind, orPageFault] at h
  cases h
  exact State.selectorAt_of_readRange (State.readParts_ok_selector hp)

/-! ### Loading -/

section
variable {s : State} {regs : Vector GeneralRegister 16} {mem : List Host.Cell} {sel : Selector}

theorem State.loadSsDescriptor_withData (h : (s.withData regs mem).descFetch sel = s.descFetch sel) :
    (s.withData regs mem).loadSsDescriptor sel = (s.loadSsDescriptor sel).map (·.withData regs mem) := by
  have hcpl : (s.withData regs mem).cpl = s.cpl := rfl
  simp only [State.loadSsDescriptor, h, hcpl]
  cases s.descFetch sel with
  | outOfLimits => rfl
  | nonCanonical => rfl
  | pageFault c =>
    dsimp only
    split <;> rfl
  | desc d =>
    dsimp only
    repeat' split
    all_goals rfl

theorem State.loadDataDescriptor_withData (S : SegName) (h : (s.withData regs mem).descFetch sel = s.descFetch sel) :
    (s.withData regs mem).loadDataDescriptor S sel = (s.loadDataDescriptor S sel).map (·.withData regs mem) := by
  have hcpl : (s.withData regs mem).cpl = s.cpl := rfl
  simp only [State.loadDataDescriptor, h, hcpl]
  cases s.descFetch sel with
  | outOfLimits => rfl
  | nonCanonical => rfl
  | pageFault c => rfl
  | desc d =>
    dsimp only
    repeat' split
    all_goals rfl

theorem State.loadSsProt_withData (h : (s.withData regs mem).descFetch sel = s.descFetch sel) :
    (s.withData regs mem).loadSsProt sel = (s.loadSsProt sel).map (·.withData regs mem) := by
  simp only [State.loadSsProt, State.loadSsDescriptor_withData h]
  split <;> rfl

theorem State.loadSsNull64_withData :
    (s.withData regs mem).loadSsNull64 sel = (s.loadSsNull64 sel).map (·.withData regs mem) := by
  have hcpl : (s.withData regs mem).cpl = s.cpl := rfl
  simp only [State.loadSsNull64, hcpl]
  split <;> rfl

theorem State.loadData_withData (S : SegName) (h : (s.withData regs mem).descFetch sel = s.descFetch sel) :
    (s.withData regs mem).loadData S sel = (s.loadData S sel).map (·.withData regs mem) := by
  simp only [State.loadData, State.loadDataDescriptor_withData S h]
  split <;> rfl

/-- A segment-register load reads neither general registers nor memory but through the descriptor lookup
(41_segment_load.md R144). -/
theorem State.loadSegment_withData (S : LoadSeg) (h : (s.withData regs mem).descFetch sel = s.descFetch sel) :
    (s.withData regs mem).loadSegment S sel = (s.loadSegment S sel).map (·.withData regs mem) := by
  simp only [State.loadSegment, State.withData_mode]
  cases s.mode with
  | real => rfl
  | v86 => rfl
  | prot => cases S <;> simp only [State.loadSsProt_withData h, State.loadData_withData _ h]
  | compat => cases S <;> simp only [State.loadSsProt_withData h, State.loadData_withData _ h]
  | long64 =>
    cases S <;> simp only [State.loadData_withData _ h]
    case ss =>
      simp only [State.loadSsNull64_withData, State.loadSsDescriptor_withData h]
      split <;> rfl
    all_goals rfl

theorem State.selectorFaults_withData (S : LoadSeg) (h : (s.withData regs mem).descFetch sel = s.descFetch sel) :
    (s.withData regs mem).selectorFaults S sel = s.selectorFaults S sel := by
  simp only [State.selectorFaults, State.loadSegment_withData S h, faultOf_map, State.descriptorPageFault, h,
    State.withData_mode]

end

/-! ### Executing -/

theorem State.operandLin_withData {s : State} {i : Instr} {regs : Vector GeneralRegister 16} {mem : List Host.Cell}
    (hea : (s.withData regs mem).operandEa i = s.operandEa i) :
    (s.withData regs mem).operandLin i = s.operandLin i :=
  congrArg (s.linearAddress (s.operandSegment i)) hea

/-- The instruction `i` cannot tell `s` from the state over `regs` and `mem`: its operand stands at the same address, its
operand's mapped bytes are the same, and so is the descriptor that the selector among them names. -/
structure SameForInstr (s : State) (i : Instr) (regs : Vector GeneralRegister 16) (mem : List Host.Cell) : Prop where
  ea    : (s.withData regs mem).operandEa i = s.operandEa i
  bytes : ∀ k < i.width.farBytes, (s.withData regs mem).operandByte i k = s.operandByte i k
  desc  : ∀ sel, SelectorAt s i sel → (s.withData regs mem).descFetch sel = s.descFetch sel

namespace SameForInstr

variable {s : State} {i : Instr} {regs : Vector GeneralRegister 16} {mem : List Host.Cell}

theorem readRange (h : SameForInstr s i regs mem) {j n : Nat} (hjn : j + n ≤ i.width.farBytes) :
    (s.withData regs mem).readRange .dataReadAtCpl (s.operandLin i) j n =
      s.readRange .dataReadAtCpl (s.operandLin i) j n := by
  refine s.readRange_withData regs mem _ _ _ _ fun k hk p hp => ?_
  have hs : s.operandTranslation i (j + k) = .phys p := hp
  have hs' : (s.withData regs mem).operandTranslation i (j + k) = .phys p := by
    rw [State.operandTranslation, State.operandLin_withData h.ea]
    exact hp
  simpa [State.operandByte, hs, hs'] using h.bytes (j + k) (by omega)

theorem readRange_offset (h : SameForInstr s i regs mem) :
    (s.withData regs mem).readRange .dataReadAtCpl (s.operandLin i) 0 i.width.bytes =
      s.readRange .dataReadAtCpl (s.operandLin i) 0 i.width.bytes :=
  h.readRange (by simp [Size.farBytes])

theorem readRange_selector (h : SameForInstr s i regs mem) :
    (s.withData regs mem).readRange .dataReadAtCpl (s.operandLin i) i.width.bytes 2 =
      s.readRange .dataReadAtCpl (s.operandLin i) i.width.bytes 2 :=
  h.readRange (Nat.le_refl _)

theorem readParts (h : SameForInstr s i regs mem) :
    (s.withData regs mem).readParts (s.operandLin i) i.width = s.readParts (s.operandLin i) i.width := by
  simp only [State.readParts, h.readRange_offset, h.readRange_selector, State.withData_params]

theorem readFarPointer (h : SameForInstr s i regs mem) :
    (s.withData regs mem).readFarPointer (s.operandSegment i) (s.operandSize i) (s.operandEa i) i.width =
      s.readFarPointer (s.operandSegment i) (s.operandSize i) (s.operandEa i) i.width := by
  have hlinear : (s.withData regs mem).operandLinear (s.operandSegment i) (s.operandSize i) (s.operandEa i)
      i.width.farBytes =
    s.operandLinear (s.operandSegment i) (s.operandSize i) (s.operandEa i) i.width.farBytes := rfl
  simp only [State.readFarPointer, hlinear]
  cases hl : s.operandLinear (s.operandSegment i) (s.operandSize i) (s.operandEa i) i.width.farBytes with
  | error e => rfl
  | ok lin =>
    obtain rfl : lin = s.operandLin i := State.operandLinear_eq_ok hl
    simp only [bind, Except.bind, h.readParts]
    rfl

theorem selectorFaults (h : SameForInstr s i regs mem) {bytes : List Byte}
    (hb : s.readRange .dataReadAtCpl (s.operandLin i) i.width.bytes 2 = .ok bytes) :
    (s.withData regs mem).selectorFaults i.dest (BitVec.ofNat 16 (leValue bytes)) =
      s.selectorFaults i.dest (BitVec.ofNat 16 (leValue bytes)) :=
  State.selectorFaults_withData i.dest (h.desc _ (State.selectorAt_of_readRange hb))

theorem applicable (h : SameForInstr s i regs mem) : (s.withData regs mem).applicable i = s.applicable i := by
  have happ : (s.withData regs mem).applicable i =
      (s.withData regs mem).applicableFaults i.dest (s.operandSegment i) (s.operandSize i)
        ((s.withData regs mem).operandEa i) i.width := rfl
  have hlin : s.linearAddress (s.operandSegment i) (s.operandEa i) = s.operandLin i := rfl
  have hlin' : (s.withData regs mem).linearAddress (s.operandSegment i) (s.operandEa i) = s.operandLin i := rfl
  rw [happ, h.ea, State.applicable]
  simp only [State.applicableFaults, hlin, hlin', h.readRange_selector]
  cases hb : s.readRange .dataReadAtCpl (s.operandLin i) i.width.bytes 2 with
  | error c => rfl
  | ok bytes =>
    simp only [h.selectorFaults hb]
    rfl

end SameForInstr

theorem State.loadSegment_keeps_data {s t : State} {S : LoadSeg} {sel : Selector} (h : s.loadSegment S sel = .ok t) :
    t.regs = s.regs ∧ t.mem = s.mem := by
  obtain ⟨r, n, rfl⟩ := State.loadSegment_frame h
  exact ⟨rfl, rfl⟩

/-- Two states that `i` cannot tell apart: its steps end alike. `f` says what the register write and `pc` make of the
difference between them. -/
theorem State.steps_withData {s : State} {i : Instr} {regs : Vector GeneralRegister 16} {mem : List Host.Cell}
    {f : State → State} (h : SameForInstr s i regs mem)
    (hf : ∀ (u : State) (off : BitVec 64), u.regs = s.regs → u.mem = s.mem →
      ((u.withData regs mem).writeReg i.width i.operands.dst off).advance i.length =
        f ((u.writeReg i.width i.operands.dst off).advance i.length)) :
    (s.withData regs mem).steps i = (s.steps i).map f := by
  have hsteps : (s.withData regs mem).steps i =
      (s.withData regs mem).readFarPointer (s.operandSegment i) (s.operandSize i)
        ((s.withData regs mem).operandEa i) i.width >>= fun p =>
      (s.withData regs mem).loadSegment i.dest p.2 >>= fun t =>
        .ok ((t.writeReg i.width i.operands.dst p.1).advance i.length) := rfl
  rw [hsteps, h.ea, h.readFarPointer, State.steps]
  cases hp : s.readFarPointer (s.operandSegment i) (s.operandSize i) (s.operandEa i) i.width with
  | error e => rfl
  | ok p =>
    obtain ⟨off, sel⟩ := p
    have hdesc := h.desc sel (State.selectorAt_of_readFarPointer hp)
    simp only [bind, Except.bind, State.loadSegment_withData i.dest hdesc]
    cases hl : s.loadSegment i.dest sel with
    | error e => rfl
    | ok u =>
      obtain ⟨hregs, hmem⟩ := State.loadSegment_keeps_data hl
      exact congrArg Except.ok (hf u off hregs hmem)

/-- Two states that `i` cannot tell apart: its outcomes are alike, up to what `f` makes of the next state. -/
theorem exec_withData {s : State} {i : Instr} {regs : Vector GeneralRegister 16} {mem : List Host.Cell}
    {f : State → State} (h : SameForInstr s i regs mem)
    (hf : ∀ (u : State) (off : BitVec 64), u.regs = s.regs → u.mem = s.mem →
      ((u.withData regs mem).writeReg i.width i.operands.dst off).advance i.length =
        f ((u.writeReg i.width i.operands.dst off).advance i.length)) :
    exec i (s.withData regs mem) = mapNext f (exec i s) := by
  by_cases hexists : FormExists s i
  · have hexists' : FormExists (s.withData regs mem) i := hexists
    have hreport : ∀ fs r, (s.withData regs mem).report fs r = s.report fs r := fun fs r => by
      match r with
      | .ok _ | .error (.exception _) | .error (.refusal _) => rfl
    rw [exec_of_exists hexists', exec_of_exists hexists, h.applicable, State.steps_withData h hf, hreport,
      State.report_map, outcome_map]
  · have hexists' : ¬ FormExists (s.withData regs mem) i := hexists
    rw [exec_of_not_exists hexists', exec_of_not_exists hexists, State.withData_mode]
    split <;> rfl

/-! ### Writing a register over the difference -/

theorem State.writeReg_withMem (s : State) (mem : List Host.Cell) (w : Size) (r : Fin 16) (v : BitVec 64) :
    State.writeReg { s with mem := mem } w r v = { s.writeReg w r v with mem := mem } := by
  cases w with
  | s16 => rfl
  | s32 =>
    simp only [State.writeReg]
    split <;> rfl
  | s64 => rfl

@[simp] theorem State.setReg_setReg (s : State) (r : Fin 16) (g g' : GeneralRegister) :
    (s.setReg r g).setReg r g' = s.setReg r g' := by
  simp [State.setReg]

/-- A 32- or 64-bit write leaves nothing of what the register held (10_state.md R21). -/
theorem State.writeReg_setReg_of_ne_s16 (s : State) {w : Size} (hw : w ≠ .s16) (r : Fin 16) (g : GeneralRegister)
    (v : BitVec 64) : (s.setReg r g).writeReg w r v = s.writeReg w r v := by
  cases w with
  | s16 => exact absurd rfl hw
  | s32 =>
    simp only [State.writeReg, State.setReg_mode, State.setReg_draws, State.setReg_setReg]
  | s64 => simp only [State.writeReg, State.setReg_setReg]

/-- The state with bits 63:16 of a register taken from `g`, its bits 15:0 kept. -/
def State.withHighBits (s : State) (r : Fin 16) (g : GeneralRegister) : State :=
  s.setReg r ⟨g.lo.extractLsb' 16 16 ++ (s.reg r).lo.extractLsb' 0 16, g.hi⟩

/-- A 16-bit write leaves bits 63:16 of what the register held, and nothing else of it (10_state.md R21). -/
theorem State.writeReg_s16_setReg (s : State) (r : Fin 16) (g : GeneralRegister) (v : BitVec 64) :
    (s.setReg r g).writeReg .s16 r v = (s.writeReg .s16 r v).withHighBits r g := by
  have hlow : ((s.writeReg .s16 r v).reg r).lo.extractLsb' 0 16 = v.setWidth 16 := by
    rw [State.reg_writeReg_self]
    exact BitVec.extractLsb'_append_eq_right
  rw [State.withHighBits, hlow]
  simp only [State.writeReg, State.reg_setReg_self, State.setReg_setReg]

/-- Other contents of the destination register cannot be told where it takes no part in the operand's address. -/
theorem sameForInstr_setReg {s : State} {i : Instr} {r : Fin 16} {g : GeneralRegister}
    (hea : s.operandEa i = (s.setReg r g).operandEa i) : SameForInstr s i (s.regs.set r.val g) s.mem := by
  refine ⟨hea.symm, fun k _ => ?_, fun sel _ => s.descFetch_withRegs _ sel⟩
  have hlin : (s.setReg r g).operandLin i = s.operandLin i := State.operandLin_withData hea.symm
  have hbyte : (s.setReg r g).operandTranslation i k = s.operandTranslation i k :=
    congrArg (fun lin => s.translate .dataReadAtCpl (s.linearAdd lin k)) hlin
  rw [← State.setReg_eq_withData]
  simp only [State.operandByte, hbyte, State.setReg_mem]

end Sys2Proof.Machine
end

section
/-! Settled: what a completed instruction changes, what its outcome does not depend on, and the stack segment loaded
(10_state.md R22, R30, R35, R37). -/

open Sys2Proof Sys2Proof.Machine

/-- Settles O49: a completed instruction has loaded its one segment register, then written the offset and moved `pc`. -/
theorem completedInstructionFrame : Obligations.CompletedInstructionFrame := by
  intro s t i h
  obtain ⟨-, off, sel, u, -, hload, rfl⟩ := exec_eq_next h
  obtain ⟨r, n, rfl⟩ := State.loadSegment_frame hload
  exact ⟨off, (State.offsetLoaded s i off r n).1⟩

/-- Settles O53: of the loads that can complete, only the checked load of a descriptor into SS leaves SS valid in these
modes. -/
theorem loadedStackSegmentHasCplPrivilege : Obligations.LoadedStackSegmentHasCplPrivilege := by
  intro s t o i hi hreal hv86 h hvalid
  have hdest : i.dest = .ss := by
    simp only [List.mem_cons, List.not_mem_nil, or_false] at hi
    rcases hi with rfl | rfl | rfl <;> rfl
  obtain ⟨-, off, sel, u, -, hload, rfl⟩ := exec_eq_next h
  rw [State.seg_advance, State.seg_writeReg] at hvalid ⊢
  rw [hdest] at hload
  rcases State.loadSegment_eq_ok hload with
    ⟨hm, -⟩ | ⟨-, hS, -⟩ | ⟨-, -, -, -, -, rfl⟩ | ⟨-, -, -, d, -, hrpl, hdata, hdpl, hp, rfl⟩
  · exact (hm.elim hreal hv86).elim
  · exact absurd rfl hS
  · simp at hvalid
  · simp only [State.seg_loadDescriptor_self, State.advance_cpl, State.writeReg_cpl, State.loadDescriptor_cpl]
    exact ⟨hrpl, hdpl, by simpa [Descriptor.isWritableData] using hdata, hp, trivial⟩

/-- Settles O59: the two states read the same operand and descriptor, and the write of the destination register covers
the difference between them but for a 16-bit form's bits 63:16. -/
theorem destinationIsNotReadAsData : Obligations.DestinationIsNotReadAsData := by
  intro s i g
  dsimp only
  intro hea
  have hsame := sameForInstr_setReg hea
  have hover : ∀ u : State, u.regs = s.regs → u.mem = s.mem →
      u.withData (s.regs.set i.operands.dst.val g) s.mem = u.setReg i.operands.dst g := by
    intro u hregs hmem
    rw [← hregs, ← hmem, ← State.setReg_eq_withData]
  rw [State.setReg_eq_withData]
  constructor
  · intro hw
    have hexec := exec_withData (f := id) hsame fun u off hregs hmem => by
      rw [hover u hregs hmem, State.writeReg_setReg_of_ne_s16 u hw, id]
    rw [hexec]
    cases exec i s <;> rfl
  · intro hw
    have hexec := exec_withData (f := (State.withHighBits · i.operands.dst g)) hsame fun u off hregs hmem => by
      rw [hover u hregs hmem, hw, State.writeReg_s16_setReg]
      rfl
    rw [hexec]
    cases exec i s <;> simp [mapNext, State.withHighBits]

/-- Settles O60: over the same operand and descriptor bytes every check and read answers alike, and the writes keep the
memory they find. -/
theorem onlyOperandAndDescriptorBytesMatter : Obligations.OnlyOperandAndDescriptorBytesMatter := by
  intro s i m
  dsimp only
  intro hbytes hdesc
  have hsame : SameForInstr s i s.regs m := ⟨rfl, hbytes, hdesc⟩
  have hexec := exec_withData (f := fun t => { t with mem := m }) hsame fun u off hregs _ => by
    rw [← hregs, State.withData, State.writeReg_withMem]
    rfl
  rw [State.withData] at hexec
  rw [hexec]
  cases exec i s <;> simp [mapNext]

end

section
/-! SUPPORT. Each check on a memory operand by the condition it tests, in the order the checks run, and what the instruction
then ends with (20_memory.md R55 to R61; 60_exceptions.md R175). -/

namespace Sys2Proof.Machine

/-! ### The bytes read -/

/-- The bytes a range read answers: as many as asked for, each the memory's at its translated address (20_memory.md R58,
R60). -/
theorem State.readRange_eq_ok {s : State} {kind : AccessKind} {lin : Addr} {i n : Nat} {bs : List Byte}
    (h : s.readRange kind lin i n = .ok bs) :
    bs.length = n ∧ ∀ k (hk : k < bs.length), ∃ p : Addr,
      s.translate kind (s.linearAdd lin (i + k)) = .phys p ∧ bs[k] = Memory.read s.mem p.toNat := by
  have hmapped := (s.readRange_total kind lin i n).resolve_right (by simp [h])
  obtain ⟨bs', hbs', hlen, hget⟩ := s.readRange_ok kind lin i n hmapped
  obtain rfl : bs = bs' := Except.ok.inj (h.symm.trans hbs')
  refine ⟨hlen, fun k hk => ?_⟩
  obtain ⟨p, hp⟩ := hmapped k (hlen ▸ hk)
  exact ⟨p, hp, hget k hk p hp⟩

/-- A completed `MemRead` is a completed range read at the operand's linear address (20_memory.md R60). -/
theorem State.memRead_eq_ok {s : State} {S : SegName} {a : Size} {ea : Addr} {n v : Nat}
    (h : s.memRead S a ea n = .ok v) :
    ∃ bs, s.readRange .dataReadAtCpl (s.linearAddress S ea) 0 n = .ok bs ∧ v = leValue bs := by
  rw [State.memRead] at h
  cases hl : s.operandLinear S a ea n with
  | error e => rw [hl] at h; cases h
  | ok lin =>
  obtain rfl : lin = s.linearAddress S ea := State.operandLinear_eq_ok hl
  cases hr : s.readRange .dataReadAtCpl (s.linearAddress S ea) 0 n with
  | error c => simp only [hl, hr, bind, Except.bind, orPageFault] at h; cases h
  | ok bs =>
  simp only [hl, hr, bind, Except.bind, orPageFault] at h
  cases h
  exact ⟨bs, rfl, rfl⟩

/-- Where the operand is not mapped, the translation of one of its bytes is a page fault (20_memory.md R58). -/
theorem State.exists_pageFault_of_not_mapped {s : State} {i : Instr} (h : ¬ OperandMapped s i) :
    ∃ k < i.width.farBytes, ∃ c, s.operandTranslation i k = .pageFault c := by
  simp only [OperandMapped, Classical.not_forall] at h
  obtain ⟨k, hk, hnone⟩ := h
  cases hc : s.operandTranslation i k with
  | phys p => simp [State.operandByte, hc] at hnone
  | pageFault c => exact ⟨k, hk, c, hc⟩

/-! ### The checks -/

@[simp] theorem raise_inj {α : Type} {f g : Fault} : (raise f : Except Stop α) = raise g ↔ f = g :=
  ⟨fun h => by cases h; rfl, congrArg raise⟩

/-- A check that tests `p` raises its one exception exactly where `p` fails. -/
theorem okOrRaise_eq_raise {p : Prop} [Decidable p] {f g : Fault} :
    (if p then (.ok () : Except Stop Unit) else raise g) = raise f ↔ ¬ p ∧ f = g := by
  by_cases h : p
  · simp [h, raise]
  · simp [h, eq_comm]

theorem modeIsProtected_iff {m : Mode} : modeIsProtected m = true ↔ m = .prot ∨ m = .compat := by
  cases m <;> simp [modeIsProtected]

theorem isDataSegment_iff {S : SegName} : isDataSegment S = true ↔ S ∈ [SegName.ds, .es, .fs, .gs] := by
  cases S <;> simp [isDataSegment]

/-- The NULL check tests that the segment is usable (20_memory.md R56). -/
theorem State.nullSegCheck_eq (s : State) (i : Instr) :
    s.nullSegCheck (s.operandSegment i) =
      if OperandSegmentUsable s i then .ok () else raise (.generalProtection (some 0)) := by
  have hcond : (modeIsProtected s.mode && isDataSegment (s.operandSegment i) &&
      !(s.seg (s.operandSegment i)).valid) = true ↔ ¬ OperandSegmentUsable s i := by
    simp only [Bool.and_eq_true, Bool.not_eq_true', modeIsProtected_iff, isDataSegment_iff, Classical.not_imp,
      Bool.not_eq_true, and_assoc]
  simp only [State.nullSegCheck, hcond, ite_not]

/-- The limit check tests the access outside 64-bit mode (20_memory.md R55). -/
theorem State.segCheck_eq (s : State) (S : SegName) (a : Size) (ea : Addr) (n : Nat) :
    s.segCheck S a ea n =
      if s.mode ≠ .long64 → s.segAccessOK S a ea.toNat n = true then .ok () else raise (s.addressFault S) := by
  by_cases hm : s.mode = .long64 <;> simp [State.segCheck, hm]

/-- The canonical check tests both ends of the operand in 64-bit mode (20_memory.md R57). -/
theorem State.canonCheck_eq (s : State) (S : SegName) (lin : Addr) (n : Nat) :
    s.canonCheck S lin n =
      if s.mode = .long64 → s.canonicalRange lin n = true then .ok () else raise (s.addressFault S) := by
  by_cases hm : s.mode = .long64 <;> simp [State.canonCheck, hm]

/-- Over a usable segment the checks before the read end with a bad operand address where the operand is out of range
(20_memory.md R55, R57). -/
theorem State.operandLinear_of_not_inRange {s : State} {i : Instr} (hu : OperandSegmentUsable s i)
    (hr : ¬ OperandInRange s i) :
    s.operandLinear (s.operandSegment i) (s.operandSize i) (s.operandEa i) i.width.farBytes =
      raise (s.addressFault (s.operandSegment i)) := by
  have hlin : s.linearAddress (s.operandSegment i) (s.operandEa i) = s.operandLin i := rfl
  rw [State.operandLinear, s.nullSegCheck_eq i, if_pos hu, hlin, s.segCheck_eq, s.canonCheck_eq]
  by_cases hlimit : s.mode ≠ .long64 →
      s.segAccessOK (s.operandSegment i) (s.operandSize i) (s.operandEa i).toNat i.width.farBytes = true
  · rw [if_pos hlimit, if_neg fun hcanon => hr ⟨hlimit, hcanon⟩]
    rfl
  · rw [if_neg hlimit]
    rfl

/-- A bad operand address is never #AC (20_memory.md R55, R57). -/
theorem State.addressFault_ne_alignmentCheck (s : State) (S : SegName) : s.addressFault S ≠ .alignmentCheck := by
  rw [State.addressFault]
  split <;> exact nofun

/-- In 64-bit mode no segment is unusable (20_memory.md R56). -/
theorem operandSegmentUsable_of_long64 {s : State} {i : Instr} (hm : s.mode = .long64) : OperandSegmentUsable s i := by
  simp [OperandSegmentUsable, hm]

/-- The alignment check tests that the operand is aligned (20_memory.md R59). -/
theorem State.alignmentCheck_eq (s : State) (i : Instr) :
    s.alignmentCheck i.width (s.operandLin i) = if OperandAligned s i then .ok () else raise .alignmentCheck := by
  have hcond : (s.alignmentChecked && !s.farPtrAligned i.width (s.operandLin i)) = true ↔ ¬ OperandAligned s i := by
    simp only [Bool.and_eq_true, Bool.not_eq_true', Classical.not_imp, Bool.not_eq_true]
  simp only [State.alignmentCheck, hcond, ite_not]

/-- When the alignment check applies (20_memory.md R59). -/
theorem State.alignmentChecked_iff {s : State} :
    s.alignmentChecked = true ↔
      (s.mode = .v86 ∨ (s.mode = .prot ∨ s.mode = .compat ∨ s.mode = .long64) ∧ s.cpl = 3) ∧ s.alignCheck = true := by
  cases hm : s.mode <;> simp [State.alignmentChecked, hm, and_comm]

/-! ### The segment limit -/

section
variable {s : State} {S : SegName} {a : Size} {ea n : Nat}

/-- A code segment that is not readable allows nothing (20_memory.md R55). -/
theorem State.segLimitOK_of_executeOnly (h : (s.seg S).desc.kind = .codeXNC ∨ (s.seg S).desc.kind = .codeXC) :
    s.segLimitOK S a ea n = false := by
  have hx : (s.seg S).desc.isExecuteOnly = true := by simpa [Descriptor.isExecuteOnly] using h
  simp [State.segLimitOK, hx]

/-- An expand-down data segment allows the addresses above its limit, up to the top its B bit names (20_memory.md R55). -/
theorem State.segLimitOK_iff_of_expandDown
    (hk : (s.seg S).desc.kind = .dataRO ∨ (s.seg S).desc.kind = .dataRW) (ht : (s.seg S).desc.typ.getLsbD 2 = true) :
    s.segLimitOK S a ea n = true ↔ (s.seg S).desc.limit.toNat < ea ∧ ea + n - 1 < 2 ^ a.bits ∧
      ((s.seg S).desc.db = true → ea + n - 1 ≤ 0xFFFFFFFF) ∧ ((s.seg S).desc.db = false → ea + n - 1 ≤ 0xFFFF) := by
  have hx : (s.seg S).desc.isExecuteOnly = false := by
    rcases hk with hk | hk <;> simp [Descriptor.isExecuteOnly, hk]
  have hd : (s.seg S).desc.isExpandDown = true := by
    simpa [Descriptor.isExpandDown, Descriptor.isData, ht] using hk
  cases hb : (s.seg S).desc.db <;> simp [State.segLimitOK, hx, hd, hb] <;> omega

/-- Any other segment allows the addresses up to its limit (20_memory.md R55). -/
theorem State.segLimitOK_iff_of_expandUp
    (h : ((s.seg S).desc.kind = .dataRO ∨ (s.seg S).desc.kind = .dataRW) ∧ (s.seg S).desc.typ.getLsbD 2 = false ∨
      (s.seg S).desc.kind = .codeXRNC ∨ (s.seg S).desc.kind = .codeXRC ∨ (s.seg S).desc.kind = .system) :
    s.segLimitOK S a ea n = true ↔ ea + n - 1 ≤ (s.seg S).desc.limit.toNat ∧ ea + n - 1 < 2 ^ a.bits := by
  have hx : (s.seg S).desc.isExecuteOnly = false := by
    rcases h with ⟨hk | hk, -⟩ | hk | hk | hk <;> simp [Descriptor.isExecuteOnly, hk]
  have hd : (s.seg S).desc.isExpandDown = false := by
    rcases h with ⟨-, ht⟩ | hk | hk | hk
    · rw [Descriptor.isExpandDown, ht, Bool.and_false]
    all_goals simp [Descriptor.isExpandDown, Descriptor.isData, hk]
  simp [State.segLimitOK, hx, hd, and_comm]

end

/-! ### The instruction's end -/

/-- An operand past the top of its address space is refused before any other check (20_memory.md R61). -/
theorem State.steps_of_not_fits {s : State} {i : Instr} (h : ¬ OperandFits s i) :
    s.steps i = refuse .operandWrapsAddressSpace := by
  rw [State.steps, State.readFarPointer, if_pos (Nat.le_of_not_lt h)]
  rfl

/-- An exception of the checks before the read ends the instruction's steps (20_memory.md R61). -/
theorem State.steps_of_operandLinear {s : State} {i : Instr} {f : Fault} (hfit : OperandFits s i)
    (h : s.operandLinear (s.operandSegment i) (s.operandSize i) (s.operandEa i) i.width.farBytes = raise f) :
    s.steps i = raise f := by
  rw [State.steps, State.readFarPointer, if_neg (Nat.not_le_of_lt hfit), h]
  rfl

section
variable {s : State} {i : Instr} (hf : FormExists s i) (hfit : OperandFits s i)
include hf hfit

/-- A NULL data segment is the first check's exception (20_memory.md R56). -/
theorem faultsAs_of_not_usable (hu : ¬ OperandSegmentUsable s i) : FaultsAs s i (.generalProtection (some 0)) := by
  refine faultsAs_of_steps hf (State.steps_of_operandLinear hfit ?_)
  rw [State.operandLinear, s.nullSegCheck_eq, if_neg hu]
  rfl

/-- An operand out of range is the next check's exception (20_memory.md R55, R57). -/
theorem faultsAs_of_not_inRange (hu : OperandSegmentUsable s i) (hr : ¬ OperandInRange s i) :
    FaultsAs s i (s.addressFault (s.operandSegment i)) :=
  faultsAs_of_steps hf (State.steps_of_operandLinear hfit (State.operandLinear_of_not_inRange hu hr))

/-- A page fault met in reading the two parts is the operand's exception (20_memory.md R58, R61). -/
theorem faultsAs_of_readParts_error (hu : OperandSegmentUsable s i) (hr : OperandInRange s i) {c : FaultCode}
    (hc : s.readParts (s.operandLin i) i.width = .error c) : FaultsAs s i (.pageFault c) := by
  refine faultsAs_of_steps hf ?_
  rw [State.steps, State.readFarPointer, if_neg (Nat.not_le_of_lt hfit), s.operandLinear_ok i hu hr]
  simp only [bind, Except.bind, hc, orPageFault, raise]

/-- An unaligned operand is the last of the operand's exceptions (20_memory.md R59; 60_exceptions.md R175). -/
theorem faultsAs_of_not_aligned (hu : OperandSegmentUsable s i) (hr : OperandInRange s i) (hmap : OperandMapped s i)
    (ha : ¬ OperandAligned s i) : FaultsAs s i .alignmentCheck := by
  obtain ⟨off, sel, hparts, -⟩ := s.readParts_ok _ i.width (State.operandMapped_phys hmap)
  refine faultsAs_of_steps hf ?_
  rw [State.steps, State.readFarPointer, if_neg (Nat.not_le_of_lt hfit), s.operandLinear_ok i hu hr]
  simp only [bind, Except.bind, hparts, orPageFault, s.alignmentCheck_eq, if_neg ha, raise]

end

/-- The exception an instruction reports is one of those that apply (60_exceptions.md R175). -/
theorem mem_applicable_of_exec_fault {s : State} {i : Instr} {f : Fault} (hf : FormExists s i)
    (h : exec i s = .fault f) : f ∈ s.applicable i := by
  rw [exec_of_exists hf] at h
  match hs : s.steps i with
  | .ok t => rw [hs] at h; cases h
  | .error (.refusal r) => rw [hs] at h; cases h
  | .error (.exception g) =>
    rw [hs] at h
    cases h
    exact s.reportedFault_mem (State.steps_raise_applies hs)

/-! ### Which exceptions the checks of a selector raise -/

/-- The exceptions a refused load of `S` with selector `sel` raises: #SS for SS and #NP for another register, both with the
selector, which for #NP is not NULL; #UD for DS and ES in 64-bit mode only (41_segment_load.md R144 to R153). -/
inductive SelectorException (s : State) (S : LoadSeg) (sel : Selector) : Fault → Prop where
  | protection (e : BitVec 16) (code : e = 0 ∨ e = errSel sel) : SelectorException s S sel (.generalProtection (some e))
  | page (c : FaultCode) (fetch : s.descFetch sel = .pageFault c) : SelectorException s S sel (.pageFault c)
  | stack (dest : S = .ss) : SelectorException s S sel (.stackSegment (some (errSel sel)))
  | notPresent (dest : S ≠ .ss) (nonNull : isNull sel = false) : SelectorException s S sel (.segmentNotPresent (errSel sel))
  | undefined (mode : s.mode = .long64) (dest : S.isDsEs = true) : SelectorException s S sel .undefinedOpcode

theorem State.nonCanonCode_eq (s : State) (sel : Selector) : s.nonCanonCode sel = 0 ∨ s.nonCanonCode sel = errSel sel := by
  rw [State.nonCanonCode]
  split
  · exact .inr rfl
  · exact .inl rfl

/-- A refused load of SS from a descriptor (41_segment_load.md R146, R149). -/
theorem State.loadSsDescriptor_eq_raise {s : State} {sel : Selector} {f : Fault} (h : s.loadSsDescriptor sel = raise f) :
    SelectorException s .ss sel f := by
  rw [State.loadSsDescriptor] at h
  split at h
  · cases h; exact .protection _ (s.nonCanonCode_eq sel)
  · cases h; exact .protection _ (.inr rfl)
  · next c hc =>
    split at h <;> cases h
    · exact .protection _ (.inr rfl)
    · exact .page c hc
  · split at h
    · cases h; exact .protection _ (.inr rfl)
    split at h
    · cases h; exact .protection _ (.inr rfl)
    split at h <;> cases h
    exact .stack rfl

/-- A refused load of DS, ES, FS or GS (41_segment_load.md R147, R148, R151, R152). -/
theorem State.loadData_eq_raise {s : State} {S : LoadSeg} (hS : S ≠ .ss) {sel : Selector} {f : Fault}
    (h : s.loadData S.name sel = raise f) : SelectorException s S sel f := by
  rw [State.loadData] at h
  split at h
  · cases h
  next hn =>
  rw [State.loadDataDescriptor] at h
  split at h
  · cases h; exact .protection _ (.inr rfl)
  · cases h; exact .protection _ (.inr rfl)
  · next c hc => cases h; exact .page c hc
  · split at h
    · cases h; exact .protection _ (.inr rfl)
    split at h
    · cases h; exact .protection _ (.inr rfl)
    split at h <;> cases h
    exact .notPresent hS (eq_false_of_ne_true hn)

/-- A refused load of SS outside 64-bit mode (41_segment_load.md R146). -/
theorem State.loadSsProt_eq_raise {s : State} {sel : Selector} {f : Fault} (h : s.loadSsProt sel = raise f) :
    SelectorException s .ss sel f := by
  rw [State.loadSsProt] at h
  split at h
  · cases h; exact .protection _ (.inl rfl)
  · exact State.loadSsDescriptor_eq_raise h

/-- A refused NULL load of SS in 64-bit mode (41_segment_load.md R150). -/
theorem State.loadSsNull64_eq_raise {s : State} {sel : Selector} {f : Fault} (h : s.loadSsNull64 sel = raise f) :
    SelectorException s .ss sel f := by
  rw [State.loadSsNull64] at h
  split at h <;> cases h
  exact .protection _ (.inl rfl)

/-- A refused segment-register load: never in real-address or virtual-8086 mode (41_segment_load.md R144 to R153). -/
theorem State.loadSegment_eq_raise {s : State} {S : LoadSeg} {sel : Selector} {f : Fault}
    (h : s.loadSegment S sel = raise f) :
    (s.mode ≠ .real ∧ s.mode ≠ .v86) ∧ SelectorException s S sel f := by
  cases hm : s.mode <;> simp only [State.loadSegment, hm] at h
  case real | v86 => cases h
  case prot | compat =>
    refine ⟨⟨nofun, nofun⟩, ?_⟩
    cases S
    case ss => exact State.loadSsProt_eq_raise h
    all_goals exact State.loadData_eq_raise (by decide) h
  case long64 =>
    refine ⟨⟨nofun, nofun⟩, ?_⟩
    cases S
    case ss =>
      dsimp only at h
      split at h
      · exact State.loadSsNull64_eq_raise h
      · exact State.loadSsDescriptor_eq_raise h
    case ds | es => cases h; exact .undefined hm rfl
    case fs | gs => exact State.loadData_eq_raise (by decide) h

/-- No check of a selector raises #AC (60_exceptions.md R173 row 9). -/
theorem State.alignmentCheck_not_mem_selectorFaults (s : State) (S : LoadSeg) (sel : Selector) :
    Fault.alignmentCheck ∉ s.selectorFaults S sel := by
  rw [State.selectorFaults, List.mem_append, mem_faultOf]
  rintro (hl | hd)
  · cases (State.loadSegment_eq_raise hl).2
  · rw [State.descriptorPageFault] at hd
    repeat' split at hd
    all_goals simp at hd

/-- #AC applies to an unaligned operand only: no other check raises it (20_memory.md R59). -/
theorem State.not_operandAligned_of_mem_applicable {s : State} {i : Instr} (h : Fault.alignmentCheck ∈ s.applicable i) :
    ¬ OperandAligned s i := by
  rw [State.mem_applicable, s.nullSegCheck_eq, s.segCheck_eq, s.canonCheck_eq, s.alignmentCheck_eq] at h
  simp only [okOrRaise_eq_raise] at h
  rcases h with ⟨-, h⟩ | ⟨-, h⟩ | ⟨-, h⟩ | ⟨k, -, c, -, h⟩ | ⟨h, -⟩ | ⟨bytes, -, h⟩
  · cases h
  · exact absurd h.symm (s.addressFault_ne_alignmentCheck _)
  · exact absurd h.symm (s.addressFault_ne_alignmentCheck _)
  · cases h
  · exact h
  · exact absurd h (s.alignmentCheck_not_mem_selectorFaults _ _)

/-! ### A step that completes -/

/-- No instruction of the family loads CS (30_encoding.md R82). -/
theorem cs_ne_name (S : LoadSeg) : SegName.cs ≠ S.name := by
  cases S <;> decide

/-- A step that completes has executed the instruction at `pc` (70_reset_and_hazards.md R204). -/
theorem exists_exec_of_step_eq_next {s t : State} (h : step s = .next t) : ∃ i, exec i s = .next t := by
  rw [step] at h
  split at h
  · next i _ _ => exact ⟨i, h⟩
  · next e _ => cases e <;> cases h

end Sys2Proof.Machine
end

section
/-! Settled: the memory operand, its checks, its linear address and its bytes, and what a step leaves as it was
(20_memory.md R51 to R64). -/

open Sys2Proof Sys2Proof.Machine

/-- Settles O17: the value read is made of the translated bytes, and each of its bytes is the memory's. -/
theorem memReadIsLittleEndian : Obligations.MemReadIsLittleEndian := by
  intro s S a ea n v _ h
  obtain ⟨bs, hread, rfl⟩ := State.memRead_eq_ok h
  obtain ⟨rfl, hget⟩ := State.readRange_eq_ok hread
  refine ⟨leValue_lt bs, fun k hk => ?_⟩
  obtain ⟨p, hp, hbyte⟩ := hget k hk
  rw [Nat.zero_add] at hp
  exact ⟨p, hp, by rw [leValue_div_pow_mod bs k hk, hbyte]⟩

/-- Settles O33: the hypotheses say that the operand's segment is not usable. -/
theorem nullSegmentOperandFaults : Obligations.NullSegmentOperandFaults := by
  intro s i hf hfit hm hseg hvalid
  refine faultsAs_of_not_usable hf hfit fun hu => ?_
  rw [hu hm hseg] at hvalid
  cases hvalid

/-- Settles O34: the operand is out of range, and the exception for that is by segment and mode. -/
theorem operandOutsideLimitFaults : Obligations.OperandOutsideLimitFaults := by
  intro s i hf hfit hu hm hlimit
  have hr : ¬ OperandInRange s i := fun hr => by
    rw [hr.1 hm] at hlimit
    cases hlimit
  have hfault := faultsAs_of_not_inRange hf hfit hu hr
  refine ⟨fun hS hreal => ?_, fun hS hreal => ?_, fun hS hreal => ?_, fun hS hreal => ?_⟩
  all_goals simpa only [State.addressFault, State.operandCode, hS, hreal, if_true, if_false] using hfault

/-- Settles O35: each of the three conditions puts the operand out of range. -/
theorem nonCanonicalOperandFaults : Obligations.NonCanonicalOperandFaults := by
  intro s i hf hfit hm hbad
  have hr : ¬ OperandInRange s i := fun hr => by
    have hrange := hr.2 hm
    simp only [State.canonicalRange, Bool.and_eq_true, decide_eq_true_eq] at hrange
    obtain ⟨⟨hfirst, hlast⟩, htop⟩ := hrange
    rcases hbad with hbad | hbad | hbad
    · rw [hfirst] at hbad; cases hbad
    · rw [hlast] at hbad; cases hbad
    · omega
  have hfault := faultsAs_of_not_inRange hf hfit (operandSegmentUsable_of_long64 hm) hr
  refine ⟨fun hS => ?_, fun hS => ?_⟩
  all_goals simpa [State.addressFault, State.operandCode, hS, hm] using hfault

/-- Settles O37: whichever part is read first, the read stops at a byte that faults. -/
theorem unmappedOperandFaults : Obligations.UnmappedOperandFaults := by
  intro s i hf hfit hu hr hmap
  obtain ⟨k, hk, c, hc⟩ := State.exists_pageFault_of_not_mapped hmap
  obtain ⟨c', hparts, j, hj, hjc⟩ := s.readParts_error (s.operandLin i) i.width k c hk hc
  exact ⟨j, hj, c', hjc, faultsAs_of_readParts_error hf hfit hu hr hparts⟩

/-- Settles O38: the alignment check is the one place that raises #AC. -/
theorem unalignedOperandFaults : Obligations.UnalignedOperandFaults := by
  intro s i hf hfit
  refine ⟨fun hu hr hmap hmode hac hun => ?_, fun h => ?_⟩
  · refine faultsAs_of_not_aligned hf hfit hu hr hmap fun ha => ?_
    rw [ha (State.alignmentChecked_iff.mpr ⟨hmode, hac⟩)] at hun
    cases hun
  · have hun := State.not_operandAligned_of_mem_applicable (mem_applicable_of_exec_fault hf h)
    obtain ⟨hchecked, hun⟩ := Classical.not_imp.mp hun
    obtain ⟨hmode, hac⟩ := State.alignmentChecked_iff.mp hchecked
    exact ⟨hmode, hac, eq_false_of_ne_true hun⟩

/-- Settles O50: a step that completes has executed an instruction, which replaces one segment register, never CS, writes a
general register and moves `pc`. -/
theorem stepKeepsMemoryModeAndTables : Obligations.StepKeepsMemoryModeAndTables := by
  intro s t h
  obtain ⟨i, h⟩ := exists_exec_of_step_eq_next h
  obtain ⟨-, off, sel, u, -, hload, rfl⟩ := exec_eq_next h
  obtain ⟨r, n, rfl⟩ := State.loadSegment_frame hload
  have hframe := (State.offsetLoaded s i off r n).1.frame
  exact ⟨by simp, hframe.mode, hframe.cpl, hframe.alignCheck, hframe.segs .cs (cs_ne_name i.dest), hframe.opSize,
    hframe.addrSize, hframe.gdtr, hframe.ldtr, hframe.answers, hframe.segOk, hframe.aligned, hframe.paging,
    hframe.params⟩

/-- Settles O16, by mode and segment. -/
theorem linearAddressOfEffectiveAddress : Obligations.LinearAddressOfEffectiveAddress := by
  intro s S ea
  refine ⟨fun hm => ?_, fun hm hS => ?_, fun hm hS => ?_⟩
  · simp only [State.linearAddress, if_neg hm, BitVec.toNat_setWidth, BitVec.toNat_add]
    omega
  · rcases hS with rfl | rfl <;> simp [State.linearAddress, hm]
  · simp only [List.mem_cons, List.not_mem_nil, or_false] at hS
    rcases hS with rfl | rfl | rfl | rfl <;> simp [State.linearAddress, hm]

/-- Settles O32: the operand's fit is looked at before anything else. -/
theorem wrappingOperandRefused : Obligations.WrappingOperandRefused := by
  intro s i hf hfit
  rw [exec_of_exists hf, State.steps_of_not_fits hfit]
  rfl

/-- Settles O36: bits 63 to 47 are the quotient by 2^47, and equal when it is 0 or 2^17 - 1. -/
theorem canonicalWithFortyEightBits : Obligations.CanonicalWithFortyEightBits := by
  intro a
  have := a.isLt
  simp only [canonical, Bool.or_eq_true, beq_iff_eq]
  omega

/-- Settles O39, by the kinds of segment the limit is read in. -/
theorem segmentLimitComparison : Obligations.SegmentLimitComparison := by
  intro s S a ea n
  dsimp only
  refine ⟨fun b hb => ?_, fun hnone => ?_⟩
  · simp [State.segAccessOK, hb]
  · have hok : s.segAccessOK S a ea n = s.segLimitOK S a ea n := by simp [State.segAccessOK, hnone]
    rw [hok]
    refine ⟨State.segLimitOK_of_executeOnly, State.segLimitOK_iff_of_expandDown, State.segLimitOK_iff_of_expandUp⟩

/-- Settles O40: a remainder of 0 is divisibility. -/
theorem farPointerAlignment : Obligations.FarPointerAlignment := by
  intro s w lin
  refine ⟨fun b hb => ?_, fun hnone => ⟨?_, fun hp => ?_⟩⟩
  · simp [State.farPtrAligned, hb]
  · simp [State.farPtrAligned, hnone, Nat.dvd_iff_mod_eq_zero]
  · cases w <;> simp [State.alignUnit, hp, Config.Params.default, Size.bytes]

end

section
/-! SUPPORT. What the decoder gives, read backwards from its answer, and the bytes at which each of its stages stops
(30_encoding.md R93 to R101). -/

namespace Sys2Proof

/-! ### From an instruction back to its bytes -/

theorem LoadSeg.isDsEs_iff {S : LoadSeg} : S.isDsEs = true ↔ S = .ds ∨ S = .es := by
  cases S <;> simp [LoadSeg.isDsEs]

/-- A VEX test that passes leaves no LDS or LES in 64-bit mode (30_encoding.md R94). -/
theorem vexCheck_eq_ok {env : DecodeEnv} {S : LoadSeg} {bs : List Byte} (h : vexCheck env S bs = .ok ()) :
    ¬ (S.isDsEs = true ∧ env.mode = .long64) := by
  rintro ⟨hS, hm⟩
  simp only [vexCheck, hS, hm, if_true] at h
  cases h

/-- A REX byte read stands in 64-bit mode, and is the one byte before what is left (30_encoding.md R86). -/
theorem readRex_eq_ok_encode {mode : Mode} {bs rest : List Byte} {rex : Option Rex}
    (h : readRex mode bs = .ok (rex, rest)) :
    (rex = none ∨ mode = .long64) ∧ bs = rex.toList.map Rex.byte ++ rest := by
  rcases readRex_eq_ok h with ⟨rfl, rfl⟩ | ⟨hm, r, rfl, rfl⟩
  · exact ⟨.inl rfl, rfl⟩
  · exact ⟨.inr hm, rfl⟩

/-- Each stage of a successful decode, by its own result (30_encoding.md R101). -/
theorem decode_stages {env : DecodeEnv} {bytes rest : List Byte} {i : Instr} (h : decode env bytes = .ok (i, rest)) :
    ∃ bs₁ bs₂ bs₃ bs₄ bs₅, scanPrefixes [] bytes = .ok (i.operands.pre, bs₁) ∧
      readRex env.mode bs₁ = .ok (i.operands.rex, bs₂) ∧ readOpcode bs₂ = .ok (i.dest, bs₃) ∧
      vexCheck env i.dest bs₃ = .ok () ∧
      readModRM bs₃ = .ok ((i.operands.mod, i.operands.reg, i.operands.rm), bs₄) ∧ LegacyPrefix.lock ∉ i.operands.pre ∧
      readSib (addressSize env i.operands.pre) i.operands.rm bs₄ = .ok (i.operands.sib, bs₅) ∧
      readDisp (dispSize (addressSize env i.operands.pre) i.operands.mod i.operands.rm i.operands.sib) bs₅ =
        .ok (i.operands.disp, rest) ∧
      i.width = operandSize env i.operands.pre i.operands.rex := by
  simp only [decode, bind, Except.bind] at h
  split at h
  · cases h
  next p₁ h₁ =>
  split at h
  · cases h
  next p₂ h₂ =>
  split at h
  · cases h
  next p₃ h₃ =>
  split at h
  · cases h
  next h₄ =>
  split at h
  · cases h
  next p₅ h₅ =>
  split at h
  · cases h
  next hlock =>
  split at h
  · cases h
  next p₆ h₆ =>
  split at h
  · cases h
  next p₇ h₇ =>
  split at h
  · next j hform =>
    cases h
    obtain ⟨hdest, hwidth, hops⟩ := Instr.ofForm_eq_some hform
    rw [hops, hdest]
    exact ⟨_, _, _, _, _, h₁, h₂, h₃, h₄, h₅, by simpa using hlock, h₆, h₇, hwidth⟩
  · cases h

/-- What is decoded is well formed, and its encoding is the bytes it was read from (30_encoding.md R80 to R101). -/
theorem decode_eq_ok {env : DecodeEnv} {bytes rest : List Byte} {i : Instr} (h : decode env bytes = .ok (i, rest)) :
    wellFormed env i = true ∧ bytes = encode i ++ rest := by
  obtain ⟨bs₁, bs₂, bs₃, bs₄, bs₅, hscan, hrex, hop, hvex, hmodrm, hlock, hsib, hdisp, hwidth⟩ := decode_stages h
  obtain ⟨hgroups, rfl, -⟩ := scanPrefixes_eq_ok hscan
  obtain rfl := readOpcode_eq_ok hop
  obtain rfl := readModRM_eq_ok hmodrm
  obtain ⟨hsibSome, rfl⟩ := readSib_eq_ok hsib
  obtain ⟨hdispSize, rfl⟩ := readDisp_eq_ok hdisp
  obtain ⟨hrexOk, rfl⟩ := readRex_eq_ok_encode hrex
  refine ⟨wellFormed_iff.mpr ⟨hgroups, hlock, hrexOk, hwidth, vexCheck_eq_ok hvex, hsibSome, hdispSize⟩, ?_⟩
  simp [encode, Operands.modrm]

theorem LoadSeg.one_le_opcode_length (S : LoadSeg) : 1 ≤ S.opcode.length := by
  cases S <;> decide

/-! ### The operand-size attribute -/

theorem rexW_iff {rex : Option Rex} : rexW rex = true ↔ ∃ r, rex = some r ∧ r.w = true := by
  cases rex <;> simp [rexW]

theorem operandSize_of_long64 {env : DecodeEnv} (hm : env.mode = .long64) (pre : List LegacyPrefix) (rex : Option Rex) :
    operandSize env pre rex =
      if rexW rex = true then .s64 else if LegacyPrefix.opSize ∈ pre then .s16 else .s32 := by
  simp only [operandSize, hm, List.contains_eq_mem, decide_eq_true_eq]

theorem operandSize_of_not_long64 {env : DecodeEnv} (hm : env.mode ≠ .long64) (pre : List LegacyPrefix)
    (rex : Option Rex) : operandSize env pre rex = toggledSize env.defaultOp (pre.contains .opSize) := by
  cases h : env.mode
  case long64 => exact absurd h hm
  all_goals simp only [operandSize, h]

/-! ### The bytes at which the decoder stops -/

/-- The prefixes accepted so far do not change where the scan of the rest stops (30_encoding.md R95). -/
theorem scanPrefixes_map_error {seen : List Nat} {pre : List LegacyPrefix} {bs : List Byte} {e : DecodeStop}
    (hd : distinctGroups seen pre = true)
    (h : scanPrefixes ((pre.map LegacyPrefix.group).reverse ++ seen) bs = .error e) :
    scanPrefixes seen (pre.map LegacyPrefix.byte ++ bs) = .error e := by
  induction pre generalizing seen with
  | nil => exact h
  | cons p ps ih =>
    simp only [distinctGroups, Bool.and_eq_true, Bool.not_eq_true'] at hd
    have hrest := ih hd.2 (by simpa using h)
    simp only [List.map_cons, List.cons_append, scanPrefixes, classify_byte, hd.1, Bool.false_eq_true, if_false, hrest]

section
variable {env : DecodeEnv} {pre : List LegacyPrefix} (hpre : distinctGroups [] pre = true)
include hpre

theorem decode_of_rep {b : Byte} (hb : classify b = .rep) (rest : List Byte) :
    decode env (pre.map LegacyPrefix.byte ++ b :: rest) = .error .prefixForm := by
  have hscan := scanPrefixes_map_error (bs := b :: rest) (e := .prefixForm) hpre (by simp [scanPrefixes, hb])
  simp only [decode, hscan, bind, Except.bind]

theorem decode_of_repeated_group {p q : LegacyPrefix} (hq : q ∈ pre) (hpq : p.group = q.group) (rest : List Byte) :
    decode env (pre.map LegacyPrefix.byte ++ p.byte :: rest) = .error .prefixForm := by
  have hseen : p.group ∈ (pre.map LegacyPrefix.group).reverse ++ [] := by
    simpa using ⟨q, hq, hpq.symm⟩
  have hscan := scanPrefixes_map_error (bs := p.byte :: rest) (e := .prefixForm) hpre (by
    simp only [scanPrefixes, classify_byte, List.contains_eq_mem, hseen, decide_true, if_true])
  simp only [decode, hscan, bind, Except.bind]

/-- A REX byte that is not the last byte before the opcode is refused (30_encoding.md R86, R95). -/
theorem decode_of_misplaced_rex (hm : env.mode = .long64) (r : Rex) {c : Byte}
    (hc : classify c ≠ .other ∨ isRexByte c = true) (rest : List Byte) :
    decode env (pre.map LegacyPrefix.byte ++ r.byte :: c :: rest) = .error .prefixForm := by
  have hrex : readRex env.mode (r.byte :: c :: rest) = .error .prefixForm := by
    have hbad : ¬ (classify c = .other ∧ isRexByte c = false) := by
      rintro ⟨hother, hno⟩
      rcases hc with hc | hc
      · exact hc hother
      · simp [hc] at hno
    simp only [readRex, hm, isRexByte_byte, and_self, if_true, if_neg hbad]
  simp only [decode, scanPrefixes_map [] pre r.byte _ hpre (classify_rexByte r), hrex, bind, Except.bind]

/-- Bytes that are no opcode of the family, after the prefixes and the REX byte (30_encoding.md R100). -/
theorem decode_of_readOpcode_error {b : Byte} {rest bs : List Byte} {rex : Option Rex} {e : DecodeStop}
    (hb : classify b = .other) (hrex : readRex env.mode (b :: rest) = .ok (rex, bs)) (h : readOpcode bs = .error e) :
    decode env (pre.map LegacyPrefix.byte ++ b :: rest) = .error e := by
  simp only [decode, scanPrefixes_map [] pre b rest hpre hb, hrex, h, bind, Except.bind]

variable {rex : Option Rex} (hrex : rex = none ∨ env.mode = .long64) {S : LoadSeg} {b : Byte} {rest : List Byte}
include hrex

theorem decode_of_vexCheck_error {e : DecodeStop} (h : vexCheck env S (b :: rest) = .error e) :
    decode env (pre.map LegacyPrefix.byte ++ rex.toList.map Rex.byte ++ S.opcode ++ b :: rest) = .error e := by
  simp only [decode, List.append_assoc, scanPrefixes_encode hpre, readRex_encode hrex, readOpcode_opcode, h, bind,
    Except.bind]

/-- A register source, ModRM.mod = 11 (30_encoding.md R84). -/
theorem decode_of_register_source (hvex : vexCheck env S (b :: rest) = .ok ()) (hb : b.extractLsb' 6 2 = 3#2) :
    decode env (pre.map LegacyPrefix.byte ++ rex.toList.map Rex.byte ++ S.opcode ++ b :: rest) =
      .error .undefinedOpcode := by
  have hmodrm : readModRM (b :: rest) = .error .undefinedOpcode := by
    simp [readModRM, hb, Mod.ofBits]
  simp only [decode, List.append_assoc, scanPrefixes_encode hpre, readRex_encode hrex, readOpcode_opcode, hvex, hmodrm,
    bind, Except.bind]

/-- With LOCK the decoder stops at the ModRM byte, whether that names a register or memory (30_encoding.md R84, R93). -/
theorem decode_of_lock (hvex : vexCheck env S (b :: rest) = .ok ()) (hlock : LegacyPrefix.lock ∈ pre) :
    decode env (pre.map LegacyPrefix.byte ++ rex.toList.map Rex.byte ++ S.opcode ++ b :: rest) =
      .error .undefinedOpcode := by
  simp only [decode, List.append_assoc, scanPrefixes_encode hpre, readRex_encode hrex, readOpcode_opcode, hvex, bind,
    Except.bind]
  cases hmod : Mod.ofBits (b.extractLsb' 6 2) <;> simp [readModRM, hmod, hlock]

end

/-- `C4` and `C5` in the VEX space (30_encoding.md R94). -/
theorem vexCheck_of_vex {env : DecodeEnv} {S : LoadSeg} {b : Byte} (hS : S.isDsEs = true)
    (h : env.mode = .long64 ∨ b.extractLsb' 6 2 = 3#2) (rest : List Byte) :
    vexCheck env S (b :: rest) = .error (vexStop env) := by
  by_cases hm : env.mode = .long64
  · simp only [vexCheck, hS, hm, if_true]
  · simp only [vexCheck, hS, if_neg hm, if_pos (h.resolve_left hm), if_true]

/-- The opcodes `0F B2`, `0F B4`, `0F B5`, and `C4` and `C5` where they are read as the forms (30_encoding.md R94). -/
theorem vexCheck_of_not_vex {env : DecodeEnv} {S : LoadSeg} {b : Byte}
    (h : ¬ (S.isDsEs = true ∧ (env.mode = .long64 ∨ b.extractLsb' 6 2 = 3#2))) (rest : List Byte) :
    vexCheck env S (b :: rest) = .ok () := by
  by_cases hS : S.isDsEs = true
  · obtain ⟨hm, hb⟩ := not_or.mp fun hvex => h ⟨hS, hvex⟩
    simp only [vexCheck, hS, if_neg hm, if_neg hb, if_true]
  · simp only [vexCheck, if_neg hS]

/-! ### Bytes outside the family -/

/-- The bytes outside the family are no bytes of prefixes (30_encoding.md R92, R93, R95). -/
theorem classify_of_not_mem {b : Byte}
    (h : b ∉ [0xC4#8, 0xC5, 0x0F, 0xF0, 0xF2, 0xF3, 0x26, 0x2E, 0x36, 0x3E, 0x64, 0x65, 0x66, 0x67]) :
    classify b = .other := by
  revert b
  decide

theorem not_mem_opcodes_of_not_mem {b : Byte}
    (h : b ∉ [0xC4#8, 0xC5, 0x0F, 0xF0, 0xF2, 0xF3, 0x26, 0x2E, 0x36, 0x3E, 0x64, 0x65, 0x66, 0x67]) :
    b ∉ [0xC4#8, 0xC5#8, 0x0F#8] := by
  revert b
  decide

theorem isRexByte_of_outside {b : Byte} (h : b < 0x40#8 ∨ 0x4F#8 < b) : isRexByte b = false := by
  revert b
  decide

theorem readOpcode_of_not_mem {b : Byte} (h : b ∉ [0xC4#8, 0xC5#8, 0x0F#8]) (rest : List Byte) :
    readOpcode (b :: rest) = .error .notInScope := by
  simp only [List.mem_cons, List.not_mem_nil, or_false, not_or] at h
  obtain ⟨hC4, hC5, h0F⟩ := h
  simp only [readOpcode, if_neg hC4, if_neg hC5, if_neg h0F]

theorem readOpcode_of_second_not_mem {c : Byte} (h : c ∉ [0xB2#8, 0xB4#8, 0xB5#8]) (rest : List Byte) :
    readOpcode (0x0F#8 :: c :: rest) = .error .notInScope := by
  simp only [List.mem_cons, List.not_mem_nil, or_false, not_or] at h
  obtain ⟨hB2, hB4, hB5⟩ := h
  simp only [readOpcode, if_neg hB2, if_neg hB4, if_neg hB5]
  rfl

theorem Rex.byte_not_mem_opcodes (r : Rex) : r.byte ∉ [0xC4#8, 0xC5#8, 0x0F#8] := fun h => by
  have hno : ∀ b ∈ [0xC4#8, 0xC5#8, 0x0F#8], isRexByte b = false := by decide
  have := hno _ h
  rw [isRexByte_byte] at this
  cases this

end Sys2Proof
end

section
/-! Settled: the round trip of encoder and decoder, the length and width of what is decoded, and the bytes at which the
decoder stops (30_encoding.md R80 to R101). -/

open Sys2Proof Sys2Proof.Machine

/-- Settles O2: each stage of the decoder reads back the bytes the encoder wrote for it. -/
theorem decodeOfEncodeIsTheInstruction : Obligations.DecodeOfEncodeIsTheInstruction :=
  fun _ _ rest h => decode_encode_append h rest

/-- Settles O3: each stage of the decoder determines the bytes it has taken. -/
theorem decodedBytesAreTheEncoding : Obligations.DecodedBytesAreTheEncoding :=
  fun _ _ _ _ h => decode_eq_ok h

/-- Settles O4: the bytes taken are the encoding, whose length is R96's sum. -/
theorem decodedLengthIsTheSumAndTwoToThirteen : Obligations.DecodedLengthIsTheSumAndTwoToThirteen := by
  intro env bytes rest i h
  obtain ⟨hwf, rfl⟩ := decode_eq_ok h
  have hlen : (encode i).length = i.length := Laws.EncodedLength.ofParts i
  refine ⟨by rw [List.length_append, hlen], ?_, hlen ▸ length_encode_le_maxLength hwf, ?_⟩
  · have := i.dest.one_le_opcode_length
    rw [Instr.length, formLength]
    omega
  · have hop : i.dest.opcode.length = if i.dest = .ds ∨ i.dest = .es then 1 else 2 := by
      cases i.dest <;> rfl
    rw [Instr.length, formLength, hop]
    cases i.operands.disp <;> rfl

/-- Settles O5: a decoded instruction is well formed, so its width is the operand-size attribute. -/
theorem decodedWidthIsTheOperandSizeAttribute : Obligations.DecodedWidthIsTheOperandSizeAttribute := by
  intro env bytes rest i h
  obtain ⟨-, -, -, hwidth, -⟩ := wellFormed_iff.mp (decode_eq_ok h).1
  rw [hwidth]
  refine ⟨fun hm => ?_, fun hm => ?_⟩
  · rw [operandSize_of_long64 hm, ← rexW_iff]
    refine ⟨fun hw => ?_, fun hw h66 => ?_, fun hw h66 => ?_⟩
    · rw [if_pos hw]
    · rw [if_neg hw, if_pos h66]
    · rw [if_neg hw, if_neg h66]
  · rw [operandSize_of_not_long64 hm]
    refine ⟨fun hd h66 => ?_, fun hd h66 => ?_, fun hd h66 => ?_, fun hd h66 => ?_⟩
    all_goals simp [hd, h66, toggledSize]

/-- Settles O6: before the LOCK test only the VEX bytes and a register source stop the decoder, with #UD too. -/
theorem lockPrefixIsUndefinedOpcode : Obligations.LockPrefixIsUndefinedOpcode := by
  intro env pre rex S modrm rest hpre hlock hrex hS
  have hrex : rex = none ∨ env.mode = .long64 := or_iff_not_imp_left.mpr hrex
  by_cases hvex : S.isDsEs = true ∧ (env.mode = .long64 ∨ modrm.extractLsb' 6 2 = 3#2)
  · have hoff : env.vex = false := (hS (LoadSeg.isDsEs_iff.mp hvex.1)).resolve_right fun ⟨hm, hb⟩ => hvex.2.elim hm hb
    have hstop := vexCheck_of_vex hvex.1 hvex.2 rest
    rw [vexStop, hoff] at hstop
    exact decode_of_vexCheck_error hpre hrex hstop
  · exact decode_of_lock hpre hrex (vexCheck_of_not_vex hvex rest) hlock

/-- Settles O7: a register source is #UD at the VEX bytes, or at the ModRM byte. -/
theorem registerSourceIsUndefinedOpcode : Obligations.RegisterSourceIsUndefinedOpcode := by
  intro env pre rex S modrm rest hpre hrex hS hmod
  have hrex : rex = none ∨ env.mode = .long64 := or_iff_not_imp_left.mpr hrex
  by_cases hdest : S.isDsEs = true
  · have hoff : env.vex = false := by
      rcases hS with rfl | rfl | rfl | hoff
      case inr.inr.inr => exact hoff
      all_goals cases hdest
    have hstop := vexCheck_of_vex hdest (env := env) (.inr hmod) rest
    rw [vexStop, hoff] at hstop
    exact decode_of_vexCheck_error hpre hrex hstop
  · exact decode_of_register_source hpre hrex (vexCheck_of_not_vex (fun h => hdest h.1) rest) hmod

/-- Settles O8: the VEX test comes right after the opcode. -/
theorem ldsLesBytesInVexSpace : Obligations.LdsLesBytesInVexSpace := by
  intro env pre rex S next rest hpre hrex hS hnext
  have hstop := decode_of_vexCheck_error hpre (or_iff_not_imp_left.mpr hrex)
    (vexCheck_of_vex (LoadSeg.isDsEs_iff.mpr hS) hnext rest)
  refine ⟨fun hvex => ?_, fun hvex => ?_⟩
  all_goals rw [hstop, vexStop, hvex]; rfl

/-- Settles O9: the first two are the scan's refusals, the others those of a REX byte that does not stand last. -/
theorem prefixCombinationsRefused : Obligations.PrefixCombinationsRefused := by
  intro env pre rest hpre
  have hrep : ∀ b : Byte, b = 0xF2 ∨ b = 0xF3 → classify b = .rep := by
    rintro b (rfl | rfl) <;> decide
  refine ⟨fun b hb => decode_of_rep hpre (hrep b hb) rest,
    fun p q hq hpq => decode_of_repeated_group hpre hq hpq rest,
    fun hm r p => decode_of_misplaced_rex hpre hm r (.inl ?_) rest,
    fun hm r b hb => decode_of_misplaced_rex hpre hm r (.inl ?_) rest,
    fun hm r r' => decode_of_misplaced_rex hpre hm r (.inr (isRexByte_byte r')) rest⟩
  · rw [classify_byte]
    exact nofun
  · rw [hrep b hb]
    exact nofun

/-- Settles O10: the scan and `readRex` leave the byte to `readOpcode`, which refuses it. -/
theorem otherOpcodesRefused : Obligations.OtherOpcodesRefused := by
  intro env pre rest hpre
  refine ⟨fun b hb hrange => ?_, fun c hc => ?_, fun hm r b hb hrange => ?_, fun hm r c hc => ?_, fun hm r => ?_⟩
  · have hrex : env.mode ≠ .long64 ∨ isRexByte b = false :=
      or_iff_not_imp_left.mpr fun hm => isRexByte_of_outside (hrange (Classical.not_not.mp hm))
    exact decode_of_readOpcode_error hpre (classify_of_not_mem hb) (readRex_none env.mode b rest hrex)
      (readOpcode_of_not_mem (not_mem_opcodes_of_not_mem hb) rest)
  · exact decode_of_readOpcode_error hpre (by decide) (readRex_none env.mode _ (c :: rest) (.inr (by decide)))
      (readOpcode_of_second_not_mem hc rest)
  · have hrex := readRex_some r b rest (classify_of_not_mem hb) (isRexByte_of_outside hrange)
    exact decode_of_readOpcode_error hpre (classify_rexByte r) (hm ▸ hrex)
      (readOpcode_of_not_mem (not_mem_opcodes_of_not_mem hb) rest)
  · have hrex := readRex_some r 0x0F#8 (c :: rest) (by decide) (by decide)
    exact decode_of_readOpcode_error hpre (classify_rexByte r) (hm ▸ hrex) (readOpcode_of_second_not_mem hc rest)
  · exact decode_of_readOpcode_error hpre (classify_rexByte r) (readRex_none env.mode r.byte rest (.inl hm))
      (readOpcode_of_not_mem r.byte_not_mem_opcodes rest)

/-- Settles O1: each word is the encoding of a well-formed instruction. -/
theorem specWordsDecodeToTheirInstructions : Obligations.SpecWordsDecodeToTheirInstructions := by
  have hword : ∀ (env : DecodeEnv) (i : Instr) (bytes : List Byte), wellFormed env i = true → encode i = bytes →
      decode env bytes = .ok (i, []) := fun env i bytes hwf hbytes => by
    simpa [hbytes] using decode_encode_append hwf []
  refine ⟨?_, ?_, ?_, ?_, ?_, ?_, ?_⟩
  all_goals exact hword _ _ _ (by decide) (by decide)

end

section
/-! SUPPORT. A segment override found among the prefixes, and what an instruction can be refused for (30_encoding.md
R92, R95; 20_memory.md R53, R61). -/

namespace Sys2Proof

/-- Of a segment override there is at most one (30_encoding.md R95), so it is the one found first. -/
theorem segOverrideOf_of_mem {seen : List Nat} {pre : List LegacyPrefix} {S : SegName}
    (hd : distinctGroups seen pre = true) (h : LegacyPrefix.segOverride S ∈ pre) : segOverrideOf pre = some S := by
  induction pre generalizing seen with
  | nil => cases h
  | cons p ps ih =>
    simp only [distinctGroups, Bool.and_eq_true] at hd
    rcases List.mem_cons.mp h with rfl | hmem
    · rfl
    · have hfresh := (groups_nodup_of_distinctGroups hd.2).2 _ hmem
      cases p with
      | segOverride S' => exact absurd List.mem_cons_self hfresh
      | _ => exact ih hd.2 hmem

end Sys2Proof

namespace Sys2Proof.Machine

/-! ### Refusals -/

/-- A computation that completes or raises an exception, but refuses nothing. -/
def NeverRefuses {α : Type} (r : Except Stop α) : Prop := ∀ q : Refusal, r ≠ refuse q

theorem neverRefuses_ok {α : Type} (x : α) : NeverRefuses (.ok x : Except Stop α) := nofun

theorem neverRefuses_raise {α : Type} (f : Fault) : NeverRefuses (raise f : Except Stop α) := nofun

theorem NeverRefuses.bind {α β : Type} {r : Except Stop α} {f : α → Except Stop β} (hr : NeverRefuses r)
    (hf : ∀ x, NeverRefuses (f x)) : NeverRefuses (r >>= f) := by
  match r with
  | .ok x => exact hf x
  | .error (.exception _) => exact nofun
  | .error (.refusal q) => exact absurd rfl (hr q)

theorem NeverRefuses.ite {α : Type} {p : Prop} [Decidable p] {r r' : Except Stop α} (h : NeverRefuses r)
    (h' : NeverRefuses r') : NeverRefuses (if p then r else r') := by
  split
  · exact h
  · exact h'

theorem neverRefuses_orPageFault {α : Type} (r : Except FaultCode α) : NeverRefuses (orPageFault r) := by
  cases r <;> exact nofun

/-- The checks before the read raise exceptions only (20_memory.md R55 to R57). -/
theorem State.operandLinear_neverRefuses (s : State) (S : SegName) (a : Size) (ea : Addr) (n : Nat) :
    NeverRefuses (s.operandLinear S a ea n) := by
  have hnull : NeverRefuses (s.nullSegCheck S) := (neverRefuses_raise _).ite (neverRefuses_ok _)
  have hlimit : NeverRefuses (s.segCheck S a ea n) :=
    (neverRefuses_ok _).ite ((neverRefuses_ok _).ite (neverRefuses_raise _))
  have hcanon : NeverRefuses (s.canonCheck S (s.linearAddress S ea) n) :=
    ((neverRefuses_ok _).ite (neverRefuses_raise _)).ite (neverRefuses_ok _)
  exact hnull.bind fun _ => hlimit.bind fun _ => hcanon.bind fun _ => neverRefuses_ok _

/-- An operand that fits is read or faults (20_memory.md R61). -/
theorem State.readFarPointer_neverRefuses {s : State} {i : Instr} (h : OperandFits s i) :
    NeverRefuses (s.readFarPointer (s.operandSegment i) (s.operandSize i) (s.operandEa i) i.width) := by
  have halign : ∀ lin, NeverRefuses (s.alignmentCheck i.width lin) := fun _ =>
    (neverRefuses_raise _).ite (neverRefuses_ok _)
  rw [State.readFarPointer, if_neg (Nat.not_le_of_lt h)]
  exact (s.operandLinear_neverRefuses _ _ _ _).bind fun lin => (neverRefuses_orPageFault _).bind fun _ =>
    (halign lin).bind fun _ => neverRefuses_ok _

theorem State.loadSsDescriptor_neverRefuses (s : State) (sel : Selector) : NeverRefuses (s.loadSsDescriptor sel) := by
  rw [State.loadSsDescriptor]
  cases s.descFetch sel with
  | nonCanonical => exact nofun
  | outOfLimits => exact nofun
  | pageFault c => exact (neverRefuses_raise _).ite (neverRefuses_raise _)
  | desc d =>
    exact (neverRefuses_raise _).ite ((neverRefuses_raise _).ite ((neverRefuses_raise _).ite (neverRefuses_ok _)))

theorem State.loadData_neverRefuses (s : State) (S : SegName) (sel : Selector) : NeverRefuses (s.loadData S sel) := by
  have hdesc : NeverRefuses (s.loadDataDescriptor S sel) := by
    rw [State.loadDataDescriptor]
    cases s.descFetch sel with
    | nonCanonical => exact nofun
    | outOfLimits => exact nofun
    | pageFault c => exact nofun
    | desc d =>
      exact (neverRefuses_raise _).ite ((neverRefuses_raise _).ite ((neverRefuses_raise _).ite (neverRefuses_ok _)))
  exact (neverRefuses_ok _).ite hdesc

/-- A segment register is loaded or the load faults (41_segment_load.md R144). -/
theorem State.loadSegment_neverRefuses (s : State) (S : LoadSeg) (sel : Selector) :
    NeverRefuses (s.loadSegment S sel) := by
  have hss := s.loadSsDescriptor_neverRefuses sel
  have hdata := s.loadData_neverRefuses S.name sel
  unfold State.loadSegment
  cases s.mode with
  | real => exact neverRefuses_ok _
  | v86 => exact neverRefuses_ok _
  | prot | compat =>
    cases S with
    | ss => exact (neverRefuses_raise _).ite hss
    | _ => exact hdata
  | long64 =>
    cases S with
    | ss => exact ((neverRefuses_raise _).ite (neverRefuses_ok _)).ite hss
    | fs | gs => exact hdata
    | ds | es => exact neverRefuses_raise _

/-- A form that exists is refused only for an operand past the top of its address space (20_memory.md R61). -/
theorem exec_eq_refused {s : State} {i : Instr} {q : Refusal} (hf : FormExists s i) (h : exec i s = .refused q) :
    q = .operandWrapsAddressSpace := by
  rw [exec_of_exists hf] at h
  by_cases hfit : OperandFits s i
  · have hsteps : NeverRefuses (s.steps i) :=
      (State.readFarPointer_neverRefuses hfit).bind fun p => (s.loadSegment_neverRefuses i.dest p.2).bind fun _ =>
        neverRefuses_ok _
    match hr : s.steps i with
    | .ok t => rw [hr] at h; cases h
    | .error (.exception f) => rw [hr] at h; cases h
    | .error (.refusal q') => exact absurd hr (hsteps q')
  · rw [State.steps_of_not_fits hfit] at h
    cases h
    rfl

theorem toggledSize_ne_s64 (default : CodeSize) (toggle : Bool) : toggledSize default toggle ≠ .s64 := by
  cases default <;> cases toggle <;> decide

/-- What a decoder gives exists in the mode it works in (30_encoding.md R93, R94, R97). -/
theorem formExists_of_wellFormed {s : State} {i : Instr} (h : wellFormed s.env i = true) : FormExists s i := by
  obtain ⟨-, hlock, -, hwidth, hdest, -, -⟩ := wellFormed_iff.mp h
  refine ⟨by simpa [Operands.hasLock] using hlock, fun hS hm => hdest ⟨hS, hm⟩, fun hw => ?_⟩
  by_contra hm
  rw [operandSize_of_not_long64 (env := s.env) hm, hw] at hwidth
  exact absurd hwidth.symm (toggledSize_ne_s64 _ _)

/-- No byte can be fetched where the first cannot (10_state.md R24). -/
theorem State.fetch_eq_nil {s : State} (h : s.fetchPhys 0 = none) : s.fetch = [] := by
  simp only [State.fetch, maxLength, State.fetchFrom, h]

end Sys2Proof.Machine
end

section
/-! Settled: the operand's segment override, and what a step is refused for (30_encoding.md R92, R97, R100). -/

open Sys2Proof Sys2Proof.Machine

/-- Settles O15: the override is the one among the prefixes. -/
theorem segmentOverrideNamesTheOperandSegment : Obligations.SegmentOverrideNamesTheOperandSegment := by
  intro s i S hpre hmem
  have hS : segOverrideOf i.operands.pre = some S := segOverrideOf_of_mem hpre hmem
  simp only [State.operandSegment, operandSegment, hS]
  refine ⟨fun h => if_neg ?_, fun hm hfs hgs => if_pos ⟨hm, hfs, hgs⟩⟩
  rintro ⟨hm, hfs, hgs⟩
  rcases h with h | h | h
  · exact h hm
  · exact hfs h
  · exact hgs h

/-- Settles O19: a step answers the decoder's stop by its name; what cannot be fetched are bytes that end too soon. -/
theorem stepOverBytesThatAreNoInstruction : Obligations.StepOverBytesThatAreNoInstruction := by
  intro s
  have hstop : ∀ {e}, decode s.env s.fetch = .error e → step s = decodeStopOutcome e := fun h => by
    rw [step, h]
  refine ⟨hstop, hstop, hstop, hstop, hstop, fun h => ?_⟩
  have hend : decode s.env s.fetch = .error .outOfBytes := by
    rw [State.fetch_eq_nil h]
    rfl
  exact hstop hend

/-- Settles O52: a decoded instruction exists in its mode, and the decoder's own refusals are others. -/
theorem stepRunsNoUnencodableInstruction : Obligations.StepRunsNoUnencodableInstruction := by
  intro s
  have hrefused : ∀ {q}, step s = .refused q → q ≠ .notEncodable ∧ ∀ m, q ≠ .notModelled m := fun {q} h => by
    rw [step] at h
    split at h
    · next i rest hdec =>
      rw [exec_eq_refused (formExists_of_wellFormed (decode_eq_ok hdec).1) h]
      exact ⟨nofun, nofun⟩
    · next e _ => cases e <;> cases h <;> exact ⟨nofun, nofun⟩
  exact ⟨fun h => (hrefused h).1 rfl, fun m h => (hrefused h).2 m rfl⟩

/-- Settles O30: outside 64-bit mode the form does not exist, and neither LOCK nor its register makes it #UD. -/
theorem sixtyFourBitFormsRefusedOutsideSixtyFourBitMode :
    Obligations.SixtyFourBitFormsRefusedOutsideSixtyFourBitMode := by
  intro s o hm hlock i hi
  have hform : i.operands = o ∧ i.width = .s64 ∧ i.dest.isDsEs = false := by
    simp only [List.mem_cons, List.not_mem_nil, or_false] at hi
    rcases hi with rfl | rfl | rfl <;> exact ⟨rfl, rfl, rfl⟩
  obtain ⟨hops, hw, hdest⟩ := hform
  rw [exec_of_not_exists fun hf => hm (hf.2.2 hw), hops, hlock, hdest]
  rfl

end

section
/-! SUPPORT. Every addressing form from its bytes: the displacement they hold, the decoded operand, its segment and its
effective address (30_encoding.md R83, R87 to R91). -/

namespace Sys2Proof

/-! ### Registers and displacements -/

theorem extendedReg_val (bit : Bool) (f : BitVec 3) : (extendedReg bit f).val = (if bit then 8 else 0) + f.toNat := by
  revert bit f
  decide

theorem extendedReg_eq {bit : Bool} {f : BitVec 3} {r : Fin 16} (h : r.val = (if bit then 8 else 0) + f.toNat) :
    extendedReg bit f = r :=
  Fin.ext ((extendedReg_val bit f).trans h.symm)

theorem eq_four_iff_of_val {r : Fin 16} {f : BitVec 3} (h : r.val = f.toNat) : r = 4 ↔ f = 4#3 := by
  rw [Fin.ext_iff, h, BitVec.toNat_eq]
  rfl

theorem eq_five_iff_of_val {r : Fin 16} {f : BitVec 3} (h : r.val = f.toNat) : r = 5 ↔ f = 5#3 := by
  rw [Fin.ext_iff, h, BitVec.toNat_eq]
  rfl

theorem eq_four_of_extendedReg {bit : Bool} {f : BitVec 3} (h : extendedReg bit f = 4) : f = 4#3 := by
  revert bit f
  decide

theorem eq_five_of_extendedReg {bit : Bool} {f : BitVec 3} (h : extendedReg bit f = 5) : f = 5#3 := by
  revert bit f
  decide

theorem Disp.encode_d16 (b1 b0 : Byte) : (Disp.d16 (b1 ++ b0)).encode = [b0, b1] := by
  obtain ⟨h0, h1⟩ := append16_bytes b1 b0
  simp only [Disp.encode, h0, h1]

theorem Disp.encode_d32 (b3 b2 b1 b0 : Byte) : (Disp.d32 (b3 ++ b2 ++ b1 ++ b0)).encode = [b0, b1, b2, b3] := by
  obtain ⟨h0, h1, h2, h3⟩ := append32_bytes b3 b2 b1 b0
  simp only [Disp.encode, h0, h1, h2, h3]

/-- The displacement of a form with a base register, by `mod` and the address size (30_encoding.md R88, R89, R90). -/
def baseDispSize (a : Size) : Mod → DispSize
  | .noDisp => .zero
  | .disp8 => .one
  | .dispFull => if a = .s16 then .two else .four

theorem dispSize_s16 {m : Mod} {rm : BitVec 3} (h : ¬ (m = .noDisp ∧ rm = 6#3)) :
    dispSize .s16 m rm none = baseDispSize .s16 m := by
  cases m <;> simp_all [dispSize, baseDispSize]

theorem dispSize_base {a : Size} {m : Mod} {rm : BitVec 3} (ha : a ≠ .s16) (h : ¬ (m = .noDisp ∧ rm = 5#3)) :
    dispSize a m rm none = baseDispSize a m := by
  cases a <;> cases m <;> simp_all [dispSize, baseDispSize]

theorem dispSize_sib {a : Size} {m : Mod} {rm : BitVec 3} {b : Sib} (ha : a ≠ .s16)
    (h : ¬ (m = .noDisp ∧ b.base = 5#3)) : dispSize a m rm (some b) = baseDispSize a m := by
  cases a <;> cases m <;> simp_all [dispSize, baseDispSize]

theorem dispSize_noBase {a : Size} (ha : a ≠ .s16) : dispSize a .noDisp 5#3 none = .four := by
  cases a
  case s16 => exact absurd rfl ha
  all_goals rfl

theorem dispSize_sib_noBase {a : Size} (ha : a ≠ .s16) {b : Sib} (hb : b.base = 5#3) (rm : BitVec 3) :
    dispSize a .noDisp rm (some b) = .four := by
  cases a
  case s16 => exact absurd rfl ha
  all_goals simp [dispSize, hb]

end Sys2Proof

namespace Sys2Proof.Machine

/-- The displacement bytes are those of a displacement of the form's size and value (30_encoding.md R91). -/
theorem exists_disp {a : Size} {n : Nat} {m : Mod} {bytes : List Byte} {d : BitVec n} (h : DispBytes a m bytes d) :
    ∃ disp : Disp, disp.encode = bytes ∧ dispValue n disp = d ∧ disp.size = baseDispSize a m := by
  cases m with
  | noDisp =>
    obtain ⟨rfl, rfl⟩ := h
    exact ⟨.absent, rfl, rfl, rfl⟩
  | disp8 =>
    obtain ⟨b, rfl, rfl⟩ := h
    exact ⟨.d8 b, rfl, rfl, rfl⟩
  | dispFull =>
    by_cases ha : a = .s16
    · simp only [DispBytes, if_pos ha] at h
      obtain ⟨b0, b1, rfl, rfl⟩ := h
      exact ⟨.d16 (b1 ++ b0), Disp.encode_d16 b1 b0, rfl, (if_pos ha).symm⟩
    · simp only [DispBytes, if_neg ha] at h
      obtain ⟨b0, b1, b2, b3, rfl, rfl⟩ := h
      exact ⟨.d32 (b3 ++ b2 ++ b1 ++ b0), Disp.encode_d32 b3 b2 b1 b0, rfl, (if_neg ha).symm⟩

/-! ### A form decoded -/

/-- Prefixes with no effect but the address size: none or 67; in 64-bit mode a REX byte (30_encoding.md R86, R87). -/
structure AddressPrefixes (s : State) (a : Size) (pre : List LegacyPrefix) (rex : Option Rex) : Prop where
  size : addressSize s.env pre = a
  pre  : pre = [] ∨ pre = [.addrSize]
  rex  : rex = none ∨ s.mode = .long64

/-- Operands under such prefixes decode from their bytes, after the opcode of LSS, LFS or LGS, and the operand is read
through the default segment (30_encoding.md R101; 20_memory.md R53). -/
theorem exists_decode_operands {s : State} {a : Size} {o : Operands} (hp : AddressPrefixes s a o.pre o.rex)
    (hsib : o.sib.isSome = needsSib a o.rm) (hdisp : o.disp.size = dispSize a o.mod o.rm o.sib) {S : LoadSeg}
    (hS : S.isDsEs = false) {bytes : List Byte}
    (hbytes : bytes = o.pre.map LegacyPrefix.byte ++ (o.rex.toList.map Rex.byte ++ (S.opcode ++
      (o.modrm :: (o.sib.toList.map Sib.byte ++ o.disp.encode))))) :
    ∃ i, decode s.env bytes = .ok (i, []) ∧ i.dest = S ∧
      i.operands.dst.val = (if o.rexR then 8 else 0) + o.reg.toNat ∧
      s.operandEa i = s.effectiveAddress a o bytes.length ∧ s.operandSegment i = defaultSegment a o := by
  obtain ⟨i, hform⟩ : ∃ i, Instr.ofForm S (operandSize s.env o.pre o.rex) o = some i := by
    cases S
    case ds | es => cases hS
    all_goals cases operandSize s.env o.pre o.rex <;> exact ⟨_, rfl⟩
  obtain ⟨rfl, hwidth, rfl⟩ := Instr.ofForm_eq_some hform
  obtain rfl : bytes = encode i := hbytes
  obtain ⟨rfl, hpre, hrex⟩ := hp
  have hplain : distinctGroups [] i.operands.pre = true ∧ LegacyPrefix.lock ∉ i.operands.pre ∧
      segOverrideOf i.operands.pre = none := by
    rcases hpre with h | h <;> rw [h] <;> decide
  obtain ⟨hgroups, hlock, hover⟩ := hplain
  have hwf : wellFormed s.env i = true :=
    wellFormed_iff.mpr ⟨hgroups, hlock, hrex, hwidth, by simp [hS], hsib, hdisp⟩
  have hdec := decode_encode_append hwf []
  rw [List.append_nil] at hdec
  refine ⟨i, hdec, rfl, extendedReg_val _ _, ?_, ?_⟩
  · rw [show (encode i).length = i.length from Laws.EncodedLength.ofParts i]
    rfl
  · rw [State.operandSegment, operandSegment, hover]
    rfl

/-- The default address size, or the other one by 67 (30_encoding.md R87). -/
theorem addressSize_of_not_long64 {s : State} (hm : s.mode ≠ .long64) (pre : List LegacyPrefix) :
    addressSize s.env pre = toggledSize s.defaultAddrSize (pre.contains .addrSize) := by
  cases h : s.mode
  case long64 => exact absurd h hm
  all_goals simp only [addressSize, State.env, h]

/-- The bytes that give an address size outside 64-bit mode: none over that default, or 67 over the other
(30_encoding.md R87). -/
theorem exists_addressPrefixes {s : State} (hm : s.mode ≠ .long64) {a : Size} {same other : CodeSize} {pre : List Byte}
    (hsame : toggledSize same false = a) (hother : toggledSize other true = a)
    (h : (s.defaultAddrSize = same ∧ pre = []) ∨ (s.defaultAddrSize = other ∧ pre = [0x67#8])) :
    ∃ ps : List LegacyPrefix, ps.map LegacyPrefix.byte = pre ∧ AddressPrefixes s a ps none := by
  rcases h with ⟨rfl, rfl⟩ | ⟨rfl, rfl⟩
  · exact ⟨[], rfl, (addressSize_of_not_long64 hm _).trans hsame, .inl rfl, .inl rfl⟩
  · exact ⟨[.addrSize], rfl, (addressSize_of_not_long64 hm _).trans hother, .inr rfl, .inl rfl⟩

theorem addressPrefixes_rex {s : State} (hm : s.mode = .long64) (rex : Rex) : AddressPrefixes s .s64 [] (some rex) :=
  ⟨by simp [addressSize, State.env, hm], .inl rfl, .inr hm⟩

theorem addressPrefixes_67_rex {s : State} (hm : s.mode = .long64) (rex : Rex) :
    AddressPrefixes s .s32 [.addrSize] (some rex) :=
  ⟨by simp [addressSize, State.env, hm], .inr rfl, .inr hm⟩

/-! ### 16-bit addressing -/

/-- The register sum as a table over `rm` (30_encoding.md R88). -/
theorem State.base16_eq_getD (s : State) (rm : BitVec 3) :
    s.base16 rm = [s.x16 3 + s.x16 6, s.x16 3 + s.x16 7, s.x16 5 + s.x16 6, s.x16 5 + s.x16 7, s.x16 6, s.x16 7,
      s.x16 5, s.x16 3].getD rm.toNat 0 := by
  have hlt := rm.isLt
  unfold State.base16
  generalize rm.toNat = k at hlt ⊢
  interval_cases k <;> rfl

theorem State.ea16_base {s : State} {o : Operands} (h : ¬ (o.mod = .noDisp ∧ o.rm = 6#3)) :
    s.ea16 o = s.base16 o.rm + dispValue 16 o.disp := by
  rw [State.ea16, if_neg h]

theorem defaultSegment_s16 {o : Operands} (h : ¬ (o.mod = .noDisp ∧ o.rm = 6#3)) :
    defaultSegment .s16 o = if o.rm = 2#3 ∨ o.rm = 3#3 ∨ o.rm = 6#3 then .ss else .ds := by
  have h6 : o.rm = 6#3 ∧ o.mod ≠ .noDisp ↔ o.rm = 6#3 := and_iff_left_of_imp fun hrm hm => h ⟨hm, hrm⟩
  simp only [defaultSegment, h6]

/-! ### 32- and 64-bit addressing

The forms with a base register, with no base register, and the same two with a SIB byte, over any view `x` of the
registers. -/

section
variable {n : Nat} (x : Fin 16 → BitVec n) (noBase : BitVec n) {o : Operands}

theorem eaWide_base {r : Fin 16} (hsib : o.sib = none) (h : ¬ (o.mod = .noDisp ∧ o.rm = 5#3))
    (hr : extendedReg o.rexB o.rm = r) : eaWide x noBase o = x r + dispValue n o.disp := by
  rw [eaWide, hsib, ← hr]
  exact congrArg (· + _) (if_neg fun hc => h hc.symm)

theorem eaWide_noBase (hsib : o.sib = none) (hm : o.mod = .noDisp) (hrm : o.rm = 5#3) :
    eaWide x noBase o = noBase + dispValue n o.disp := by
  rw [eaWide, hsib]
  exact congrArg (· + _) (if_pos ⟨hrm, hm⟩)

theorem shiftLeft_eq_mul_ofNat (v : BitVec n) (k : Nat) : v <<< k = v * BitVec.ofNat n (2 ^ k) := by
  apply BitVec.eq_of_toNat_eq
  simp only [BitVec.toNat_shiftLeft, BitVec.toNat_mul, BitVec.toNat_ofNat, Nat.shiftLeft_eq, Nat.mul_mod_mod]

theorem eaWide_sib {scale : BitVec 2} {index base : BitVec 3} {r k : Fin 16} (hsib : o.sib = some ⟨scale, index, base⟩)
    (h : ¬ (o.mod = .noDisp ∧ base = 5#3)) (hr : extendedReg o.rexB base = r) (hk : extendedReg o.rexX index = k) :
    eaWide x noBase o =
      x r + (if k = 4 then 0 else x k * BitVec.ofNat n (2 ^ scale.toNat)) + dispValue n o.disp := by
  simp only [eaWide, hsib, sibValue, if_neg fun hc => h (And.comm.mp hc), hr, hk, shiftLeft_eq_mul_ofNat]

theorem eaWide_sib_noBase {scale : BitVec 2} {index : BitVec 3} {k : Fin 16} (hsib : o.sib = some ⟨scale, index, 5#3⟩)
    (hm : o.mod = .noDisp) (hk : extendedReg o.rexX index = k) :
    eaWide x noBase o = (if k = 4 then 0 else x k * BitVec.ofNat n (2 ^ scale.toNat)) + dispValue n o.disp := by
  simp only [eaWide, hsib, sibValue, hm, and_self, if_true, hk, shiftLeft_eq_mul_ofNat, zero_add]

end

/-! ### The default segment -/

/-- Of a base register, numbers 4 and 5 select SS (20_memory.md R53). -/
theorem stackBase_iff {m : Mod} {bit : Bool} {f : BitVec 3} (h : ¬ (m = .noDisp ∧ f = 5#3)) :
    stackBase (extendedReg bit f) m = true ↔ extendedReg bit f = 4 ∨ extendedReg bit f = 5 := by
  simp only [stackBase, Bool.or_eq_true, Bool.and_eq_true, beq_iff_eq, bne_iff_ne]
  refine or_congr_right (and_iff_left_of_imp fun h5 hm => h ⟨hm, eq_five_of_extendedReg h5⟩)

/-- A form with no base register is read through DS (20_memory.md R53). -/
theorem stackBase_noBase (bit : Bool) : stackBase (extendedReg bit 5#3) .noDisp = false := by
  cases bit <;> decide

section
variable {a : Size} (ha : a ≠ .s16) {o : Operands}
include ha

theorem defaultSegment_of_no_sib (hsib : o.sib = none) :
    defaultSegment a o = if stackBase (extendedReg o.rexB o.rm) o.mod then .ss else .ds := by
  cases a
  case s16 => exact absurd rfl ha
  all_goals simp only [defaultSegment, hsib]

theorem defaultSegment_of_sib {sib : Sib} (hsib : o.sib = some sib) :
    defaultSegment a o = if stackBase (extendedReg o.rexB sib.base) o.mod then .ss else .ds := by
  cases a
  case s16 => exact absurd rfl ha
  all_goals simp only [defaultSegment, hsib]

theorem defaultSegment_base {r : Fin 16} (hsib : o.sib = none) (hrm : o.rm ≠ 4#3)
    (h : ¬ (o.mod = .noDisp ∧ o.rm = 5#3)) (hr : extendedReg o.rexB o.rm = r) :
    defaultSegment a o = if r = 5 then .ss else .ds := by
  subst hr
  have h4 : extendedReg o.rexB o.rm ≠ 4 := fun h4 => hrm (eq_four_of_extendedReg h4)
  simp only [defaultSegment_of_no_sib ha hsib, stackBase_iff h, h4, false_or]

theorem defaultSegment_noBase (hsib : o.sib = none) (hm : o.mod = .noDisp) (hrm : o.rm = 5#3) :
    defaultSegment a o = .ds := by
  rw [defaultSegment_of_no_sib ha hsib, hm, hrm, stackBase_noBase]
  rfl

theorem defaultSegment_sib {sib : Sib} {r : Fin 16} (hsib : o.sib = some sib)
    (h : ¬ (o.mod = .noDisp ∧ sib.base = 5#3)) (hr : extendedReg o.rexB sib.base = r) :
    defaultSegment a o = if r = 4 ∨ r = 5 then .ss else .ds := by
  subst hr
  simp only [defaultSegment_of_sib ha hsib, stackBase_iff h]

theorem defaultSegment_sib_noBase {sib : Sib} (hsib : o.sib = some sib) (hm : o.mod = .noDisp)
    (hbase : sib.base = 5#3) : defaultSegment a o = .ds := by
  rw [defaultSegment_of_sib ha hsib, hm, hbase, stackBase_noBase]
  rfl

end

/-! ### The wide forms from their bytes -/

/-- The bytes are an instruction `i` that loads `S` and the register of `reg`, over an operand through `A` whose
effective address is `value` of a view of the registers and of what a form with no base register adds. -/
structure DecodesWide (s : State) (a : Size) (S : LoadSeg) (rex : Option Rex) (reg : BitVec 3) (bytes : List Byte)
    {n : Nat} (value : (Fin 16 → BitVec n) → BitVec n → BitVec n) (A : SegName) (i : Instr) : Prop where
  decoded : decode s.env bytes = .ok (i, [])
  dest    : i.dest = S
  dst     : i.operands.dst.val = (if (rex.map Rex.r).getD false then 8 else 0) + reg.toNat
  address : ∃ o, s.operandEa i = s.effectiveAddress a o bytes.length ∧ ∀ x noBase, eaWide x noBase o = value x noBase
  segment : s.operandSegment i = A

/-- In 64-bit mode the form with no base register adds the next instruction's address (10_state.md R24; 30_encoding.md
R90). -/
theorem State.ripBase_of_long64 {s : State} (hm : s.mode = .long64) (n : Nat) :
    s.ripBase n = s.pc + BitVec.ofNat 64 n := by
  apply BitVec.eq_of_toNat_eq
  simp [State.ripBase, State.nextPc, State.codeOffset, State.codeBits, hm]

theorem DecodesWide.ea32 {s : State} {S : LoadSeg} {rex : Option Rex} {reg : BitVec 3} {bytes : List Byte}
    {value : (Fin 16 → BitVec 32) → BitVec 32 → BitVec 32} {A : SegName} {i : Instr}
    (h : DecodesWide s .s32 S rex reg bytes value A i) :
    s.operandEa i = (value s.x32 ((s.ripBase bytes.length).setWidth 32)).setWidth 64 := by
  obtain ⟨o, hea, hvalue⟩ := h.address
  rw [hea, State.effectiveAddress, hvalue]

theorem DecodesWide.ea64 {s : State} {S : LoadSeg} {rex : Option Rex} {reg : BitVec 3} {bytes : List Byte}
    {value : (Fin 16 → BitVec 64) → BitVec 64 → BitVec 64} {A : SegName} {i : Instr}
    (h : DecodesWide s .s64 S rex reg bytes value A i) :
    s.operandEa i = value s.x64 (s.ripBase bytes.length) := by
  obtain ⟨o, hea, hvalue⟩ := h.address
  rw [hea, State.effectiveAddress, hvalue]

section
variable {s : State} {a : Size} {pre : List LegacyPrefix} {rex : Option Rex} (hp : AddressPrefixes s a pre rex)
  (ha : a ≠ .s16) {S : LoadSeg} (hS : S.isDsEs = false) (reg : BitVec 3)
include hp ha hS

theorem exists_decodesWide {m : Mod} {rm : BitVec 3} {sib : Option Sib} {disp : Disp} {tail : List Byte} {n : Nat}
    {value : (Fin 16 → BitVec n) → BitVec n → BitVec n} {A : SegName}
    (hsib : sib.isSome = (rm == 4#3)) (hdisp : disp.size = dispSize a m rm sib)
    (htail : sib.toList.map Sib.byte ++ disp.encode = tail)
    (hvalue : ∀ x noBase, eaWide x noBase ⟨pre, rex, m, reg, rm, sib, disp⟩ = value x noBase)
    (hseg : defaultSegment a ⟨pre, rex, m, reg, rm, sib, disp⟩ = A) :
    ∃ i, DecodesWide s a S rex reg (pre.map LegacyPrefix.byte ++ (rex.toList.map Rex.byte ++ (S.opcode ++
      (m.bits ++ reg ++ rm) :: tail))) value A i := by
  have hneeds : needsSib a rm = (rm == 4#3) := by
    cases a
    case s16 => exact absurd rfl ha
    all_goals rfl
  obtain ⟨i, hdec, hdest, hdst, hea, hsegment⟩ := exists_decode_operands (o := ⟨pre, rex, m, reg, rm, sib, disp⟩) hp
    (hsib.trans hneeds.symm) hdisp hS (by rw [htail])
  exact ⟨i, hdec, hdest, hdst, ⟨_, hea, hvalue⟩, hsegment.trans hseg⟩

/-- A base register and a displacement (30_encoding.md R89, R90). -/
theorem exists_decodesWide_base {m : Mod} {rm : BitVec 3} {r : Fin 16} {bytes : List Byte} {n : Nat} {d : BitVec n}
    (hrm : rm ≠ 4#3) (hform : ¬ (m = .noDisp ∧ rm = 5#3)) (hd : DispBytes a m bytes d)
    (hr : extendedReg ((rex.map Rex.b).getD false) rm = r) :
    ∃ i, DecodesWide s a S rex reg (pre.map LegacyPrefix.byte ++ (rex.toList.map Rex.byte ++ (S.opcode ++
      (m.bits ++ reg ++ rm) :: bytes))) (fun x _ => x r + d) (if r = 5 then .ss else .ds) i := by
  obtain ⟨disp, rfl, rfl, hsize⟩ := exists_disp hd
  exact exists_decodesWide hp ha hS reg (sib := none) (beq_false_of_ne hrm).symm
    (hsize.trans (dispSize_base ha hform).symm) rfl (fun x noBase => eaWide_base x noBase rfl hform hr)
    (defaultSegment_base ha rfl hrm hform hr)

/-- A displacement alone, added to what the mode adds (30_encoding.md R89, R90). -/
theorem exists_decodesWide_noBase (b0 b1 b2 b3 : Byte) (n : Nat) :
    ∃ i, DecodesWide s a S rex reg (pre.map LegacyPrefix.byte ++ (rex.toList.map Rex.byte ++ (S.opcode ++
      (Mod.noDisp.bits ++ reg ++ 5#3) :: [b0, b1, b2, b3])))
      (fun (_ : Fin 16 → BitVec n) noBase => noBase + (b3 ++ b2 ++ b1 ++ b0).signExtend n) .ds i :=
  exists_decodesWide hp ha hS reg (sib := none) (disp := .d32 (b3 ++ b2 ++ b1 ++ b0)) rfl
    (dispSize_noBase ha).symm (Disp.encode_d32 b3 b2 b1 b0) (fun x noBase => eaWide_noBase x noBase rfl rfl rfl)
    (defaultSegment_noBase ha rfl rfl rfl)

/-- A base register, a scaled index and a displacement (30_encoding.md R89, R90). -/
theorem exists_decodesWide_sib {m : Mod} {scale : BitVec 2} {index base : BitVec 3} {r k : Fin 16} {bytes : List Byte}
    {n : Nat} {d : BitVec n} (hform : ¬ (m = .noDisp ∧ base = 5#3)) (hd : DispBytes a m bytes d)
    (hk : extendedReg ((rex.map Rex.x).getD false) index = k)
    (hr : extendedReg ((rex.map Rex.b).getD false) base = r) :
    ∃ i, DecodesWide s a S rex reg (pre.map LegacyPrefix.byte ++ (rex.toList.map Rex.byte ++ (S.opcode ++
      (m.bits ++ reg ++ 4#3) :: (scale ++ index ++ base) :: bytes)))
      (fun x _ => x r + (if k = 4 then 0 else x k * BitVec.ofNat n (2 ^ scale.toNat)) + d)
      (if r = 4 ∨ r = 5 then .ss else .ds) i := by
  obtain ⟨disp, rfl, rfl, hsize⟩ := exists_disp hd
  exact exists_decodesWide hp ha hS reg (sib := some ⟨scale, index, base⟩) (disp := disp) rfl
    (hsize.trans (dispSize_sib ha hform).symm) rfl (fun x noBase => eaWide_sib x noBase rfl hform hr hk)
    (defaultSegment_sib ha rfl hform hr)

/-- A scaled index and a displacement (30_encoding.md R89, R90). -/
theorem exists_decodesWide_sib_noBase {scale : BitVec 2} {index : BitVec 3} {k : Fin 16} (b0 b1 b2 b3 : Byte) (n : Nat)
    (hk : extendedReg ((rex.map Rex.x).getD false) index = k) :
    ∃ i, DecodesWide s a S rex reg (pre.map LegacyPrefix.byte ++ (rex.toList.map Rex.byte ++ (S.opcode ++
      (Mod.noDisp.bits ++ reg ++ 4#3) :: (scale ++ index ++ 5#3) :: [b0, b1, b2, b3])))
      (fun x _ => (if k = 4 then 0 else x k * BitVec.ofNat n (2 ^ scale.toNat)) +
        (b3 ++ b2 ++ b1 ++ b0).signExtend n) .ds i :=
  exists_decodesWide hp ha hS reg (sib := some ⟨scale, index, 5#3⟩)
    (disp := .d32 (b3 ++ b2 ++ b1 ++ b0)) rfl (dispSize_sib_noBase ha rfl _).symm
    (congrArg _ (Disp.encode_d32 b3 b2 b1 b0)) (fun x noBase => eaWide_sib_noBase x noBase rfl rfl hk)
    (defaultSegment_sib_noBase ha rfl rfl rfl)

end

end Sys2Proof.Machine
end

section
/-! Settled: the addressing tables of 16, 32 and 64 bits, from the bytes (30_encoding.md R83, R86 to R91). -/

open Sys2Proof Sys2Proof.Machine

/-- Settles O11: the base registers' sum by `rm`, and the form with a displacement alone. -/
theorem sixteenBitAddressingTable : Obligations.SixteenBitAddressingTable := by
  intro s pre reg rm hm hpre
  obtain ⟨ps, rfl, hp⟩ := exists_addressPrefixes hm (a := .s16) (same := .c16) (other := .c32) rfl rfl hpre
  dsimp only
  refine ⟨fun m bytes d hform hd => ?_, fun b0 b1 => ?_⟩
  · obtain ⟨disp, rfl, rfl, hsize⟩ := exists_disp hd
    obtain ⟨i, hdec, hdest, hdst, hea, hseg⟩ := exists_decode_operands (S := .fs)
      (o := ⟨ps, none, m, reg, rm, none, disp⟩) hp rfl (hsize.trans (dispSize_s16 hform).symm) rfl rfl
    refine ⟨i, by simpa [LoadSeg.opcode, Operands.modrm] using hdec, hdest, by simpa [Operands.rexR] using hdst, ?_, ?_⟩
    · rw [hea, ← State.base16_eq_getD, State.effectiveAddress, State.ea16_base hform]
    · exact hseg.trans (defaultSegment_s16 hform)
  · obtain ⟨i, hdec, hdest, hdst, hea, hseg⟩ := exists_decode_operands (S := .fs)
      (o := ⟨ps, none, .noDisp, reg, 6#3, none, .d16 (b1 ++ b0)⟩) hp rfl rfl rfl rfl
    rw [Disp.encode_d16] at hdec
    refine ⟨i, by simpa [LoadSeg.opcode, Operands.modrm] using hdec, hdest, by simpa [Operands.rexR] using hdst, ?_,
      hseg⟩
    rw [hea]
    simp [State.effectiveAddress, State.ea16, dispValue]

/-- Settles O12: the four wide forms over the 32-bit views; with no REX byte a register's number is its field. -/
theorem thirtyTwoBitAddressingTable : Obligations.ThirtyTwoBitAddressingTable := by
  intro s pre reg rm hm hpre
  obtain ⟨ps, rfl, hp⟩ := exists_addressPrefixes hm (a := .s32) (same := .c32) (other := .c16) rfl rfl hpre
  have hreg : ∀ {f : BitVec 3} {r : Fin 16}, r.val = f.toNat → extendedReg false f = r := fun h =>
    extendedReg_eq (by simpa using h)
  refine ⟨fun m bytes d r hrm hform hd hr => ?_, fun b0 b1 b2 b3 => ?_,
    fun m scale index base bytes d x b hform hd hx hb => ?_, fun scale index x b0 b1 b2 b3 hx => ?_⟩
  · obtain ⟨i, h⟩ := exists_decodesWide_base hp nofun (S := .ss) rfl reg hrm hform hd (hreg hr)
    have hseg := h.segment
    simp only [eq_five_iff_of_val hr] at hseg
    exact ⟨i, by simpa [LoadSeg.opcode] using h.decoded, h.dest, by simpa using h.dst, h.ea32, hseg⟩
  · obtain ⟨i, h⟩ := exists_decodesWide_noBase hp nofun (S := .ss) rfl reg b0 b1 b2 b3 32
    have hea := h.ea32
    simp only [State.ripBase, if_neg hm, BitVec.signExtend_eq] at hea
    exact ⟨i, by simpa [LoadSeg.opcode] using h.decoded, by simpa using h.dst, by simpa using hea, h.segment⟩
  · obtain ⟨i, h⟩ := exists_decodesWide_sib hp nofun (S := .ss) rfl reg (scale := scale) hform hd (hreg hx) (hreg hb)
    have hea := h.ea32
    have hseg := h.segment
    simp only [eq_four_iff_of_val hx] at hea
    simp only [eq_four_iff_of_val hb, eq_five_iff_of_val hb] at hseg
    exact ⟨i, by simpa [LoadSeg.opcode] using h.decoded, by simpa using h.dst, hea, hseg⟩
  · obtain ⟨i, h⟩ := exists_decodesWide_sib_noBase hp nofun (S := .ss) rfl reg (scale := scale) b0 b1 b2 b3 32 (hreg hx)
    have hea := h.ea32
    simp only [eq_four_iff_of_val hx, BitVec.signExtend_eq] at hea
    exact ⟨i, by simpa [LoadSeg.opcode] using h.decoded, by simpa using h.dst, hea, h.segment⟩

/-- Settles O13: the four wide forms over the 64-bit views, the registers' numbers extended by the REX bits. -/
theorem sixtyFourBitAddressing : Obligations.SixtyFourBitAddressing := by
  intro s rex reg rm hm
  have hp := addressPrefixes_rex hm rex
  dsimp only
  refine ⟨fun m bytes d r hrm hform hd hr => ?_, fun b0 b1 b2 b3 => ?_,
    fun m scale index base bytes d x b hform hd hx hb => ?_, fun scale index x b0 b1 b2 b3 hx => ?_⟩
  · obtain ⟨i, h⟩ := exists_decodesWide_base hp nofun (S := .gs) rfl reg hrm hform hd (extendedReg_eq hr)
    exact ⟨i, by simpa [LoadSeg.opcode] using h.decoded, h.dest, h.dst, h.ea64, h.segment⟩
  · obtain ⟨i, h⟩ := exists_decodesWide_noBase hp nofun (S := .gs) rfl reg b0 b1 b2 b3 64
    have hea := h.ea64
    rw [State.ripBase_of_long64 hm] at hea
    exact ⟨i, by simpa [LoadSeg.opcode] using h.decoded, h.dst, hea, h.segment⟩
  · obtain ⟨i, h⟩ := exists_decodesWide_sib hp nofun (S := .gs) rfl reg (scale := scale) hform hd (extendedReg_eq hx)
      (extendedReg_eq hb)
    exact ⟨i, by simpa [LoadSeg.opcode] using h.decoded, h.dst, h.ea64, h.segment⟩
  · obtain ⟨i, h⟩ := exists_decodesWide_sib_noBase hp nofun (S := .gs) rfl reg (scale := scale) b0 b1 b2 b3 64
      (extendedReg_eq hx)
    exact ⟨i, by simpa [LoadSeg.opcode] using h.decoded, h.dst, h.ea64, h.segment⟩

/-- Settles O14: three of the wide forms over the 32-bit views, with 67 before the REX byte. -/
theorem thirtyTwoBitAddressingInSixtyFourBitMode : Obligations.ThirtyTwoBitAddressingInSixtyFourBitMode := by
  intro s rex reg rm hm
  have hp := addressPrefixes_67_rex hm rex
  refine ⟨fun m bytes d r hrm hform hd hr => ?_, fun m scale index base bytes d x b hform hd hx hb => ?_,
    fun b0 b1 b2 b3 => ?_⟩
  · obtain ⟨i, h⟩ := exists_decodesWide_base hp nofun (S := .gs) rfl reg hrm hform hd (extendedReg_eq hr)
    exact ⟨i, by simpa [LoadSeg.opcode, LegacyPrefix.byte] using h.decoded, h.ea32⟩
  · obtain ⟨i, h⟩ := exists_decodesWide_sib hp nofun (S := .gs) rfl reg (scale := scale) hform hd (extendedReg_eq hx)
      (extendedReg_eq hb)
    exact ⟨i, by simpa [LoadSeg.opcode, LegacyPrefix.byte] using h.decoded, h.ea32⟩
  · obtain ⟨i, h⟩ := exists_decodesWide_noBase hp nofun (S := .gs) rfl reg b0 b1 b2 b3 32
    have hea := h.ea32
    rw [State.ripBase_of_long64 hm, BitVec.signExtend_eq] at hea
    exact ⟨i, by simpa [LoadSeg.opcode, LegacyPrefix.byte] using h.decoded, hea⟩

end

section
/-! SUPPORT. The instruction pointer along a run: what one completed step adds to it (10_state.md R24; 30_encoding.md R96;
40_load_far_pointer.md R124). -/

namespace Sys2Proof.Machine

/-- A run of `n + 1` steps that completes is one step that completes and a run of `n` steps from where it ends. -/
theorem exists_step_of_run_succ {M : Host.Core} {n : Nat} {s t : M.State} (h : M.run (n + 1) s = .next t) :
    ∃ u, M.step s = .next u ∧ M.run n u = .next t := by
  rw [Host.Core.run] at h
  split at h
  · next u hu => exact ⟨u, hu, h⟩
  · cases h
  · cases h

/-- A step that completes has decoded the instruction it executed from the bytes at `pc` (70_reset_and_hazards.md R204). -/
theorem exists_decode_of_step_eq_next {s t : State} (h : step s = .next t) :
    ∃ i rest, decode s.env s.fetch = .ok (i, rest) ∧ exec i s = .next t := by
  rw [step] at h
  split at h
  · next i rest hdec => exact ⟨i, rest, hdec, h⟩
  · next e _ => cases e <;> cases h

/-- The width in use depends on the mode and the default size alone (10_state.md R23, R24). -/
theorem State.codeBits_congr {s t : State} (hm : t.mode = s.mode) (hd : t.defaultOpSize = s.defaultOpSize) :
    t.codeBits = s.codeBits := by
  simp only [State.codeBits, hm, hd]

/-- The three widths of `pc` in one equation. -/
theorem PcAdvanced.toNat_eq {s t : State} {n : Nat} (h : PcAdvanced s t n) :
    t.pc.toNat = (s.pc.toNat + n) % 2 ^ s.codeBits := by
  obtain ⟨h64, h32, h16⟩ := h
  by_cases hm : s.mode = .long64
  · simpa [State.codeBits, hm] using h64 hm
  · cases hd : s.defaultOpSize with
    | c16 => simpa [State.codeBits, hm, hd] using h16 hm hd
    | c32 => simpa [State.codeBits, hm, hd] using h32 hm hd

/-- A completed step moves the code offset past the 2 to 13 bytes of the instruction at `pc`, modulo the width in use,
which it keeps. -/
theorem step_codeOffset {s t : State} (h : step s = .next t) :
    t.codeBits = s.codeBits ∧
      ∃ k, 2 ≤ k ∧ k ≤ 13 ∧ t.codeOffset = (s.codeOffset + k) % 2 ^ s.codeBits := by
  obtain ⟨i, rest, hdec, hexec⟩ := exists_decode_of_step_eq_next h
  obtain ⟨-, hlo, hhi, -⟩ := decodedLengthIsTheSumAndTwoToThirteen _ _ _ _ hdec
  obtain ⟨off, -, hpc, hframe⟩ := completedInstructionFrame _ _ _ hexec
  have hbits := State.codeBits_congr hframe.mode hframe.opSize
  refine ⟨hbits, i.length, hlo, hhi, ?_⟩
  rw [State.codeOffset, hbits, hpc.toNat_eq, Nat.mod_mod, State.codeOffset, Nat.mod_add_mod]

end Sys2Proof.Machine
end

section
/-! Settled: the instruction pointer along a run (40_load_far_pointer.md R124; 30_encoding.md R96). -/

open Sys2Proof Sys2Proof.Machine

/-- Settles O57, by induction on the steps: the first moves `pc` on by its instruction's length, which does not wrap as the
bound leaves room for it, and leaves 13 bytes for each of the others. -/
theorem runAdvancesTwoToThirteenBytesAStep : Obligations.RunAdvancesTwoToThirteenBytesAStep := by
  intro n
  induction n with
  | zero =>
    intro s t h _
    cases h
    exact ⟨le_rfl, le_rfl⟩
  | succ n ih =>
    intro s t h hroom
    obtain ⟨u, hstep, hrun⟩ := exists_step_of_run_succ h
    obtain ⟨hbits, k, hlo, hhi, hoff⟩ := step_codeOffset hstep
    rw [Nat.mod_eq_of_lt (by omega)] at hoff
    obtain ⟨hlower, hupper⟩ := ih u t hrun (by rw [hbits]; omega)
    omega

end

section
/-! SUPPORT. Selectors, the descriptor lookup in the tables and the bits of a descriptor (41_segment_load.md R140 to
R143). -/

namespace Sys2Proof.Machine

/-! ### Selectors and descriptor bits -/

theorem rpl_toNat (sel : Selector) : (rpl sel).toNat = sel.toNat % 4 := by
  simp [rpl, BitVec.extractLsb'_toNat]

theorem selectorIndex_eq (sel : Selector) : selectorIndex sel = sel.toNat / 8 := by
  have := sel.isLt
  rw [selectorIndex, BitVec.extractLsb'_toNat, Nat.shiftRight_eq_div_pow]
  omega

theorem isNull_iff {sel : Selector} : isNull sel = true ↔ sel.toNat < 4 := by
  have := sel.isLt
  rw [isNull, beq_iff_eq, ← BitVec.toNat_inj, BitVec.extractLsb'_toNat, Nat.shiftRight_eq_div_pow,
    show BitVec.toNat (0 : BitVec 14) = 0 from rfl]
  omega

/-- The kind of a table entry by its bits 44 and 43 to 41 (R142, the mapping to R141). -/
theorem Descriptor.kind_ofBits (D : BitVec 64) :
    (Descriptor.ofBits D).kind =
      if D.getLsbD 44 = false then .system
      else if D.getLsbD 43 = false then if D.getLsbD 41 then .dataRW else .dataRO
      else if D.getLsbD 42 then if D.getLsbD 41 then .codeXRC else .codeXC
      else if D.getLsbD 41 then .codeXRNC else .codeXNC := by
  simp only [Descriptor.kind, Descriptor.ofBits, BitVec.getLsbD_extractLsb', Nat.reduceLT, decide_true, Bool.true_and,
    Nat.reduceAdd]

/-- Bits of a descriptor put side by side (R142). -/
theorem append_toNat {m n : Nat} (a : BitVec m) (b : BitVec n) : (a ++ b).toNat = a.toNat * 2 ^ n + b.toNat := by
  rw [BitVec.toNat_append, ← Nat.shiftLeft_add_eq_or_of_lt b.isLt, Nat.shiftLeft_eq]

theorem extractLsb'_toNat_div {w : Nat} (D : BitVec w) (k n : Nat) :
    (D.extractLsb' k n).toNat = D.toNat / 2 ^ k % 2 ^ n := by
  rw [BitVec.extractLsb'_toNat, Nat.shiftRight_eq_div_pow]

theorem Descriptor.base_ofBits (D : BitVec 64) :
    (Descriptor.ofBits D).base.toNat = D.toNat / 2 ^ 56 * 2 ^ 24 + D.toNat / 2 ^ 16 % 2 ^ 24 := by
  have hlt : D.toNat / 2 ^ 56 < 2 ^ 8 := Nat.div_lt_of_lt_mul D.isLt
  simp only [Descriptor.ofBits, BitVec.toNat_setWidth, append_toNat, extractLsb'_toNat_div, Nat.mod_eq_of_lt hlt]
  omega

theorem scaledLimit_toNat (raw : BitVec 20) (g : Bool) :
    (scaledLimit raw g).toNat = if g then raw.toNat * 4096 + 4095 else raw.toNat := by
  have := raw.isLt
  cases g
  · simp only [scaledLimit, Bool.false_eq_true, if_false, BitVec.toNat_setWidth]
    omega
  · exact append_toNat raw 0xFFF#12

theorem Descriptor.limit_ofBits (D : BitVec 64) :
    (Descriptor.ofBits D).limit.toNat =
      let raw := D.toNat / 2 ^ 48 % 16 * 2 ^ 16 + D.toNat % 2 ^ 16
      if D.getLsbD 55 then raw * 4096 + 4095 else raw := by
  simp only [Descriptor.ofBits, scaledLimit_toNat, append_toNat, extractLsb'_toNat_div, Nat.pow_zero, Nat.div_one]
  rfl

/-! ### The lookup -/

/-- Linear addresses are 64 bits in 64-bit mode and 32 bits in the others (20_memory.md R54). -/
theorem State.linearAdd_eq (s : State) (lin : Addr) (n : Nat) :
    s.linearAdd lin n = BitVec.ofNat 64 ((lin.toNat + n) % 2 ^ (if s.mode = .long64 then 64 else 32)) := by
  apply BitVec.eq_of_toNat_eq
  by_cases hm : s.mode = .long64
  · simp [State.linearAdd, hm]
  · simp only [State.linearAdd, if_neg hm, BitVec.toNat_setWidth, BitVec.toNat_add, BitVec.toNat_ofNat]
    omega

/-- Byte `k` of the entry a selector names in a table of this base (R142). -/
theorem State.linearAdd_entryAddress (s : State) (base : BitVec 64) (sel : Selector) (k : Nat) :
    s.linearAdd (s.entryAddress base sel) k = BitVec.ofNat 64
      ((base.toNat + 8 * (sel.toNat / 8) + k) % 2 ^ (if s.mode = .long64 then 64 else 32)) := by
  rw [s.linearAdd_eq, State.entryAddress, s.linearAdd_eq, selectorIndex_eq]
  congr 1
  simp only [BitVec.toNat_ofNat]
  split <;> omega

section
variable {s : State} {sel : Selector}

theorem State.descFetch_of_not_listed (h : lookupAnswer sel s.descAnswers = none) :
    s.descFetch sel = s.tablesFetch sel := by
  rw [State.descFetch, h]

theorem State.tablesFetch_of_no_table (ht : sel.getLsbD 2 = true) (hv : s.ldtr.valid = false) :
    s.tablesFetch sel = .outOfLimits := by
  simp only [State.tablesFetch, tableIndicator, ht, hv, Bool.false_eq_true, if_true, if_false]

/-- The table is the local one by bit 2 of the selector (R142). -/
theorem State.tablesFetch_of_table {base : BitVec 64} {limit : Nat} (ht : sel.getLsbD 2 = true → s.ldtr.valid = true)
    (hg : sel.getLsbD 2 = false → base = s.gdtr.base ∧ limit = s.gdtr.limit.toNat)
    (hl : sel.getLsbD 2 = true → base = s.ldtr.base ∧ limit = s.ldtr.limit.toNat) :
    s.tablesFetch sel = s.tableFetch base limit sel := by
  cases hb : sel.getLsbD 2
  · obtain ⟨rfl, rfl⟩ := hg hb
    simp only [State.tablesFetch, tableIndicator, hb, Bool.false_eq_true, if_false]
  · obtain ⟨rfl, rfl⟩ := hl hb
    simp only [State.tablesFetch, tableIndicator, hb, ht hb, if_true]

/-- The first page fault in a range is the answer of its read (20_memory.md R58). -/
theorem State.readRange_of_first_fault {kind : AccessKind} {lin : Addr} {i n j : Nat} {c : FaultCode} (hj : j < n)
    (hbefore : ∀ k < j, ∃ p, s.translate kind (s.linearAdd lin (i + k)) = .phys p)
    (hat : s.translate kind (s.linearAdd lin (i + j)) = .pageFault c) : s.readRange kind lin i n = .error c := by
  induction n generalizing i j with
  | zero => cases hj
  | succ n ih =>
    cases j with
    | zero =>
      rw [Nat.add_zero] at hat
      rw [State.readRange, hat]
    | succ j =>
      obtain ⟨p, hp⟩ := hbefore 0 (Nat.succ_pos j)
      have hshift : ∀ k, i + 1 + k = i + (k + 1) := by omega
      have hrest := ih (i := i + 1) (Nat.lt_of_succ_lt_succ hj)
        (fun k hk => hshift k ▸ hbefore (k + 1) (Nat.succ_lt_succ hk)) (hshift j ▸ hat)
      rw [Nat.add_zero] at hp
      rw [State.readRange, hp, hrest]

/-- A range of mapped bytes that hold a number's bytes reads as that number (20_memory.md R51, R60). -/
theorem State.readRange_eq_of_bytes {kind : AccessKind} {lin : Addr} (D : BitVec 64)
    (h : ∀ k < 8, ∃ p : Addr, s.translate kind (s.linearAdd lin k) = .phys p ∧
      Memory.read s.mem p.toNat = D.extractLsb' (8 * k) 8) :
    ∃ bytes, s.readRange kind lin 0 8 = .ok bytes ∧ leValue bytes = D.toNat := by
  obtain ⟨bytes, hbytes, hlen, hget⟩ := s.readRange_ok kind lin 0 8 fun k hk => by
    obtain ⟨p, hp, -⟩ := h k hk
    exact ⟨p, by rwa [Nat.zero_add]⟩
  refine ⟨bytes, hbytes, leValue_eq_of_bytes bytes D.toNat (by rw [hlen]; exact D.isLt) fun k hk => ?_⟩
  obtain ⟨p, hp, hbyte⟩ := h k (hlen ▸ hk)
  rw [hget k hk p (by rwa [Nat.zero_add]), hbyte, extractLsb'_byte_toNat]

/-- The canonical test of an entry, in 64-bit mode, is on its first and last byte and on the top (20_memory.md R57;
log 34). -/
theorem State.canonicalRange_entry_iff {lin : Addr} :
    (s.mode = .long64 → s.canonicalRange lin 8 = true) ↔
      (s.mode = .long64 → canonical s.params.vaBits (s.linearAdd lin 0) = true ∧
        canonical s.params.vaBits (s.linearAdd lin 7) = true ∧ (s.linearAdd lin 0).toNat + 7 < 2 ^ 64) :=
  forall_congr' fun hm => by simp [State.canonicalRange, State.linearAdd, hm, and_assoc]

variable {base : BitVec 64} {limit : Nat}

theorem State.tableFetch_of_nonCanonical (hm : s.mode = .long64)
    (h : s.canonicalRange (s.entryAddress base sel) 8 = false) : s.tableFetch base limit sel = .nonCanonical :=
  if_pos ⟨hm, h⟩

section
variable (hc : s.mode = .long64 → s.canonicalRange (s.entryAddress base sel) 8 = true)
include hc

theorem State.not_nonCanonical_entry :
    ¬ (s.mode = .long64 ∧ s.canonicalRange (s.entryAddress base sel) 8 = false) := by
  rintro ⟨hm, hf⟩
  rw [hc hm] at hf
  cases hf

theorem State.tableFetch_of_past_limit (h : limit < 8 * (sel.toNat / 8) + 7) :
    s.tableFetch base limit sel = .outOfLimits := by
  rw [State.tableFetch, if_neg (State.not_nonCanonical_entry hc), selectorIndex_eq, if_pos h]

theorem State.tableFetch_of_error (hlim : 8 * (sel.toNat / 8) + 7 ≤ limit) {c : FaultCode}
    (h : s.readRange .descriptorRead (s.entryAddress base sel) 0 8 = .error c) :
    s.tableFetch base limit sel = .pageFault c := by
  rw [State.tableFetch, if_neg (State.not_nonCanonical_entry hc), selectorIndex_eq, if_neg (Nat.not_lt.mpr hlim), h]

theorem State.tableFetch_of_ok (hlim : 8 * (sel.toNat / 8) + 7 ≤ limit) {bytes : List Byte}
    (h : s.readRange .descriptorRead (s.entryAddress base sel) 0 8 = .ok bytes) :
    s.tableFetch base limit sel = .desc (Descriptor.ofBits (BitVec.ofNat 64 (leValue bytes))) := by
  rw [State.tableFetch, if_neg (State.not_nonCanonical_entry hc), selectorIndex_eq, if_neg (Nat.not_lt.mpr hlim), h]

end

end

/-! ### What the descriptor lookup can answer -/

/-- The answers of the descriptor lookup: non-canonical in 64-bit mode only, a descriptor with a base of 32 bits only
(41_segment_load.md R142, R143, R154). -/
inductive PossibleAnswer (s : State) : DescAnswer → Prop where
  | outOfLimits : PossibleAnswer s .outOfLimits
  | nonCanonical (mode : s.mode = .long64) : PossibleAnswer s .nonCanonical
  | pageFault (c : FaultCode) : PossibleAnswer s (.pageFault c)
  | desc (d : Descriptor) (base : d.base.toNat < 2 ^ 32) : PossibleAnswer s (.desc d)

theorem toNat_setWidth_lt_of_32 (v : BitVec 32) : (v.setWidth 64).toNat < 2 ^ 32 := by
  rw [BitVec.toNat_setWidth_of_le (by decide)]
  exact v.isLt

theorem State.tableFetch_possible (s : State) (base : BitVec 64) (limit : Nat) (sel : Selector) :
    PossibleAnswer s (s.tableFetch base limit sel) := by
  rw [State.tableFetch]
  split
  · next h => exact .nonCanonical h.1
  split
  · exact .outOfLimits
  split
  · exact .pageFault _
  · exact .desc _ (toNat_setWidth_lt_of_32 _)

theorem State.tablesFetch_possible (s : State) (sel : Selector) : PossibleAnswer s (s.tablesFetch sel) := by
  rw [State.tablesFetch]
  split
  · split
    · exact s.tableFetch_possible _ _ _
    · exact .outOfLimits
  · exact s.tableFetch_possible _ _ _

theorem State.descFetch_possible (s : State) (sel : Selector) : PossibleAnswer s (s.descFetch sel) := by
  rw [State.descFetch]
  cases lookupAnswer sel s.descAnswers with
  | none => exact s.tablesFetch_possible sel
  | some a =>
    cases a with
    | outOfLimits => exact .outOfLimits
    | pageFault c => exact .pageFault c
    | desc d => exact .desc _ (toNat_setWidth_lt_of_32 _)
    | nonCanonical =>
      dsimp only
      split
      · next hm => exact .nonCanonical hm
      · exact s.tablesFetch_possible sel

theorem State.base_lt_of_descFetch {s : State} {sel : Selector} {d : Descriptor} (h : s.descFetch sel = .desc d) :
    d.base.toNat < 2 ^ 32 := by
  have hp := s.descFetch_possible sel
  rw [h] at hp
  cases hp
  assumption

theorem State.descFetch_ne_nonCanonical {s : State} {sel : Selector} (hm : s.mode ≠ .long64) :
    s.descFetch sel ≠ .nonCanonical := by
  intro h
  have hp := s.descFetch_possible sel
  rw [h] at hp
  cases hp
  contradiction

end Sys2Proof.Machine
end

section
/-! Settled: selectors, the descriptor lookup and the descriptor's bits (41_segment_load.md R140 to R143). -/

open Sys2Proof Sys2Proof.Machine

/-- Settles O46: bits 15:2 are the quotient by 4, bits 1:0 the remainder. -/
theorem nullSelectorsAreZeroToThree : Obligations.NullSelectorsAreZeroToThree := by
  intro sel
  refine ⟨?_, rpl_toNat sel⟩
  rw [isNull_iff]
  bv_omega

/-- Settles O45: the kind by the type's bits, the fields as numbers. -/
theorem descriptorBitsMapToTheRecord : Obligations.DescriptorBitsMapToTheRecord := by
  intro D
  dsimp only
  rw [Descriptor.kind_ofBits, Descriptor.base_ofBits, Descriptor.limit_ofBits]
  refine ⟨?_, ?_, ?_, ?_, ?_, ?_, ?_, extractLsb'_toNat_div D 45 2, rfl, rfl, rfl, rfl, ?_, ?_⟩
  all_goals intros; simp only [*, Bool.true_eq_false, Bool.false_eq_true, if_true, if_false]

/-- Settles O43: it is not among the answers possible in another mode. -/
theorem nonCanonicalDescriptorOnlyInSixtyFourBitMode : Obligations.NonCanonicalDescriptorOnlyInSixtyFourBitMode :=
  fun _ _ hm => State.descFetch_ne_nonCanonical hm

/-- Settles O44: the tests of the lookup in their order. -/
theorem descriptorLookupInTheTables : Obligations.DescriptorLookupInTheTables := by
  intro s sel base limit hlist hg hl
  dsimp only
  simp only [← s.linearAdd_entryAddress]
  rw [State.descFetch_of_not_listed hlist, ← State.canonicalRange_entry_iff]
  refine ⟨fun ht => ?_, fun ht hc => ?_, fun ht hc hlim => ?_, fun ht hc hlim =>
    ⟨fun j hj c hbefore hat => ?_, fun D hD => ?_⟩⟩
  · obtain ⟨hti, hv⟩ := Classical.not_imp.mp ht
    exact State.tablesFetch_of_no_table hti (eq_false_of_ne_true hv)
  all_goals rw [State.tablesFetch_of_table ht hg hl]
  · obtain ⟨hm, hc⟩ := Classical.not_imp.mp hc
    exact State.tableFetch_of_nonCanonical hm (eq_false_of_ne_true hc)
  · exact State.tableFetch_of_past_limit hc hlim
  · refine State.tableFetch_of_error hc hlim (State.readRange_of_first_fault hj ?_ ?_)
    · simpa only [Nat.zero_add] using hbefore
    · simpa only [Nat.zero_add] using hat
  · obtain ⟨bytes, hread, hval⟩ := State.readRange_eq_of_bytes D hD
    rw [State.tableFetch_of_ok hc hlim hread, hval, BitVec.ofNat_toNat, BitVec.setWidth_eq]

end

section
/-! SUPPORT. The load of a segment register by mode and register, each check of a selector by the condition it tests,
what an instruction over a readable operand then ends with (41_segment_load.md R144 to R153; 60_exceptions.md R175). -/

namespace Sys2Proof.Machine

/-! ### The forms that exist -/

/-- Outside 64-bit mode every 16- and 32-bit form exists (30_encoding.md R97). -/
theorem formExists_of_narrow {s : State} {i : Instr} (hm : s.mode ≠ .long64) (hl : i.operands.hasLock = false)
    (hw : i.width ≠ .s64) : FormExists s i :=
  ⟨hl, fun _ => hm, fun h => absurd h hw⟩

/-- In 64-bit mode every form exists but those of DS and ES (30_encoding.md R94). -/
theorem formExists_of_long64 {s : State} {i : Instr} (hm : s.mode = .long64) (hl : i.operands.hasLock = false)
    (hd : i.dest.isDsEs = false) : FormExists s i :=
  ⟨hl, by simp [hd], fun _ => hm⟩

theorem descriptorModes_of_protected {s : State} (hm : s.mode = .prot ∨ s.mode = .compat) :
    s.mode ≠ .real ∧ s.mode ≠ .v86 ∧ s.mode ≠ .long64 := by
  rcases hm with hm | hm <;> simp [hm]

/-- The kinds of descriptor no data segment register takes (R147, R151). -/
theorem Descriptor.not_loadable_iff {d : Descriptor} :
    (d.isData || d.isReadableCode) = false ↔ d.kind = .codeXNC ∨ d.kind = .codeXC ∨ d.kind = .system := by
  cases hk : d.kind <;> simp [Descriptor.isData, Descriptor.isReadableCode, hk]

/-! ### The load by mode and register -/

section
variable {s : State} {S : LoadSeg} {sel : Selector}

/-- R145: in real-address and virtual-8086 mode nothing of the selector is checked. -/
theorem State.loadSegment_of_real (hm : s.mode = .real ∨ s.mode = .v86) :
    s.loadSegment S sel = .ok (s.loadRealV86 S.name sel) := by
  rcases hm with hm | hm <;> simp only [State.loadSegment, hm]

/-- R147, R148, R151, R152: the load of a data segment register is the same wherever it exists. -/
theorem State.loadSegment_of_data (hm : s.mode ≠ .real ∧ s.mode ≠ .v86) (hS : S ≠ .ss)
    (h64 : s.mode = .long64 → S.isDsEs = false) : s.loadSegment S sel = s.loadData S.name sel := by
  cases hmode : s.mode <;> simp only [State.loadSegment, hmode]
  case real => exact absurd hmode hm.1
  case v86 => exact absurd hmode hm.2
  case prot | compat =>
    cases S with
    | ss => exact absurd rfl hS
    | ds | es | fs | gs => rfl
  case long64 =>
    cases S with
    | ss => exact absurd rfl hS
    | ds | es => cases h64 hmode
    | fs | gs => rfl

theorem State.loadData_of_null (h : isNull sel = true) : s.loadData S.name sel = .ok (s.loadNull S.name sel) :=
  if_pos h

theorem State.loadData_of_nonNull (h : isNull sel = false) :
    s.loadData S.name sel = s.loadDataDescriptor S.name sel := by
  simp only [State.loadData, h, Bool.false_eq_true, if_false]

/-- R146, R149: the load of SS from a descriptor is the same in every mode that has descriptors. -/
theorem State.loadSegment_ss_of_nonNull (hm : s.mode ≠ .real ∧ s.mode ≠ .v86) (h : isNull sel = false) :
    s.loadSegment .ss sel = s.loadSsDescriptor sel := by
  cases hmode : s.mode <;>
    simp only [State.loadSegment, State.loadSsProt, hmode, h, Bool.false_eq_true, if_false]
  case real => exact absurd hmode hm.1
  case v86 => exact absurd hmode hm.2

/-- R146: in protected and compatibility mode a NULL selector is refused. -/
theorem State.loadSegment_ss_of_protected_null (hm : s.mode = .prot ∨ s.mode = .compat) (h : isNull sel = true) :
    s.loadSegment .ss sel = raise (.generalProtection (some 0)) := by
  rcases hm with hm | hm <;> simp only [State.loadSegment, State.loadSsProt, hm, h, if_true]

/-- R150: in 64-bit mode a NULL selector is tested by its RPL. -/
theorem State.loadSegment_ss_of_long64_null (hm : s.mode = .long64) (h : isNull sel = true) :
    s.loadSegment .ss sel = s.loadSsNull64 sel := by
  simp only [State.loadSegment, hm, h, if_true]

/-- R150, with the CPL for the RPL it must be. -/
theorem State.loadSsNull64_eq (s : State) (sel : Selector) :
    s.loadSsNull64 sel =
      if s.cpl = 3 ∨ rpl sel ≠ s.cpl then raise (.generalProtection (some 0)) else .ok (s.loadNull .ss sel) := by
  have hcond : (rpl sel = 3 ∨ rpl sel ≠ s.cpl) ↔ (s.cpl = 3 ∨ rpl sel ≠ s.cpl) := by
    by_cases h : rpl sel = s.cpl <;> simp [h]
  simp only [State.loadSsNull64, hcond]

/-! ### The checks of a descriptor for SS (R146, R149) -/

theorem State.loadSsDescriptor_of_nonCanonical (h : s.descFetch sel = .nonCanonical) :
    s.loadSsDescriptor sel = raise (.generalProtection (some (s.nonCanonCode sel))) := by
  rw [State.loadSsDescriptor, h]

theorem State.loadSsDescriptor_of_outOfLimits (h : s.descFetch sel = .outOfLimits) :
    s.loadSsDescriptor sel = raise (.generalProtection (some (errSel sel))) := by
  rw [State.loadSsDescriptor, h]

/-- A wrong RPL is reported whatever the lookup answers, but for a non-canonical address. -/
theorem State.loadSsDescriptor_of_rpl_ne (h : s.descFetch sel ≠ .nonCanonical) (hr : rpl sel ≠ s.cpl) :
    s.loadSsDescriptor sel = raise (.generalProtection (some (errSel sel))) := by
  rw [State.loadSsDescriptor]
  cases hd : s.descFetch sel with
  | nonCanonical => exact absurd hd h
  | outOfLimits => rfl
  | pageFault c => exact if_pos hr
  | desc d => exact if_pos hr

theorem State.loadSsDescriptor_of_pageFault {c : FaultCode} (h : s.descFetch sel = .pageFault c)
    (hr : rpl sel = s.cpl) : s.loadSsDescriptor sel = raise (.pageFault c) := by
  rw [State.loadSsDescriptor, h]
  exact if_neg (not_not_intro hr)

theorem State.loadSsDescriptor_of_desc {d : Descriptor} (h : s.descFetch sel = .desc d) (hr : rpl sel = s.cpl) :
    s.loadSsDescriptor sel =
      if d.kind ≠ .dataRW ∨ d.dpl ≠ s.cpl then raise (.generalProtection (some (errSel sel)))
      else if d.p = false then raise (.stackSegment (some (errSel sel)))
      else .ok (s.loadDescriptor .ss sel d) := by
  have hkind : d.isWritableData = false ↔ d.kind ≠ .dataRW := beq_eq_false_iff_ne
  simp only [State.loadSsDescriptor, h, hr, hkind, ne_eq, not_true_eq_false, if_false]

/-! ### The checks of a descriptor for DS, ES, FS and GS (R147, R151) -/

theorem State.loadDataDescriptor_of_noEntry (h : s.descFetch sel = .nonCanonical ∨ s.descFetch sel = .outOfLimits) :
    s.loadDataDescriptor S.name sel = raise (.generalProtection (some (errSel sel))) := by
  rcases h with h | h <;> rw [State.loadDataDescriptor, h]

theorem State.loadDataDescriptor_of_pageFault {c : FaultCode} (h : s.descFetch sel = .pageFault c) :
    s.loadDataDescriptor S.name sel = raise (.pageFault c) := by
  rw [State.loadDataDescriptor, h]

theorem State.loadDataDescriptor_of_desc {d : Descriptor} (h : s.descFetch sel = .desc d) :
    s.loadDataDescriptor S.name sel =
      if (d.kind = .codeXNC ∨ d.kind = .codeXC ∨ d.kind = .system) ∨ privilegeViolation s.cpl sel d = true then
        raise (.generalProtection (some (errSel sel)))
      else if d.p = false then raise (.segmentNotPresent (errSel sel))
      else .ok (s.loadDescriptor S.name sel d) := by
  simp only [State.loadDataDescriptor, h, Descriptor.not_loadable_iff]
  split <;> simp [*]

end

/-- The privilege test of a kind that is taken, readable conforming code aside (R147, R151). -/
theorem privilegeViolation_iff {cpl : Level} {sel : Selector} {d : Descriptor}
    (hk : d.kind = .dataRO ∨ d.kind = .dataRW ∨ d.kind = .codeXRNC) :
    privilegeViolation cpl sel d = true ↔ d.dpl < rpl sel ∨ d.dpl < cpl := by
  have : (d.isData || d.isNonconformingCode) = true := by
    rcases hk with hk | hk | hk <;> simp [Descriptor.isData, Descriptor.isNonconformingCode, hk]
  simp [privilegeViolation, this]

/-- Readable conforming code is taken at every privilege level (R147, R151). -/
theorem privilegeViolation_of_conforming {cpl : Level} {sel : Selector} {d : Descriptor} (hk : d.kind = .codeXRC) :
    privilegeViolation cpl sel d = false := by
  simp [privilegeViolation, Descriptor.isData, Descriptor.isNonconformingCode, hk]

/-! ### Over a readable operand -/

/-- The page fault on a descriptor is the lookup's answer for a selector that is not NULL (60_exceptions.md R175). -/
theorem State.mem_descriptorPageFault {s : State} {sel : Selector} {f : Fault} :
    f ∈ s.descriptorPageFault sel ↔
      (s.mode ≠ .real ∧ s.mode ≠ .v86 ∧ isNull sel = false) ∧
        ∃ c, s.descFetch sel = .pageFault c ∧ f = .pageFault c := by
  rw [State.descriptorPageFault]
  split
  · next h =>
    simp only [List.not_mem_nil, false_iff]
    rintro ⟨⟨hreal, hv86, hn⟩, -⟩
    simp [hreal, hv86, hn] at h
  · next h =>
    simp only [not_or, Bool.not_eq_true] at h
    simp only [h, ne_eq, not_false_eq_true, and_self, true_and]
    split <;> simp [*]

section
variable {s : State} {i : Instr} {off : BitVec 64} {sel : Selector} (hf : FormExists s i)
  (hat : FarPointerAt s i off sel)
include hf hat

/-- The instruction completes where the load does. -/
theorem completesWith_of_at {t : State} {good : SegmentRegister → Prop} (hl : s.loadSegment i.dest sel = .ok t)
    (hgood : good (t.seg i.dest.name)) : CompletesWith s i off good := by
  obtain ⟨r, n, rfl⟩ := State.loadSegment_frame hl
  obtain ⟨hoff, hseg⟩ := s.offsetLoaded i off r n
  refine ⟨_, exec_of_at_ok hf hat hl, hoff, ?_⟩
  rw [hseg]
  rwa [show State.seg { s.setSeg i.dest.name r with draws := n } i.dest.name = r from s.seg_setSeg_self _ r] at hgood

/-- Where no descriptor's page fault competes, the load's exception is the instruction's in either order. -/
theorem exec_of_at_raise_of_mapped {f : Fault} (hl : s.loadSegment i.dest sel = raise f)
    (hd : ∀ c, s.descFetch sel ≠ .pageFault c) : exec i s = .fault f :=
  exec_of_at_raise hf hat hl fun g hg => by
    obtain ⟨-, c, hc, -⟩ := State.mem_descriptorPageFault.mp hg
    exact absurd hc (hd c)

/-- A NULL selector has no descriptor whose page fault could compete. -/
theorem exec_of_at_raise_of_null {f : Fault} (hl : s.loadSegment i.dest sel = raise f) (hn : isNull sel = true) :
    exec i s = .fault f :=
  exec_of_at_raise hf hat hl fun g hg => by
    obtain ⟨⟨-, -, hno⟩, -⟩ := State.mem_descriptorPageFault.mp hg
    rw [hn] at hno
    cases hno

/-- A descriptor's page fault that the load reports is the only exception that applies. -/
theorem exec_of_at_raise_pageFault {c : FaultCode} (hl : s.loadSegment i.dest sel = raise (.pageFault c))
    (hd : s.descFetch sel = .pageFault c) : exec i s = .fault (.pageFault c) :=
  exec_of_at_raise hf hat hl fun g hg => by
    obtain ⟨-, c', hc, rfl⟩ := State.mem_descriptorPageFault.mp hg
    rw [hd] at hc
    cases hc
    rfl

/-- Where another exception of the load stands beside the descriptor's page fault, the order of exceptions decides
(60_exceptions.md R175). -/
theorem exec_of_at_raise_beside_pageFault {f : Fault} {c : FaultCode} (hl : s.loadSegment i.dest sel = raise f)
    (hd : s.descFetch sel = .pageFault c) :
    (s.params.faultOrder = .fixed → exec i s = .fault f) ∧
    (s.params.faultOrder = .anyApplicable → exec i s = .fault f ∨ exec i s = .fault (.pageFault c)) := by
  obtain ⟨-, hfixed, hany⟩ := faultsAs_of_at hf hat hl
  refine ⟨hfixed, fun ho => ?_⟩
  obtain ⟨g, hg, hexec⟩ := hany ho
  have hg := State.applicable_of_at hat hg
  rw [State.selectorFaults, List.mem_append, mem_faultOf, hl, raise_inj] at hg
  rcases hg with rfl | hg
  · exact .inl hexec
  · obtain ⟨-, c', hc, rfl⟩ := State.mem_descriptorPageFault.mp hg
    rw [hd] at hc
    cases hc
    exact .inr hexec

/-- LSS, the descriptor's lookup a page fault (R146, R149). -/
theorem exec_lss_of_pageFault (hl : s.loadSegment i.dest sel = s.loadSsDescriptor sel) {c : FaultCode}
    (hd : s.descFetch sel = .pageFault c) :
    (rpl sel = s.cpl → exec i s = .fault (.pageFault c)) ∧
    (rpl sel ≠ s.cpl →
      (s.params.faultOrder = .fixed → exec i s = .fault (.generalProtection (some (errSel sel)))) ∧
      (s.params.faultOrder = .anyApplicable →
        exec i s = .fault (.generalProtection (some (errSel sel))) ∨ exec i s = .fault (.pageFault c))) := by
  refine ⟨fun hr => ?_, fun hr => ?_⟩
  · exact exec_of_at_raise_pageFault hf hat (hl.trans (State.loadSsDescriptor_of_pageFault hd hr)) hd
  · exact exec_of_at_raise_beside_pageFault hf hat
      (hl.trans (State.loadSsDescriptor_of_rpl_ne (by simp [hd]) hr)) hd

/-- LSS of a descriptor by its kind, DPL and presence, the RPL being the CPL (R146, R149). -/
theorem exec_lss_of_desc (hdest : i.dest = .ss) (hl : s.loadSegment i.dest sel = s.loadSsDescriptor sel)
    {d : Descriptor} (hd : s.descFetch sel = .desc d) (hr : rpl sel = s.cpl) :
    (d.kind ≠ .dataRW ∨ d.dpl ≠ s.cpl → exec i s = .fault (.generalProtection (some (errSel sel)))) ∧
    (d.kind = .dataRW → d.dpl = s.cpl → d.p = false → exec i s = .fault (.stackSegment (some (errSel sel)))) ∧
    (d.kind = .dataRW → d.dpl = s.cpl → d.p = true → CompletesWith s i off (fun r => r = ⟨sel, true, d⟩)) := by
  rw [State.loadSsDescriptor_of_desc hd hr] at hl
  have hmapped : ∀ c, s.descFetch sel ≠ .pageFault c := by simp [hd]
  refine ⟨fun hbad => ?_, fun hk hdpl hp => ?_, fun hk hdpl hp => ?_⟩
  · rw [if_pos hbad] at hl
    exact exec_of_at_raise_of_mapped hf hat hl hmapped
  · rw [if_neg (by simp [hk, hdpl]), if_pos hp] at hl
    exact exec_of_at_raise_of_mapped hf hat hl hmapped
  · rw [if_neg (by simp [hk, hdpl]), if_neg (by simp [hp])] at hl
    exact completesWith_of_at hf hat hl (by rw [hdest]; exact s.seg_loadDescriptor_self _ _ _)

/-- LDS, LES, LFS, LGS of a NULL selector (R148, R152). -/
theorem completesWith_of_null (hl : s.loadSegment i.dest sel = s.loadData i.dest.name sel) (hn : isNull sel = true) :
    CompletesWith s i off (fun r => r.sel = sel ∧ r.valid = false) := by
  refine completesWith_of_at hf hat (hl.trans (State.loadData_of_null hn)) ?_
  rw [State.seg_loadNull_self]
  exact ⟨rfl, rfl⟩

/-- LDS, LES, LFS, LGS with no descriptor in the table (R147, R151). -/
theorem exec_data_of_noEntry (hl : s.loadSegment i.dest sel = s.loadDataDescriptor i.dest.name sel)
    (hd : s.descFetch sel = .nonCanonical ∨ s.descFetch sel = .outOfLimits) :
    exec i s = .fault (.generalProtection (some (errSel sel))) :=
  exec_of_at_raise_of_mapped hf hat (hl.trans (State.loadDataDescriptor_of_noEntry hd))
    (by rcases hd with hd | hd <;> simp [hd])

/-- LDS, LES, LFS, LGS, the descriptor's lookup a page fault (R147, R151). -/
theorem exec_data_of_pageFault (hl : s.loadSegment i.dest sel = s.loadDataDescriptor i.dest.name sel) {c : FaultCode}
    (hd : s.descFetch sel = .pageFault c) : exec i s = .fault (.pageFault c) :=
  exec_of_at_raise_pageFault hf hat (hl.trans (State.loadDataDescriptor_of_pageFault hd)) hd

/-- LDS, LES, LFS, LGS of a descriptor by its kind, the privilege levels and presence (R147, R151). -/
theorem exec_data_of_desc (hl : s.loadSegment i.dest sel = s.loadDataDescriptor i.dest.name sel)
    {d : Descriptor} (hd : s.descFetch sel = .desc d) :
    (d.kind = .codeXNC ∨ d.kind = .codeXC ∨ d.kind = .system →
      exec i s = .fault (.generalProtection (some (errSel sel)))) ∧
    (d.kind = .dataRO ∨ d.kind = .dataRW ∨ d.kind = .codeXRNC → rpl sel > d.dpl ∨ s.cpl > d.dpl →
      exec i s = .fault (.generalProtection (some (errSel sel)))) ∧
    (d.kind = .codeXRC ∨ (d.kind = .dataRO ∨ d.kind = .dataRW ∨ d.kind = .codeXRNC) ∧ rpl sel ≤ d.dpl ∧ s.cpl ≤ d.dpl →
      (d.p = false → exec i s = .fault (.segmentNotPresent (errSel sel))) ∧
      (d.p = true → CompletesWith s i off (fun r => r = ⟨sel, true, d⟩))) := by
  rw [State.loadDataDescriptor_of_desc hd] at hl
  have hmapped : ∀ c, s.descFetch sel ≠ .pageFault c := by simp [hd]
  refine ⟨fun hk => ?_, fun hk hpriv => ?_, fun hk => ?_⟩
  · rw [if_pos (.inl hk)] at hl
    exact exec_of_at_raise_of_mapped hf hat hl hmapped
  · rw [if_pos (.inr ((privilegeViolation_iff hk).mpr hpriv))] at hl
    exact exec_of_at_raise_of_mapped hf hat hl hmapped
  · have hpriv : privilegeViolation s.cpl sel d = false := by
      rcases hk with hk | ⟨hk, hrpl, hcpl⟩
      · exact privilegeViolation_of_conforming hk
      · rw [← Bool.not_eq_true, privilegeViolation_iff hk, not_or, BitVec.not_lt, BitVec.not_lt]
        exact ⟨hrpl, hcpl⟩
    have hkind : ¬ (d.kind = .codeXNC ∨ d.kind = .codeXC ∨ d.kind = .system) := by
      rcases hk with hk | ⟨hk | hk | hk, -⟩ <;> simp [hk]
    rw [if_neg (by simp [hkind, hpriv])] at hl
    refine ⟨fun hp => ?_, fun hp => ?_⟩
    · rw [if_pos hp] at hl
      exact exec_of_at_raise_of_mapped hf hat hl hmapped
    · rw [if_neg (by simp [hp])] at hl
      exact completesWith_of_at hf hat hl (s.seg_loadDescriptor_self _ _ _)

end

/-! ### The forms the statements list -/

theorem narrow_forms (o : Operands) :
    ∀ i ∈ [Instr.lds16 o, .lds32 o, .lss16 o, .lss32 o, .les16 o, .les32 o, .lfs16 o, .lfs32 o, .lgs16 o, .lgs32 o],
      i.operands = o ∧ i.width ≠ .s64 := by
  simp [Instr.operands, Instr.width]

theorem narrow_data_forms (o : Operands) :
    ∀ i ∈ [Instr.lds16 o, .lds32 o, .les16 o, .les32 o, .lfs16 o, .lfs32 o, .lgs16 o, .lgs32 o],
      i.operands = o ∧ i.width ≠ .s64 ∧ i.dest ≠ .ss := by
  simp [Instr.operands, Instr.width, Instr.dest]

theorem narrow_lss_forms (o : Operands) :
    ∀ i ∈ [Instr.lss16 o, .lss32 o], i.operands = o ∧ i.width ≠ .s64 ∧ i.dest = .ss := by
  simp [Instr.operands, Instr.width, Instr.dest]

theorem lds_les_forms (o : Operands) :
    ∀ i ∈ [Instr.lds16 o, .lds32 o, .les16 o, .les32 o], i.dest.isDsEs = true := by
  simp [Instr.dest, LoadSeg.isDsEs]

theorem lss_forms (o : Operands) : ∀ i ∈ [Instr.lss16 o, .lss32 o, .lss64 o], i.operands = o ∧ i.dest = .ss := by
  simp [Instr.operands, Instr.dest]

theorem fs_gs_forms (o : Operands) :
    ∀ i ∈ [Instr.lfs16 o, .lfs32 o, .lfs64 o, .lgs16 o, .lgs32 o, .lgs64 o],
      i.operands = o ∧ i.dest ≠ .ss ∧ i.dest.isDsEs = false := by
  simp [Instr.operands, Instr.dest, LoadSeg.isDsEs]

end Sys2Proof.Machine
end

section
/-! Settled: what the instructions do, mode by mode (41_segment_load.md R144 to R153). -/

open Sys2Proof Sys2Proof.Machine

/-- Settles O21: the load of these modes checks nothing. -/
theorem realAndVirtualModeLoadCompletes : Obligations.RealAndVirtualModeLoadCompletes := by
  intro s o i off sel hi hm hlock hat
  obtain ⟨rfl, hw⟩ := narrow_forms o i hi
  have hf : FormExists s i := formExists_of_narrow (by rcases hm with hm | hm <;> simp [hm]) hlock hw
  refine completesWith_of_at hf hat (State.loadSegment_of_real hm) ?_
  rw [State.seg_loadRealV86_self]
  refine ⟨rfl, rfl, ?_, rfl⟩
  have := sel.isLt
  simp only [BitVec.toNat_mul, BitVec.toNat_setWidth, show BitVec.toNat (16 : BitVec 64) = 16 from rfl]
  omega

/-- Settles O22, by the lookup's answer; a non-canonical one does not arise in these modes. -/
theorem protectedModeLssOutcomes : Obligations.ProtectedModeLssOutcomes := by
  intro s o i off sel hi hm hlock hat
  obtain ⟨rfl, hw, hdest⟩ := narrow_lss_forms o i hi
  obtain ⟨hreal, hv86, h64⟩ := descriptorModes_of_protected hm
  have hf : FormExists s i := formExists_of_narrow h64 hlock hw
  have hload : isNull sel = false → s.loadSegment i.dest sel = s.loadSsDescriptor sel := fun hn => by
    rw [hdest, State.loadSegment_ss_of_nonNull ⟨hreal, hv86⟩ hn]
  refine ⟨fun hn => ?_, fun hn hbad => ?_, fun c hn hd => ?_, fun d hn hd hr => ?_⟩
  · exact exec_of_at_raise_of_null hf hat (hdest ▸ State.loadSegment_ss_of_protected_null hm hn) hn
  · rcases hbad with hd | ⟨hr, hmapped⟩
    · exact exec_of_at_raise_of_mapped hf hat ((hload hn).trans (State.loadSsDescriptor_of_outOfLimits hd))
        (by simp [hd])
    · exact exec_of_at_raise_of_mapped hf hat
        ((hload hn).trans (State.loadSsDescriptor_of_rpl_ne (State.descFetch_ne_nonCanonical h64) hr)) hmapped
  · exact exec_lss_of_pageFault hf hat (hload hn) hd
  · exact exec_lss_of_desc hf hat hdest (hload hn) hd hr

/-- Settles O23, by the lookup's answer. -/
theorem protectedModeDataLoadOutcomes : Obligations.ProtectedModeDataLoadOutcomes := by
  intro s o i off sel hi hm hlock hat hn
  obtain ⟨rfl, hw, hdest⟩ := narrow_data_forms o i hi
  obtain ⟨hreal, hv86, h64⟩ := descriptorModes_of_protected hm
  have hf : FormExists s i := formExists_of_narrow h64 hlock hw
  have hload := (State.loadSegment_of_data ⟨hreal, hv86⟩ hdest (absurd · h64)).trans (State.loadData_of_nonNull hn)
  exact ⟨fun hd => exec_data_of_noEntry hf hat hload (.inr hd), fun c hd => exec_data_of_pageFault hf hat hload hd,
    fun d hd => exec_data_of_desc hf hat hload hd⟩

/-- Settles O24: a NULL selector is loaded with no lookup. -/
theorem protectedModeNullLoadCompletes : Obligations.ProtectedModeNullLoadCompletes := by
  intro s o i off sel hi hm hlock hat hn
  obtain ⟨rfl, hw, hdest⟩ := narrow_data_forms o i hi
  obtain ⟨hreal, hv86, h64⟩ := descriptorModes_of_protected hm
  exact completesWith_of_null (formExists_of_narrow h64 hlock hw) hat
    (State.loadSegment_of_data ⟨hreal, hv86⟩ hdest (absurd · h64)) hn

/-- Settles O25, by the lookup's answer. -/
theorem sixtyFourBitModeLssOutcomes : Obligations.SixtyFourBitModeLssOutcomes := by
  intro s o i off sel hi hm hlock hat hn
  obtain ⟨rfl, hdest⟩ := lss_forms o i hi
  have hf : FormExists s i := formExists_of_long64 hm hlock (by rw [hdest]; rfl)
  have hload : s.loadSegment i.dest sel = s.loadSsDescriptor sel := by
    rw [hdest, State.loadSegment_ss_of_nonNull (by simp [hm]) hn]
  refine ⟨fun hd => ?_, fun hd => ?_, fun hcanon hmapped hr => ?_, fun c hd => ?_, fun d hd hr => ?_⟩
  · exact exec_of_at_raise_of_mapped hf hat (hload.trans (State.loadSsDescriptor_of_nonCanonical hd)) (by simp [hd])
  · exact exec_of_at_raise_of_mapped hf hat (hload.trans (State.loadSsDescriptor_of_outOfLimits hd)) (by simp [hd])
  · exact exec_of_at_raise_of_mapped hf hat (hload.trans (State.loadSsDescriptor_of_rpl_ne hcanon hr)) hmapped
  · exact exec_lss_of_pageFault hf hat hload hd
  · exact exec_lss_of_desc hf hat hdest hload hd hr

/-- Settles O26: the load tests the RPL against 3 and the CPL, which comes to testing the CPL against 3 and the RPL. -/
theorem sixtyFourBitModeNullLssOutcomes : Obligations.SixtyFourBitModeNullLssOutcomes := by
  intro s o i off sel hi hm hlock hat hn
  obtain ⟨rfl, hdest⟩ := lss_forms o i hi
  have hf : FormExists s i := formExists_of_long64 hm hlock (by rw [hdest]; rfl)
  have hload : s.loadSegment i.dest sel = s.loadSsNull64 sel := by
    rw [hdest, State.loadSegment_ss_of_long64_null hm hn]
  rw [State.loadSsNull64_eq] at hload
  refine ⟨fun hbad => ?_, fun h3 hr => ?_⟩
  · rw [if_pos hbad] at hload
    exact exec_of_at_raise_of_null hf hat hload hn
  · rw [if_neg (not_or.mpr ⟨h3, not_not_intro hr⟩)] at hload
    refine completesWith_of_at hf hat hload ?_
    rw [hdest, LoadSeg.name, State.seg_loadNull_self]
    exact ⟨rfl, rfl⟩

/-- Settles O27, by the lookup's answer. -/
theorem sixtyFourBitModeFsGsOutcomes : Obligations.SixtyFourBitModeFsGsOutcomes := by
  intro s o i off sel hi hm hlock hat hn
  obtain ⟨rfl, hdest, hfsgs⟩ := fs_gs_forms o i hi
  have hf : FormExists s i := formExists_of_long64 hm hlock hfsgs
  have hload := (State.loadSegment_of_data (s := s) (by simp [hm]) hdest fun _ => hfsgs).trans
    (State.loadData_of_nonNull hn)
  exact ⟨exec_data_of_noEntry hf hat hload, fun c hd => exec_data_of_pageFault hf hat hload hd,
    fun d hd => exec_data_of_desc hf hat hload hd⟩

/-- Settles O28: a NULL selector is loaded with no lookup. -/
theorem sixtyFourBitModeNullFsGsLoadCompletes : Obligations.SixtyFourBitModeNullFsGsLoadCompletes := by
  intro s o i off sel hi hm hlock hat hn
  obtain ⟨rfl, hdest, hfsgs⟩ := fs_gs_forms o i hi
  exact completesWith_of_null (formExists_of_long64 hm hlock hfsgs) hat
    (State.loadSegment_of_data (by simp [hm]) hdest fun _ => hfsgs) hn

/-- Settles O29: these forms do not exist in 64-bit mode. -/
theorem sixtyFourBitModeLdsLesUndefined : Obligations.SixtyFourBitModeLdsLesUndefined := by
  intro s o hm i hi
  have hdest : i.dest.isDsEs = true := lds_les_forms o i hi
  rw [exec_of_not_exists fun hf => hf.2.1 hdest hm, hdest, hm]
  simp

end

section
/-! SUPPORT. The invariant of the machine's state kept by each part of an instruction: the segment-register load, the
register write, the advance of `pc` (10_state.md R24; 41_segment_load.md R143 to R152). -/

namespace Sys2Proof.Machine

/-! ### The register a load leaves -/

theorem LoadSeg.name_ne {S S' : LoadSeg} (h : S' ≠ S) : S'.name ≠ S.name := by
  revert h
  cases S <;> cases S' <;> decide

theorem LoadSeg.ss_ne_name {S : LoadSeg} (h : S ≠ .ss) : SegName.ss ≠ S.name :=
  LoadSeg.name_ne (Ne.symm h)

/-- Where the privilege test of a data segment passes, neither RPL nor CPL exceeds the DPL (41_segment_load.md R147). -/
theorem le_dpl_of_not_privilegeViolation {cpl : Level} {sel : Selector} {d : Descriptor}
    (h : privilegeViolation cpl sel d = false) (hk : d.isData || d.isNonconformingCode) :
    rpl sel ≤ d.dpl ∧ cpl ≤ d.dpl := by
  simpa [privilegeViolation, hk] using h

section
variable {s u : State} {S : LoadSeg} {sel : Selector} (h : s.loadSegment S sel = .ok u)
include h

/-- A load changes no register but its own (10_state.md R37). -/
theorem State.seg_loadSegment_of_ne {S' : SegName} (hS : S' ≠ S.name) : u.seg S' = s.seg S' := by
  obtain ⟨r, n, rfl⟩ := State.loadSegment_frame h
  exact State.seg_setSeg_of_ne s r hS

/-- What a load leaves in real-address and virtual-8086 mode (41_segment_load.md R145). -/
theorem State.realSegmentInv_loadSegment (hm : s.mode = .real ∨ s.mode = .v86) : RealSegmentInv (u.seg S.name) := by
  rcases State.loadSegment_eq_ok h with ⟨-, rfl⟩ | ⟨hno, -⟩ | ⟨hm64, -⟩ | ⟨hno, -⟩
  · rw [State.seg_loadRealV86_self]
    exact ⟨rfl, rfl⟩
  · exact (hm.elim hno.1 hno.2).elim
  · simp [hm64] at hm
  · exact (hm.elim hno.1 hno.2).elim

/-- What a load of DS, ES, FS or GS leaves in the modes with descriptors (41_segment_load.md R147, R148, R151, R152). -/
theorem State.dataSegmentInv_loadSegment (hm : s.mode ≠ .real ∧ s.mode ≠ .v86) (hS : S ≠ .ss) :
    DataSegmentInv s.cpl (u.seg S.name) := by
  rcases State.loadSegment_eq_ok h with
    ⟨hreal, -⟩ | ⟨-, -, -, ⟨hnull, rfl⟩ | ⟨hnull, d, hd, hkind, hpriv, hp, rfl⟩⟩ | ⟨-, hss, -⟩ | ⟨-, hss, -⟩
  · exact (hreal.elim hm.1 hm.2).elim
  · rw [State.seg_loadNull_self]
    exact ⟨fun _ => hnull, nofun⟩
  · rw [State.seg_loadDescriptor_self]
    exact ⟨nofun, fun _ =>
      ⟨hnull, hkind, hp, le_dpl_of_not_privilegeViolation hpriv, State.base_lt_of_descFetch hd⟩⟩
  · exact absurd hss hS
  · exact absurd hss hS

/-- What a load of SS leaves in the modes with descriptors: a NULL selector in 64-bit mode only, and not at CPL 3, which
its RPL would then be (41_segment_load.md R146, R149, R150). -/
theorem State.stackSegmentInv_loadSegment (hm : s.mode ≠ .real ∧ s.mode ≠ .v86) (hS : S = .ss) : StackSegmentInv u := by
  rcases State.loadSegment_eq_ok h with
    ⟨hreal, -⟩ | ⟨-, hne, -⟩ | ⟨hm64, -, hnull, h3, hrpl, rfl⟩ | ⟨-, -, hnull, d, -, hrpl, hkind, hdpl, hp, rfl⟩
  · exact (hreal.elim hm.1 hm.2).elim
  · exact absurd hS hne
  · rw [StackSegmentInv, State.seg_loadNull_self]
    exact ⟨fun _ => ⟨hm64, hrpl ▸ h3, hnull, hrpl⟩, nofun⟩
  · rw [StackSegmentInv, State.seg_loadDescriptor_self]
    exact ⟨nofun, fun _ => ⟨hnull, hkind, hp, hrpl, hdpl⟩⟩

end

/-! ### The invariant kept -/

/-- The invariant passes to a state with the same memory, mode, privilege level and segment registers, and a `pc` in its
width. -/
theorem Inv.congr {s t : State} (hs : Inv s) (hmem : t.mem = s.mem) (hpc : t.pc.toNat < 2 ^ t.codeBits)
    (hmode : t.mode = s.mode) (hcpl : t.cpl = s.cpl) (hseg : ∀ S, t.seg S = s.seg S) : Inv t := by
  refine ⟨hmem ▸ hs.memory, hpc, ?_, ?_, ?_, ?_⟩
  · simpa only [hmode, hseg] using hs.real
  · simpa only [hmode, hcpl, hseg] using hs.data
  · simpa only [hmode, hcpl, hseg] using hs.data64
  · simpa only [StackSegmentInv, hmode, hcpl, hseg] using hs.stack

/-- A load keeps the invariant: its own register is as the load leaves it, the others are as they were
(41_segment_load.md R144 to R152). -/
theorem Inv.loadSegment {s u : State} {S : LoadSeg} {sel : Selector} (hs : Inv s) (h : s.loadSegment S sel = .ok u) :
    Inv u := by
  have hframe : u.mem = s.mem ∧ u.pc = s.pc ∧ u.mode = s.mode ∧ u.cpl = s.cpl ∧ u.codeBits = s.codeBits := by
    obtain ⟨r, n, rfl⟩ := State.loadSegment_frame h
    exact ⟨rfl, rfl, rfl, rfl, rfl⟩
  obtain ⟨hmem, hpc, hmode, hcpl, hbits⟩ := hframe
  have hother : ∀ S', S' ≠ S → u.seg S'.name = s.seg S'.name := fun S' hS =>
    State.seg_loadSegment_of_ne h (LoadSeg.name_ne hS)
  refine ⟨hmem ▸ hs.memory, hpc ▸ hbits ▸ hs.pc, ?_, ?_, ?_, ?_⟩ <;> rw [hmode]
  · intro hm S'
    by_cases hS : S' = S
    · exact hS ▸ State.realSegmentInv_loadSegment h hm
    · exact hother S' hS ▸ hs.real hm S'
  · intro hm S' hss
    by_cases hS : S' = S
    · subst hS
      exact hcpl ▸ State.dataSegmentInv_loadSegment h (by rcases hm with hm | hm <;> simp [hm]) hss
    · exact hother S' hS ▸ hcpl ▸ hs.data hm S' hss
  · intro hm S' hfsgs
    by_cases hS : S' = S
    · subst hS
      exact hcpl ▸ State.dataSegmentInv_loadSegment h (by simp [hm]) (by rintro rfl; simp at hfsgs)
    · exact hother S' hS ▸ hcpl ▸ hs.data64 hm S' hfsgs
  · intro hm
    by_cases hS : S = .ss
    · exact State.stackSegmentInv_loadSegment h (by rcases hm with hm | hm | hm <;> simp [hm]) hS
    · simpa only [StackSegmentInv, hmode, hcpl, State.seg_loadSegment_of_ne h (LoadSeg.ss_ne_name hS)] using hs.stack hm

/-- A register write keeps the invariant, which speaks of no general register. -/
theorem Inv.writeReg {s : State} (hs : Inv s) (w : Size) (r : Fin 16) (v : BitVec 64) : Inv (s.writeReg w r v) := by
  have hbits : (s.writeReg w r v).codeBits = s.codeBits := State.codeBits_congr (by simp) (by simp)
  exact hs.congr (by simp) (by rw [hbits, State.writeReg_pc]; exact hs.pc) (by simp) (by simp) fun S => by simp

/-- `pc` stays within the width in use, at which it wraps (10_state.md R24). -/
theorem Inv.advance {s : State} (hs : Inv s) (n : Nat) : Inv (s.advance n) := by
  refine hs.congr rfl ?_ rfl rfl fun S => rfl
  rw [(s.pcAdvanced_advance n).toNat_eq]
  exact Nat.mod_lt _ (by positivity)

end Sys2Proof.Machine
end

section
/-! Settled: the invariant of the machine's state (10_state.md R24; 41_segment_load.md R145 to R152). -/

open Sys2Proof Sys2Proof.Machine

/-- Settles O54: a completed step loads a segment register, writes a general register and advances `pc`, and each of the
three keeps the invariant. -/
theorem everyStepKeepsTheInvariant : Obligations.EveryStepKeepsTheInvariant := by
  intro s t hs h
  obtain ⟨i, h⟩ := exists_exec_of_step_eq_next h
  obtain ⟨-, off, sel, u, -, hload, rfl⟩ := exec_eq_next h
  exact ((hs.loadSegment hload).writeReg _ _ _).advance _

end


section
/-! SUPPORT. The selector at the operand as the read of its two bytes, and the exceptions its checks have a condition for
(20_memory.md R52; 60_exceptions.md R175). -/

namespace Sys2Proof.Machine

/-- The selector at the operand is the little-endian value of its two bytes, where they can be read (20_memory.md R52). -/
theorem State.selectorAt_iff {s : State} {i : Instr} {sel : Selector} :
    SelectorAt s i sel ↔ ∃ bytes, s.readRange .dataReadAtCpl (s.operandLin i) i.width.bytes 2 = .ok bytes ∧
      BitVec.ofNat 16 (leValue bytes) = sel := by
  constructor
  · intro h
    obtain ⟨bytes, hread, hlen, hget⟩ := s.readRange_ok .dataReadAtCpl (s.operandLin i) i.width.bytes 2 fun k hk => by
      obtain ⟨p, hp, -⟩ := State.operandByte_eq_some (h k hk)
      exact ⟨p, hp⟩
    have hvalue : leValue bytes = sel.toNat := by
      refine leValue_eq_of_bytes bytes sel.toNat (by rw [hlen]; exact sel.isLt) fun k hk => ?_
      obtain ⟨p, hp, hbyte⟩ := State.operandByte_eq_some (h k (hlen ▸ hk))
      rw [hget k hk p hp, hbyte, extractLsb'_byte_toNat]
    exact ⟨bytes, hread, by rw [hvalue, BitVec.ofNat_toNat, BitVec.setWidth_eq]⟩
  · rintro ⟨bytes, hread, rfl⟩
    exact State.selectorAt_of_readRange hread

/-- An operand holds one selector. -/
theorem selectorAt_unique {s : State} {i : Instr} {sel sel' : Selector} (h : SelectorAt s i sel)
    (h' : SelectorAt s i sel') : sel = sel' := by
  obtain ⟨bytes, hread, rfl⟩ := State.selectorAt_iff.mp h
  obtain ⟨bytes', hread', rfl⟩ := State.selectorAt_iff.mp h'
  rw [hread, Except.ok.injEq] at hread'
  rw [hread']

/-- The exceptions of the selector's checks: the load's own, or the page fault on the descriptor (60_exceptions.md
R175). -/
theorem State.mem_selectorFaults {s : State} {S : LoadSeg} {sel : Selector} {f : Fault} :
    f ∈ s.selectorFaults S sel ↔ s.loadSegment S sel = raise f ∨
      ∃ c, s.mode ≠ .real ∧ s.mode ≠ .v86 ∧ isNull sel = false ∧ s.descFetch sel = .pageFault c ∧ f = .pageFault c := by
  simp only [State.selectorFaults, List.mem_append, mem_faultOf, State.mem_descriptorPageFault, exists_and_left, and_assoc]

end Sys2Proof.Machine
end

section
/-! Settled: which exceptions apply to an instruction (60_exceptions.md R175). -/

open Sys2Proof Sys2Proof.Machine

/-- Settles O41: each check by its condition; the limit and the canonical form are the two halves of the operand's range. -/
theorem applicableExceptions : Obligations.ApplicableExceptions := by
  intro s i f
  rw [State.mem_applicable, s.nullSegCheck_eq, s.segCheck_eq, s.canonCheck_eq, s.alignmentCheck_eq]
  simp only [okOrRaise_eq_raise, State.selectorAt_iff, ← State.mem_selectorFaults]
  refine or_congr_right ?_
  rw [← or_assoc, ← or_and_right, ← not_and_or]
  refine or_congr_right <| or_congr_right <| or_congr_right ?_
  constructor
  · rintro ⟨bytes, hread, hf⟩
    exact ⟨_, ⟨bytes, hread, rfl⟩, hf⟩
  · rintro ⟨_, ⟨bytes, hread, rfl⟩, hf⟩
    exact ⟨bytes, hread, hf⟩

end

section
/-! SUPPORT. What has passed where an instruction completes, and where an instruction's exception comes from, by mode
(60_exceptions.md R172 to R175). -/

namespace Sys2Proof.Machine

/-! ### A completed instruction -/

/-- An instruction that raises an exception does not complete. -/
theorem FaultsAs.exec_ne_next {s t : State} {i : Instr} {f : Fault} (h : FaultsAs s i f) : exec i s ≠ .next t := by
  intro hnext
  cases ho : s.params.faultOrder with
  | fixed => cases hnext.symm.trans (h.fixed ho)
  | anyApplicable =>
    obtain ⟨g, -, hg⟩ := h.any ho
    cases hnext.symm.trans hg

/-- An instruction whose operand fits is executed or faults (20_memory.md R61). -/
theorem exec_ne_refused_of_fits {s : State} {i : Instr} (hf : FormExists s i) (hfit : OperandFits s i) (q : Refusal) :
    exec i s ≠ .refused q := by
  have hsteps : NeverRefuses (s.steps i) :=
    (State.readFarPointer_neverRefuses hfit).bind fun p => (s.loadSegment_neverRefuses i.dest p.2).bind fun _ =>
      neverRefuses_ok _
  rw [exec_of_exists hf]
  match hr : s.steps i with
  | .ok t => exact nofun
  | .error (.exception f) => exact nofun
  | .error (.refusal q') => exact absurd hr (hsteps q')

/-- A load that completes has met no page fault on its descriptor (41_segment_load.md R146 to R152). -/
theorem State.descFetch_ne_pageFault_of_loadSegment {s u : State} {S : LoadSeg} {sel : Selector}
    (h : s.loadSegment S sel = .ok u) (hreal : s.mode ≠ .real) (hv86 : s.mode ≠ .v86) (hn : isNull sel = false)
    (c : FaultCode) : s.descFetch sel ≠ .pageFault c := by
  intro hc
  rcases State.loadSegment_eq_ok h with
    ⟨hm, -⟩ | ⟨-, -, -, ⟨hnull, -⟩ | ⟨-, d, hd, -⟩⟩ | ⟨-, -, hnull, -⟩ | ⟨-, -, -, d, hd, -⟩
  · exact hm.elim hreal hv86
  · cases hn.symm.trans hnull
  · cases hc.symm.trans hd
  · cases hn.symm.trans hnull
  · cases hc.symm.trans hd

/-- Where an instruction completes, its operand has passed every check, each in the order they run (20_memory.md R55 to
R59). -/
theorem operand_passes_of_exec_next {s t : State} {i : Instr} (hfit : OperandFits s i) (h : exec i s = .next t) :
    OperandSegmentUsable s i ∧ OperandInRange s i ∧ OperandMapped s i ∧ OperandAligned s i := by
  obtain ⟨hf, -⟩ := exec_eq_next h
  have hu : OperandSegmentUsable s i :=
    Classical.not_not.mp fun hu => (faultsAs_of_not_usable hf hfit hu).exec_ne_next h
  have hr : OperandInRange s i :=
    Classical.not_not.mp fun hr => (faultsAs_of_not_inRange hf hfit hu hr).exec_ne_next h
  have hmap : OperandMapped s i := Classical.not_not.mp fun hmap => by
    obtain ⟨k, hk, c, hc⟩ := State.exists_pageFault_of_not_mapped hmap
    obtain ⟨c', hparts, -⟩ := s.readParts_error (s.operandLin i) i.width k c hk hc
    exact (faultsAs_of_readParts_error hf hfit hu hr hparts).exec_ne_next h
  exact ⟨hu, hr, hmap, Classical.not_not.mp fun ha => (faultsAs_of_not_aligned hf hfit hu hr hmap ha).exec_ne_next h⟩

/-- Where an instruction completes, the selector at its operand has been loaded (40_load_far_pointer.md R110 step 4). -/
theorem exists_loadSegment_of_exec_next {s t : State} {i : Instr} {sel : Selector} (h : exec i s = .next t)
    (hsel : SelectorAt s i sel) : ∃ u, s.loadSegment i.dest sel = .ok u := by
  obtain ⟨-, off, sel', u, hread, hload, -⟩ := exec_eq_next h
  exact ⟨u, selectorAt_unique (State.selectorAt_of_readFarPointer hread) hsel ▸ hload⟩

/-- No exception applies to an instruction that completes: it has passed the condition of each (60_exceptions.md R175). -/
theorem applicable_eq_nil_of_exec_next {s t : State} {i : Instr} (hfit : OperandFits s i) (h : exec i s = .next t) :
    s.applicable i = [] := by
  obtain ⟨hu, hr, hmap, ha⟩ := operand_passes_of_exec_next hfit h
  refine List.eq_nil_iff_forall_not_mem.mpr fun f hmem => ?_
  rcases (applicableExceptions s i f).mp hmem with
    ⟨hu', -⟩ | ⟨hr', -⟩ | ⟨k, hk, c, hc, -⟩ | ⟨ha', -⟩ | ⟨sel, hsel, hcheck⟩
  · exact hu' hu
  · exact hr' hr
  · obtain ⟨p, hp⟩ := State.operandMapped_phys hmap k hk
    cases hc.symm.trans hp
  · exact ha' ha
  · obtain ⟨u, hload⟩ := exists_loadSegment_of_exec_next h hsel
    rcases hcheck with hraise | ⟨c, hreal, hv86, hn, hc, -⟩
    · cases hload.symm.trans hraise
    · exact State.descFetch_ne_pageFault_of_loadSegment hload hreal hv86 hn c hc

/-! ### The error code of a selector -/

/-- Bits 15:2 are the selector's, bits 1:0 zero (60_exceptions.md R172). -/
theorem errSel_toNat (sel : Selector) : (errSel sel).toNat = sel.toNat / 4 * 4 := by
  have hhigh : (errSel sel).toNat / 2 ^ 2 = sel.toNat / 4 := by
    have := sel.isLt
    rw [errSel, BitVec.toNat_and, Nat.and_div_two_pow]
    exact (Nat.and_two_pow_sub_one_eq_mod _ 14).trans (Nat.mod_eq_of_lt (by omega))
  have hlow : (errSel sel).toNat % 2 ^ 2 = 0 := by
    rw [errSel, BitVec.toNat_and, Nat.and_mod_two_pow]
    exact Nat.and_zero _
  omega

theorem errSel_mod_four (sel : Selector) : (errSel sel).toNat % 4 = 0 := by
  rw [errSel_toNat, Nat.mul_mod_left]

theorem errSel_ne_zero {sel : Selector} (h : isNull sel = false) : errSel sel ≠ 0 := by
  intro h0
  have hzero : (errSel sel).toNat = 0 := by rw [h0]; rfl
  have hlt : sel.toNat < 4 := by
    rw [errSel_toNat] at hzero
    omega
  rw [isNull_iff.mpr hlt] at h
  cases h

/-! ### The exceptions by their source -/

theorem State.operandCode_of_real {s : State} (hm : s.mode = .real) : s.operandCode = none := if_pos hm

theorem State.operandCode_of_ne_real {s : State} (hm : s.mode ≠ .real) : s.operandCode = some 0 := if_neg hm

theorem State.eq_zero_of_operandCode {s : State} {e : BitVec 16} (h : s.operandCode = some e) : e = 0 := by
  rw [State.operandCode] at h
  split at h <;> cases h
  rfl

/-- In real-address mode nothing is paged (20_memory.md R58). -/
theorem State.translate_ne_pageFault_of_real {s : State} (hm : s.mode = .real) (kind : AccessKind) (lin : Addr)
    (c : FaultCode) : s.translate kind lin ≠ .pageFault c := by
  rw [State.translate, if_pos hm]
  exact nofun

/-- The exceptions an instruction reports, by what raises them: the form, the operand's segment and address, a page, the
alignment, and the checks of a selector, which the modes without descriptors do not make (60_exceptions.md R173). -/
inductive ReportedException (s : State) (i : Instr) : Fault → Prop where
  | undefined : ReportedException s i .undefinedOpcode
  | protection (code : Option (BitVec 16)) (operand : s.operandCode = code) :
    ReportedException s i (.generalProtection code)
  | stack (code : Option (BitVec 16)) (operand : s.operandCode = code) : ReportedException s i (.stackSegment code)
  | page (mode : s.mode ≠ .real) (c : FaultCode) : ReportedException s i (.pageFault c)
  | alignment (mode : s.mode ≠ .real) : ReportedException s i .alignmentCheck
  | selector (mode : s.mode ≠ .real ∧ s.mode ≠ .v86) (sel : Selector) (f : Fault)
      (check : SelectorException s i.dest sel f) : ReportedException s i f

theorem reportedException_of_mem_applicable {s : State} {i : Instr} {f : Fault} (h : f ∈ s.applicable i) :
    ReportedException s i f := by
  rcases (applicableExceptions s i f).mp h with
    ⟨hu, rfl⟩ | ⟨-, rfl⟩ | ⟨k, -, c, hc, rfl⟩ | ⟨ha, rfl⟩ | ⟨sel, -, hraise | ⟨c, hreal, -, -, -, rfl⟩⟩
  · have hm : s.mode ≠ .real := fun hm => hu fun hprot => by simp [hm] at hprot
    exact .protection _ (State.operandCode_of_ne_real hm)
  · rw [State.addressFault]
    split
    · exact .stack _ rfl
    · exact .protection _ rfl
  · exact .page (fun hm => State.translate_ne_pageFault_of_real hm _ _ c hc) c
  · refine .alignment fun hm => ha fun hchecked => ?_
    simp [State.alignmentChecked, hm] at hchecked
  · obtain ⟨hm, hcheck⟩ := State.loadSegment_eq_raise hraise
    exact .selector hm sel f hcheck
  · exact .page hreal c

theorem reportedException_of_exec_fault {s : State} {i : Instr} {f : Fault} (h : exec i s = .fault f) :
    ReportedException s i f := by
  by_cases hf : FormExists s i
  · exact reportedException_of_mem_applicable (mem_applicable_of_exec_fault hf h)
  · rw [exec_of_not_exists hf] at h
    split at h <;> cases h
    exact .undefined

/-! ### The exceptions of each mode -/

namespace ReportedException

variable {s : State} {i : Instr} {f : Fault} {e : BitVec 16}

theorem of_real (h : ReportedException s i f) (hm : s.mode = .real) :
    f = .undefinedOpcode ∨ f = .generalProtection none ∨ f = .stackSegment none := by
  have hcode : s.operandCode = none := State.operandCode_of_real hm
  cases h with
  | undefined => exact .inl rfl
  | protection code operand => exact .inr (.inl (congrArg _ (operand.symm.trans hcode)))
  | stack code operand => exact .inr (.inr (congrArg _ (operand.symm.trans hcode)))
  | page mode => exact absurd hm mode
  | alignment mode => exact absurd hm mode
  | selector mode => exact absurd hm mode.1

theorem of_v86 (h : ReportedException s i f) (hm : s.mode = .v86) :
    f = .undefinedOpcode ∨ f = .generalProtection (some 0) ∨ f = .stackSegment (some 0) ∨ (∃ c, f = .pageFault c) ∨
      f = .alignmentCheck := by
  have hcode : s.operandCode = some 0 := State.operandCode_of_ne_real (by simp [hm])
  cases h with
  | undefined => exact .inl rfl
  | protection code operand => exact .inr (.inl (congrArg _ (operand.symm.trans hcode)))
  | stack code operand => exact .inr (.inr (.inl (congrArg _ (operand.symm.trans hcode))))
  | page _ c => exact .inr (.inr (.inr (.inl ⟨c, rfl⟩)))
  | alignment => exact .inr (.inr (.inr (.inr rfl)))
  | selector mode => exact absurd hm mode.2

theorem ne_none (h : ReportedException s i f) (hm : s.mode ≠ .real) :
    f ≠ .generalProtection none ∧ f ≠ .stackSegment none := by
  have hcode : s.operandCode = some 0 := State.operandCode_of_ne_real hm
  cases h with
  | protection code operand | stack code operand => simp [← operand, hcode]
  | selector _ _ _ check => cases check <;> exact ⟨nofun, nofun⟩
  | undefined | page | alignment => exact ⟨nofun, nofun⟩

theorem protection_code (h : ReportedException s i (.generalProtection (some e))) : e.toNat % 4 = 0 := by
  cases h with
  | protection _ operand => rw [State.eq_zero_of_operandCode operand]; rfl
  | selector _ sel _ check =>
    cases check with
    | protection _ code =>
      rcases code with rfl | rfl
      · rfl
      · exact errSel_mod_four sel

theorem notPresent_code (h : ReportedException s i (.segmentNotPresent e)) :
    i.dest ≠ .ss ∧ e.toNat % 4 = 0 ∧ e ≠ 0 := by
  cases h with
  | selector _ sel _ check =>
    cases check with
    | notPresent dest nonNull => exact ⟨dest, errSel_mod_four sel, errSel_ne_zero nonNull⟩

theorem stack_code (h : ReportedException s i (.stackSegment (some e))) (he : e ≠ 0) :
    i.dest = .ss ∧ e.toNat % 4 = 0 := by
  cases h with
  | stack _ operand => exact absurd (State.eq_zero_of_operandCode operand) he
  | selector _ sel _ check =>
    cases check with
    | stack dest => exact ⟨dest, errSel_mod_four sel⟩

end ReportedException

end Sys2Proof.Machine
end

section
/-! Settled: the exception reported, the exceptions of each mode, the error code and the vectors (60_exceptions.md R171 to
R175). -/

open Sys2Proof Sys2Proof.Machine

/-- Settles O42: an instruction that completes has passed the condition of each exception, and one that does not raises an
exception that applies. -/
theorem reportedExceptionApplies : Obligations.ReportedExceptionApplies := by
  intro s i hf hfit
  have happ : ∀ f, exec i s = .fault f → f ∈ s.applicable i := fun f => mem_applicable_of_exec_fault hf
  refine ⟨⟨fun ⟨t, h⟩ => applicable_eq_nil_of_exec_next hfit h, fun hnone => ?_⟩, happ⟩
  cases h : exec i s with
  | next t => exact ⟨t, rfl⟩
  | fault f => exact absurd (happ f h) (by simp [hnone])
  | refused q => exact absurd h (exec_ne_refused_of_fits hf hfit q)

/-- Settles O51, by what raised the exception. -/
theorem exceptionsOfEachMode : Obligations.ExceptionsOfEachMode := by
  intro s i f h
  have hrep := reportedException_of_exec_fault h
  refine ⟨hrep.of_real, hrep.of_v86, hrep.ne_none, ?_, ?_, ?_⟩
  · rintro e rfl
    exact hrep.protection_code
  · rintro e rfl
    exact hrep.notPresent_code
  · rintro e rfl
    exact hrep.stack_code

/-- Settles O31: a form with a LOCK prefix does not exist. -/
theorem lockedInstructionFaults : Obligations.LockedInstructionFaults := by
  intro s i hlock
  have hf : ¬ FormExists s i := fun ⟨hno, _⟩ => by simp [hlock] at hno
  rw [exec_of_not_exists hf, hlock]
  rfl

/-- Settles O47, by the quotient by 4 and the remainder. -/
theorem selectorErrorCodeClearsRpl : Obligations.SelectorErrorCodeClearsRpl := errSel_toNat

/-- Settles O48, by the table of vectors. -/
theorem exceptionVectorNumbers : Obligations.ExceptionVectorNumbers :=
  fun _ _ _ => ⟨rfl, rfl, rfl, rfl, rfl, rfl⟩

end

section
/-! SUPPORT. A run to its end against a plain run of steps, and the segment registers after reset (70_reset_and_hazards.md
R200, R204). -/

namespace Sys2Proof.Machine

/-- A run to its end that has used up `n + 1` steps is one step that completes and such a run of `n` steps from where it
ends. -/
theorem exists_step_of_runTo_succ {pEnd n : Nat} {s t : State} (h : runTo pEnd (n + 1) s = .running t) :
    ∃ u, step s = .next u ∧ runTo pEnd n u = .running t := by
  rw [runTo] at h
  split at h
  · cases h
  · split at h
    · next u hu => exact ⟨u, hu, h⟩
    · cases h
    · cases h

/-- A step that completes and a completed run of `n` steps from where it ends are a run of `n + 1` steps. -/
theorem run_succ_of_step {M : Host.Core} {n : Nat} {s u t : M.State} (hstep : M.step s = .next u)
    (hrun : M.run n u = .next t) : M.run (n + 1) s = .next t := by
  rw [Host.Core.run, hstep]
  exact hrun

/-- A run to its end that has used up its steps has completed each of them. -/
theorem run_of_runTo_eq_running {pEnd n : Nat} {s t : State} (h : runTo pEnd n s = .running t) :
    Host.Core.run Sys2Proof.core n s = .next t := by
  induction n generalizing s with
  | zero =>
    rw [runTo] at h
    split at h <;> cases h
    rfl
  | succ n ih =>
    obtain ⟨u, hstep, hrun⟩ := exists_step_of_runTo_succ h
    exact run_succ_of_step (M := Sys2Proof.core) hstep (ih hrun)

/-- No load names CS, the one register that differs after reset (10_state.md R38). -/
theorem State.seg_reset (S : LoadSeg) : State.reset.seg S.name = State.resetSegment := by
  cases S <;> rfl

theorem State.realSegmentInv_resetSegment : RealSegmentInv State.resetSegment := ⟨rfl, by decide⟩

end Sys2Proof.Machine
end

section
/-! Settled: the end of a run and the invariant after reset (70_reset_and_hazards.md R200, R204). -/

open Sys2Proof Sys2Proof.Machine

/-- Settles O58: a run that is still going has completed all its `n` steps, and they have moved `pc` on by at least `2 * n`
bytes, more than the program has from where it began. -/
theorem runEndsWithinHalfItsBytes : Obligations.RunEndsWithinHalfItsBytes := by
  intro pEnd n s t _ hbytes hroom hrun
  have hlower : s.codeOffset + 2 * n ≤ t.codeOffset :=
    (runAdvancesTwoToThirteenBytesAStep n s t (run_of_runTo_eq_running hrun) hroom).1
  omega

/-- Settles O55: the state after reset is in real-address mode, so of the clauses on segment registers only that mode's
applies. -/
theorem resetMeetsTheInvariant : Obligations.ResetMeetsTheInvariant where
  memory := rfl
  pc := by decide
  real _ S := by
    rw [State.seg_reset]
    exact State.realSegmentInv_resetSegment
  data := nofun
  data64 := nofun
  stack := nofun

end
